-- ==== Sys2Proof/Word.lean ====
section
/-! DEFINITION. The word types of the LZFX codec block: a byte (R11) and a length register (R9). -/

namespace Sys2Proof

/-- A byte, 8 bits (R11). -/
abbrev Byte := BitVec 8

/-- `LENW`, the width of every length, capacity, position and cursor (R9). -/
abbrev lenW : Nat := 32

/-- A host-visible length register (`IN_LEN`, `OUT_CAP`, `RLEN`): `LENW` bits (R9, R30). -/
abbrev Len := BitVec 32

/-- The largest length, `2^LENW - 1`, which is also where the COUNT mode sum saturates (R236). -/
abbrev lenMax : Nat := 4294967295

end Sys2Proof
end

