-- ==== Sys2Proof/Config.lean ====
section
/-! DEFINITION. What is fixed for one machine and is not state: the format constants (R5), the open parameters
`ADDRW`, `HLOG`, `HASH`, `HUPD` (R6 to R10), and the free values: constants with no body, of which nothing can be proved. -/

namespace Sys2Proof

/-- Longest literal run in bytes (R5). -/
abbrev litMax : Nat := 32
/-- Shortest back-reference length (R5). -/
abbrev matchMin : Nat := 3
/-- Longest back-reference length (R5). -/
abbrev matchMax : Nat := 264
/-- Smallest back-reference offset (R5). -/
abbrev offMin : Nat := 1
/-- Largest back-reference offset (R5). -/
abbrev offMax : Nat := 8192
/-- Largest length of the two-byte back-reference form (R5). -/
abbrev shortMax : Nat := 8

/-- `HUPD`, the hash-update cadence after a back-reference (R8). -/
inductive HashUpdate where
  /-- every position the match skips is entered -/
  | all
  /-- only the match start is entered -/
  | start
deriving DecidableEq, Repr

/-- The open parameters of the block (R6, R7, R8, R10). -/
structure Config where
  /-- `ADDRW`; `none` stands for the unbounded naturals that R10 and D10 allow in its place. -/
  addrW : Option Nat
  /-- `HLOG` (R6). -/
  hlog : Nat
  /-- `HASH` (R7). -/
  hash : Byte → Byte → Byte → Nat
  /-- `HUPD` (R8). -/
  hupd : HashUpdate

/-- What the spec asks of the parameters: `ADDRW >= 1` (D10), `1 <= HLOG <= 24` (R6), and `HASH` into
`0 .. HSIZE-1` (R7). -/
structure Config.Legal (C : Config) : Prop where
  addrW_pos : ∀ w, C.addrW = some w → 1 ≤ w
  hlog_pos : 1 ≤ C.hlog
  hlog_le : C.hlog ≤ 24
  hash_lt : ∀ b0 b1 b2, C.hash b0 b1 b2 < 2 ^ C.hlog

/-- Free value: what `STATUS` holds while it is unspecified (R124, U4), one for each tick of the free-value counter. -/
opaque Config.freeStatus : Nat → Byte
/-- Free value: what `RLEN` holds while it is unspecified (R37, R124, R257, U4). -/
opaque Config.freeLen : Nat → Len
/-- Free value: what `RLEN_WR` holds while it is unspecified (R124, U4). -/
opaque Config.freeBit : Nat → Bool
/-- Free value: a byte of an output region that a failed command left unspecified (R81, U1), by the counter's value at
the failure and the byte's address. -/
opaque Config.freeByte : Nat → Nat → Byte

end Sys2Proof
end

