-- ==== Sys2Proof/Syntax.lean ====
section
/-! DEFINITION. The instructions: one constructor for each row of spec/opcode_table.json. Tokens of the stream a
DECOMPRESS interprets (LIT, the six REFS rows, REFL) and the two commands (COMPRESS, DECOMPRESS). -/

namespace Sys2Proof

/-- An instruction of the block. Offsets and lengths are the assembled values of R95 to R97, not the stored fields. -/
inductive Instr where
  /-- LIT, `0x00..0x1F`: append the raw bytes (R92, R195). -/
  | lit (data : List Byte)
  /-- REFS with `L = 1`: copy 3 bytes from `off` back (R93, R197). -/
  | refs3 (off : Nat)
  /-- REFS with `L = 2`: copy 4 bytes from `off` back (R93, R197). -/
  | refs4 (off : Nat)
  /-- REFS with `L = 3`: copy 5 bytes from `off` back (R93, R197). -/
  | refs5 (off : Nat)
  /-- REFS with `L = 4`: copy 6 bytes from `off` back (R93, R197). -/
  | refs6 (off : Nat)
  /-- REFS with `L = 5`: copy 7 bytes from `off` back (R93, R197). -/
  | refs7 (off : Nat)
  /-- REFS with `L = 6`: copy 8 bytes from `off` back (R93, R197). -/
  | refs8 (off : Nat)
  /-- REFL: copy `len` (9..264) bytes from `off` back (R94, R198). -/
  | refl (len off : Nat)
  /-- The command COMPRESS, `CMD = 0` (R107, R120). -/
  | compress
  /-- The command DECOMPRESS, `CMD = 1` (R107, R121). -/
  | decompress
deriving DecidableEq, Repr

/-- The two values of the one-bit command register `CMD` (R31, R107). -/
inductive Cmd where
  /-- `CMD = 0` -/
  | compress
  /-- `CMD = 1` -/
  | decompress
deriving DecidableEq, Repr

end Sys2Proof
end

