-- ==== Sys2Proof/WellFormed.lean ====
section
/-! DEFINITION. Which instructions have an encoding: the ranges of R92 to R97. -/

namespace Sys2Proof

/-- An offset is `1..8192` (R97). -/
def offsetOk (off : Nat) : Bool := decide (offMin ≤ off ∧ off ≤ offMax)

/-- A literal run holds 1 to 32 bytes (R92, R96). -/
def literalOk (data : List Byte) : Bool := decide (1 ≤ data.length ∧ data.length ≤ litMax)

/-- The length of a REFL is `9..264` (R94, R95). -/
def longLenOk (len : Nat) : Bool := decide (shortMax < len ∧ len ≤ matchMax)

/-- The instruction has an encoding. -/
def Instr.wellFormed : Instr → Bool
  | .lit data => literalOk data
  | .refs3 off => offsetOk off
  | .refs4 off => offsetOk off
  | .refs5 off => offsetOk off
  | .refs6 off => offsetOk off
  | .refs7 off => offsetOk off
  | .refs8 off => offsetOk off
  | .refl len off => longLenOk len && offsetOk off
  | .compress => true
  | .decompress => true

end Sys2Proof
end

