-- ==== Sys2Proof/Decode.lean ====
section
/-! DEFINITION. Decoding and encoding, from the token formats (R91 to R101, R104 to R106) and the command register's
encoding (R107). The opcode table has two kinds of code unit: the bytes of a token stream and the one-bit register `CMD`. -/

namespace Sys2Proof

/-- Where an instruction is read from: the token stream at the cursor, or the sampled command register. -/
inductive CodeUnit where
  /-- bytes of the token stream, the control byte first -/
  | stream (bytes : List Byte)
  /-- the value of `CMD` -/
  | command (bit : BitVec 1)
deriving DecidableEq, Repr

/-- Why nothing is decoded. There is no third reason: every control byte selects a format (R101). -/
inductive DecodeError where
  /-- no byte is left: the stream has ended (R90) -/
  | endOfStream
  /-- the token runs past the end of the bytes (R99, R193) -/
  | truncated
deriving DecidableEq, Repr

/-- `CB[7:5]`, which selects the format (R91). -/
def formatBits (cb : Byte) : Nat := cb.toNat / 32

/-- `CB[4:0]` (R92 to R94). -/
def lowBits (cb : Byte) : Nat := cb.toNat % 32

/-- The encoded size of the token, known from its control byte alone (R99). -/
def tokenSize (cb : Byte) : Nat :=
  if cb.toNat < 0x20 then 1 + (cb.toNat + 1) else if cb.toNat < 0xE0 then 2 else 3

/-- The offset assembled from `CB[4:0]` and the token's last byte (R97). -/
def assembleOffset (cb low : Byte) : Nat := lowBits cb * 256 + low.toNat + 1

/-- The token whose control byte is `cb` and whose other bytes are `rest` (R91 to R97). -/
def tokenOf (cb : Byte) (rest : List Byte) : Instr :=
  match formatBits cb with
  | 0 => .lit rest
  | 1 => .refs3 (assembleOffset cb (rest.getD 0 0))
  | 2 => .refs4 (assembleOffset cb (rest.getD 0 0))
  | 3 => .refs5 (assembleOffset cb (rest.getD 0 0))
  | 4 => .refs6 (assembleOffset cb (rest.getD 0 0))
  | 5 => .refs7 (assembleOffset cb (rest.getD 0 0))
  | 6 => .refs8 (assembleOffset cb (rest.getD 0 0))
  | _ => .refl ((rest.getD 0 0).toNat + 9) (assembleOffset cb (rest.getD 1 0))

/-- One token off the front of a byte string, with the bytes after it (R90, R99, R102). -/
def decodeToken : List Byte → Except DecodeError (Instr × List Byte)
  | [] => .error .endOfStream
  | cb :: rest =>
    if rest.length + 1 < tokenSize cb then .error .truncated
    else .ok (tokenOf cb (rest.take (tokenSize cb - 1)), rest.drop (tokenSize cb - 1))

/-- The command that a value of `CMD` selects (R31, R107). -/
def commandOfBit (bit : BitVec 1) : Cmd := if bit = 0#1 then .compress else .decompress

/-- The instruction that issues a command (R107). -/
def Cmd.instr : Cmd → Instr
  | .compress => .compress
  | .decompress => .decompress

/-- Decoding of either kind of code unit, with the stream's bytes after the token. -/
def decode : CodeUnit → Except DecodeError (Instr × List Byte)
  | .stream bytes => decodeToken bytes
  | .command bit => .ok ((commandOfBit bit).instr, [])

/-! ## Encoding -/

/-- `enc_lit(n)`, the control byte of a literal run of `n` bytes (R104). -/
def encLit (n : Nat) : Byte := BitVec.ofNat 8 (n - 1)

/-- `ref_size(len)` (R105). -/
def refSize (len : Nat) : Nat := if len ≤ shortMax then 2 else 3

/-- The control byte of a back-reference (R105). -/
def refControl (len off : Nat) : Byte :=
  if len ≤ shortMax then BitVec.ofNat 8 ((len - 2) * 32 + (off - 1) / 256)
  else BitVec.ofNat 8 (0xE0 + (off - 1) / 256)

/-- `enc_ref(len, off)` (R105). -/
def encRef (len off : Nat) : List Byte :=
  if len ≤ shortMax then [refControl len off, BitVec.ofNat 8 ((off - 1) % 256)]
  else [refControl len off, BitVec.ofNat 8 (len - 9), BitVec.ofNat 8 ((off - 1) % 256)]

/-- The value of `CMD` that selects a command (R107). -/
def Cmd.bit : Cmd → BitVec 1
  | .compress => 0#1
  | .decompress => 1#1

/-- The length and offset of a back-reference token (R95, R97). -/
def Instr.backRef? : Instr → Option (Nat × Nat)
  | .lit _ => none
  | .refs3 off => some (3, off)
  | .refs4 off => some (4, off)
  | .refs5 off => some (5, off)
  | .refs6 off => some (6, off)
  | .refs7 off => some (7, off)
  | .refs8 off => some (8, off)
  | .refl len off => some (len, off)
  | .compress => none
  | .decompress => none

/-- The words of an instruction (R92 to R94, R104 to R107). -/
def encode : Instr → CodeUnit
  | .lit data => .stream (encLit data.length :: data)
  | .refs3 off => .stream (encRef 3 off)
  | .refs4 off => .stream (encRef 4 off)
  | .refs5 off => .stream (encRef 5 off)
  | .refs6 off => .stream (encRef 6 off)
  | .refs7 off => .stream (encRef 7 off)
  | .refs8 off => .stream (encRef 8 off)
  | .refl len off => .stream (encRef len off)
  | .compress => .command Cmd.compress.bit
  | .decompress => .command Cmd.decompress.bit

/-- The bytes of a token; a command has none (R107: it is selected by a register). -/
def Instr.bytes (i : Instr) : List Byte :=
  match encode i with
  | .stream bytes => bytes
  | .command _ => []

/-- `size(token)` (R99); a command takes no bytes of the stream. -/
def Instr.size : Instr → Nat
  | .lit data => 1 + data.length
  | .refs3 _ => 2
  | .refs4 _ => 2
  | .refs5 _ => 2
  | .refs6 _ => 2
  | .refs7 _ => 2
  | .refs8 _ => 2
  | .refl _ _ => 3
  | .compress => 0
  | .decompress => 0

/-- `out(token)`, the output bytes a token stands for (R100). -/
def Instr.outSize : Instr → Nat
  | .lit data => data.length
  | .refs3 _ => 3
  | .refs4 _ => 4
  | .refs5 _ => 5
  | .refs6 _ => 6
  | .refs7 _ => 7
  | .refs8 _ => 8
  | .refl len _ => len
  | .compress => 0
  | .decompress => 0

/-- The instruction is a token of the stream (R91). -/
def Instr.isToken : Instr → Bool
  | .lit _ => true
  | .refs3 _ => true
  | .refs4 _ => true
  | .refs5 _ => true
  | .refs6 _ => true
  | .refs7 _ => true
  | .refs8 _ => true
  | .refl _ _ => true
  | .compress => false
  | .decompress => false

/-! ## The opcode table's numbering -/

/-- The longest token, 33 bytes (R99). -/
abbrev longestToken : Nat := 33

/-- The bytes of a word, bits 7:0 first, with zeros above up to the longest token. -/
def bytesOfWord (nbits w : Nat) : List Byte :=
  (List.range longestToken).map fun k => BitVec.ofNat 8 (w % 2 ^ nbits / 2 ^ (8 * k))

/-- The code unit a word of the opcode table stands for. A unit of at most 8 bits whose value is 0 or 1 is read as the
register `CMD` (rows COMPRESS and DECOMPRESS: mask `0x1`); any other is the bytes of a token, control byte first.
DESIGN CHOICE (log 14): in this probe the one-byte words 0 and 1 mean the command, not a LIT with zero data. -/
def unitOfTableWord (nbits w : Nat) : CodeUnit :=
  if nbits ≤ 8 ∧ w < 2 then .command (BitVec.ofNat 1 w) else .stream (bytesOfWord nbits w)

/-- The instruction the decoder reads from a word of the opcode table. -/
def decodeTableWord (nbits w : Nat) : Option Instr :=
  match decode (unitOfTableWord nbits w) with
  | .ok (i, _) => some i
  | .error _ => none

end Sys2Proof
end

