-- ==== Sys2Proof/Machine/State.lean ====
section
/-! DEFINITION. The state of the block as plain data (R20), its memory (R60), its reset value (R42, R290), and the
reasons a step can stop. -/

namespace Sys2Proof.Machine

open Sys2Proof

/-- `STATE`, register 8 (R35). -/
inductive Phase where
  /-- 0: after reset, until the first command is issued -/
  | idle
  /-- 1: from the issue of a command to its end -/
  | busy
  /-- 2: from the end of a command to the next issue -/
  | done
deriving DecidableEq, Repr

/-- The flag `MODE` (R29). -/
inductive Mode where
  /-- 0: the decoder writes output bytes and checks offsets -/
  | write
  /-- 1: the decoder only adds up lengths -/
  | count
deriving DecidableEq, Repr

/-- The command registers 0 to 6 (R30 to R33), and also a sample of them (R34, R124). -/
structure Operands where
  /-- register 0, 1 bit (R31) -/
  cmd : Cmd
  /-- register 1, 1 bit (R32) -/
  inPresent : Bool
  /-- register 2, `ADDRW` bits, a byte address (R10, R32) -/
  inBase : Nat
  /-- register 3, `LENW` bits (R32) -/
  inLen : Len
  /-- register 4, 1 bit (R33) -/
  outPresent : Bool
  /-- register 5, `ADDRW` bits, a byte address (R10, R33) -/
  outBase : Nat
  /-- register 6, `LENW` bits (R33) -/
  outCap : Len
deriving DecidableEq, Repr

/-- A run of addresses whose contents a failed command left unspecified (R81, U1). -/
structure Span where
  /-- first address -/
  base : Nat
  /-- number of bytes -/
  len : Nat
  /-- the free-value counter at the failure -/
  stamp : Nat
deriving DecidableEq, Repr

/-- The one byte-addressed memory (R60). `cells` are the bytes with a known value, by strictly rising address. -/
structure Memory where
  /-- the listed bytes -/
  cells : List Host.Cell
  /-- where an unlisted byte reads as a free value, latest first -/
  spans : List Span
deriving DecidableEq, Repr

/-- The whole state (R20), with the memory, the operands sampled at issue (R34), and two fields of the model's own
(`countFirst`, `freeTick`). -/
structure State where
  /-- registers 0 to 6 as the host wrote them (R31 to R33) -/
  regs : Operands
  /-- register 7: the host has written 1 and the engine has not yet taken it (R34) -/
  start : Bool
  /-- register 8, `STATE` (R35) -/
  phase : Phase
  /-- register 9, `STATUS`, 8 bits (R36) -/
  status : Byte
  /-- register 10, `RLEN`, `LENW` bits (R37) -/
  rlen : Len
  /-- register 11, `RLEN_WR`, 1 bit (R38) -/
  rlenWr : Bool
  /-- the operands of the running command, sampled at its issue (R34, R124) -/
  op : Operands
  /-- `IP`, the input cursor, a count below `2^LENW` (R21) -/
  ip : Nat
  /-- `WP`, the output write position or length sum, a count below `2^LENW` (R23) -/
  wp : Nat
  /-- `LS`, where the pending literal run starts, a count below `2^LENW` (R25) -/
  ls : Nat
  /-- `LL`, the length of the pending literal run, `0..32` (R25) -/
  ll : Nat
  /-- the latch `CB`, 8 bits (R26) -/
  cb : Byte
  /-- the latch `MLEN`, `3..264` in use (R26) -/
  mlen : Nat
  /-- the latch `MOFF`, `1..8192` in use (R26) -/
  moff : Nat
  /-- the latch `CAND`: `none` is `EMPTY` (R26) -/
  cand : Option Nat
  /-- the flag `MODE` (R29) -/
  mode : Mode
  /-- the hash table `HT`: the slots that are not `EMPTY`, by strictly rising slot number (R27) -/
  ht : List (Nat × Nat)
  /-- the memory (R60) -/
  mem : Memory
  /-- the model's own: MODE became COUNT at the first token of this command (the exception of R81, log 9) -/
  countFirst : Bool
  /-- the model's own: how many free values have been drawn (log 5) -/
  freeTick : Nat
deriving DecidableEq, Repr

/-- Why the machine would stop: an access the rules do not define (R13, R65). The rules' guards rule every one of them
out in a state a run can reach; all are safe (the model stops where the spec defines no access). -/
inductive Fault where
  /-- `IN[i]` with `i >= IN_LEN` (R13, R65 a); raised by `readIn`. Safe. -/
  | inputReadOutOfBounds
  /-- `OUT[i] <- v` with `i >= OUT_CAP` (R13, R65 b); raised by `emitByte`. Safe. -/
  | outputWriteOutOfBounds
  /-- `OUT[i]` as a value with `i >= WP` or `WP > OUT_CAP` (R13, R65 c); raised by `readOut`. Safe. -/
  | outputReadOutOfBounds
deriving DecidableEq, Repr

/-- Why a run has no meaning. -/
inductive Refusal where
  /-- exec's arm of an instruction that has no meaning yet. Safe. No arm uses it. -/
  | notModelled (mnemonic : String)
  /-- A command whose two regions share an address (R64, R297, R301, U2: refuse); raised by the issue of a command, by
  the host write of `START`, and by `resetEvent` on such a command. Safe. -/
  | regionsOverlap
  /-- A command with a region that wraps past `2^ADDRW` (R62, R296, R301, U2: refuse); raised where `regionsOverlap` is.
  Safe. -/
  | regionWraps
  /-- A command started while one is running (R34, R299, U3: refuse); raised by `step`, by COMPRESS and by
  `resetEvent`. Safe. -/
  | startWhileBusy
  /-- A host write to registers 0 to 7 while a command is running (R299, U3: refuse); raised by `hostWrite`. Safe. -/
  | registerWriteWhileBusy
  /-- A host write to a read-only register (R30 gives no effect); raised by `hostWrite`. Safe. -/
  | readOnlyRegister
  /-- A token executed while no DECOMPRESS runs (R190 gives tokens a meaning only there); raised by the token meanings,
  never by `step`. Safe. -/
  | tokenOutsideDecompress
deriving DecidableEq, Repr

/-- What a part of a running command comes to. -/
inductive Flow where
  /-- the command goes on -/
  | go (s : State)
  /-- the command has ended, by `finish` or by `raise` (R14) -/
  | ended (s : State)
  /-- an access the rules do not define -/
  | stop (f : Fault)
deriving DecidableEq, Repr

/-- Registers 0 to 6 after reset: unspecified (R42), the model's value is 0 for each (DESIGN CHOICE, log 2). -/
def Operands.zero : Operands :=
  { cmd := .compress, inPresent := false, inBase := 0, inLen := 0#32, outPresent := false, outBase := 0, outCap := 0#32 }

/-- The state after reset (R42, R290): `STATE` is IDLE by the rule; every other value is unspecified there and is the
model's own zero (DESIGN CHOICE, log 2). -/
def State.reset : State :=
  { regs := Operands.zero
    start := false
    phase := .idle
    status := 0#8
    rlen := 0#32
    rlenWr := false
    op := Operands.zero
    ip := 0
    wp := 0
    ls := 0
    ll := 0
    cb := 0#8
    mlen := 0
    moff := 0
    cand := none
    mode := .write
    ht := []
    mem := { cells := [], spans := [] }
    countFirst := false
    freeTick := 0 }

end Sys2Proof.Machine
end

