-- ==== Sys2Proof/Machine/Ops.lean ====
section
/-! DEFINITION. The named operations over memory, the hash table and the registers, the two ends of a command
(`finish`, R129, and `raise`, R256), and where the next instruction comes from. -/

namespace Sys2Proof.Machine

open Sys2Proof

/-! ## Keyed lists: the cells of memory and the slots of the hash table -/

/-- The value listed for a key. -/
def lookup {α : Type} (k : Nat) : List (Nat × α) → Option α
  | [] => none
  | (a, v) :: rest => if a = k then some v else lookup k rest

/-- The list with `v` for the key `k`, keeping keys in rising order. -/
def insert {α : Type} (k : Nat) (v : α) : List (Nat × α) → List (Nat × α)
  | [] => [(k, v)]
  | (a, w) :: rest =>
    if k < a then (k, v) :: (a, w) :: rest
    else if k = a then (k, v) :: rest
    else (a, w) :: insert k v rest

/-- The list without the keys that `p` holds of. -/
def dropKeys {α : Type} (p : Nat → Bool) (m : List (Nat × α)) : List (Nat × α) := m.filter fun e => !p e.1

/-- Keys rise strictly, from `lo` on. -/
def risingFrom {α : Type} (lo : Nat) : List (Nat × α) → Bool
  | [] => true
  | (a, _) :: rest => decide (lo ≤ a) && risingFrom (a + 1) rest

/-! ## Memory (R60, R66: one byte at a time) -/

/-- The address lies in the span. -/
def Span.holds (sp : Span) (a : Nat) : Bool := decide (sp.base ≤ a ∧ a < sp.base + sp.len)

/-- The value of a byte of memory that nothing has written.
DESIGN CHOICE (log 3): 0; the spec gives memory no content after reset (R42). -/
def blankByte : Byte := 0#8

/-- The address lies where a failed command left memory unspecified (R81). -/
def Memory.unspecified (m : Memory) (a : Nat) : Bool := m.spans.any fun sp => sp.holds a

/-- What an unlisted address reads as: a free value where a failed command left memory unspecified (R81, U1). -/
def Memory.unlisted (m : Memory) (a : Nat) : Byte :=
  match m.spans.find? fun sp => sp.holds a with
  | some sp => Config.freeByte sp.stamp a
  | none => blankByte

/-- `MemRead(a, 1)` (R13). -/
def Memory.read (m : Memory) (a : Nat) : Byte := (lookup a m.cells).getD (m.unlisted a)

/-- `MemWrite(a, 1, v)` (R13); a byte equal to what its unlisted address is known to read as is not listed. -/
def Memory.write (m : Memory) (a : Nat) (v : Byte) : Memory :=
  if m.unspecified a = false ∧ v = blankByte then { m with cells := dropKeys (fun k => decide (k = a)) m.cells }
  else { m with cells := insert a v m.cells }

/-- The memory after the `len` bytes at `base` have become unspecified (R81, R291). -/
def Memory.forget (m : Memory) (base len stamp : Nat) : Memory :=
  if len = 0 then m
  else
    { cells := dropKeys (fun k => decide (base ≤ k ∧ k < base + len)) m.cells
      spans := { base := base, len := len, stamp := stamp } :: m.spans }

/-- The canonical form: keys rise strictly, and no listed byte equals what its address would read as unlisted (in an
unspecified span that value is no known one, so there every known byte is listed). -/
def Memory.wf (m : Memory) : Bool :=
  risingFrom 0 m.cells && m.cells.all fun c => m.unspecified c.1 || decide (c.2 ≠ blankByte)

/-- The `bytes` laid out from address `a` up. -/
def Memory.writeAll (m : Memory) (a : Nat) : List Byte → Memory
  | [] => m
  | b :: rest => (m.write a b).writeAll (a + 1) rest

/-! ## The hash table (R27) -/

/-- `HT[h]`; `none` is `EMPTY`. -/
def slot (ht : List (Nat × Nat)) (h : Nat) : Option Nat := lookup h ht

/-- `HT[h] <- p`. -/
def setSlot (ht : List (Nat × Nat)) (h p : Nat) : List (Nat × Nat) := insert h p ht

/-! ## Sequencing the parts of a command (R14: after `finish` or `raise` no later part runs) -/

/-- Go on with `k` unless the command has ended. -/
def Flow.andThen : Flow → (State → Flow) → Flow
  | .go s, k => k s
  | .ended s, _ => .ended s
  | .stop f, _ => .stop f

/-- The outcome of a step that came to this. -/
def Flow.outcome : Flow → Host.Outcome State Fault Refusal
  | .go s => .next s
  | .ended s => .next s
  | .stop f => .fault f

/-! ## Bounds-carrying accesses to the two regions (R13, R61, R63, R65) -/

/-- `IN[i]`: defined for `i < IN_LEN` only (R13, R65 a). -/
def State.readIn (s : State) (i : Nat) : Except Fault Byte :=
  if i < s.op.inLen.toNat then .ok (s.mem.read (s.op.inBase + i)) else .error .inputReadOutOfBounds

/-- `OUT[i]` as a value: defined for `i < WP <= OUT_CAP` only (R13, R65 c). -/
def State.readOut (s : State) (i : Nat) : Except Fault Byte :=
  if i < s.wp ∧ s.wp ≤ s.op.outCap.toNat then .ok (s.mem.read (s.op.outBase + i)) else .error .outputReadOutOfBounds

/-- `OUT[WP] <- v; WP <- WP + 1`: allowed for `WP < OUT_CAP` only (R13, R24, R65 b). -/
def emitByte (v : Byte) (s : State) : Flow :=
  if s.wp < s.op.outCap.toNat then .go { s with mem := s.mem.write (s.op.outBase + s.wp) v, wp := s.wp + 1 }
  else .stop .outputWriteOutOfBounds

/-- The bytes written in order at `WP` (R66, R196). -/
def emit : List Byte → State → Flow
  | [], s => .go s
  | b :: rest, s => (emitByte b s).andThen (emit rest)

/-- `for k in 0 .. n-1: OUT[WP] <- IN[i + k]; WP <- WP + 1` (R163). -/
def copyIn : Nat → Nat → State → Flow
  | 0, _, s => .go s
  | n + 1, i, s =>
    match s.readIn i with
    | .error f => .stop f
    | .ok b => (emitByte b s).andThen (copyIn n (i + 1))

/-- `for k in 0 .. n-1: OUT[WP] <- OUT[WP - MOFF]; WP <- WP + 1`, each read after the write before it (R200). -/
def copyBack : Nat → State → Flow
  | 0, s => .go s
  | n + 1, s =>
    match s.readOut (s.wp - s.moff) with
    | .error f => .stop f
    | .ok b => (emitByte b s).andThen (copyBack n)

/-! ## The ends of a command -/

/-- The three failures (R250). -/
inductive Failure where
  /-- -1: the destination is too small (R251) -/
  | esize
  /-- -2: the stream is truncated or refers to unwritten output (R252) -/
  | ecorrupt
  /-- -3: a required region is absent (R253) -/
  | eargs
deriving DecidableEq, Repr

/-- The status code in `STATUS`, two's complement (R36). -/
def Failure.code : Failure → Byte
  | .esize => 0xFF#8
  | .ecorrupt => 0xFE#8
  | .eargs => 0xFD#8

/-- The status code of success (R36). -/
def okCode : Byte := 0x00#8

/-- `finish OK(n)` (R129). -/
def finish (n : Nat) (s : State) : State :=
  { s with status := okCode, rlen := BitVec.ofNat 32 n, rlenWr := true, phase := .done }

/-- The failure stores a length: ESIZE of DECOMPRESS alone (R238, R256, R257). -/
def storesLength (f : Failure) (s : State) : Bool :=
  match f, s.op.cmd with
  | .esize, .decompress => true
  | .esize, .compress => false
  | .ecorrupt, _ => false
  | .eargs, _ => false

/-- The failure leaves the output region unspecified: all but EARGS and a DECOMPRESS in COUNT mode from its first
token (R81, U1). -/
def losesOutput (f : Failure) (s : State) : Bool :=
  match f with
  | .eargs => false
  | .esize => !s.countFirst
  | .ecorrupt => !s.countFirst

/-- `raise S`, the block's trap entry (R256): the status, the length result of R257 (a free value where R257 calls it
unspecified), the output region as R81 leaves it, and `STATE <- DONE`. Nothing else is saved and nothing is vectored. -/
def raise (f : Failure) (s : State) : State :=
  { s with
    status := f.code
    rlenWr := storesLength f s
    rlen := if storesLength f s then BitVec.ofNat 32 s.wp else Config.freeLen s.freeTick
    mem := if losesOutput f s then s.mem.forget s.op.outBase s.op.outCap.toNat s.freeTick else s.mem
    freeTick := s.freeTick + 1
    phase := .done }

/-! ## Where the next instruction comes from -/

/-- The bytes `IN[i .. i+n-1]`; each is read as memory holds it. -/
def State.inputBytes (s : State) (i n : Nat) : List Byte :=
  (List.range n).map fun k => s.mem.read (s.op.inBase + (i + k))

/-- The token at `IP` of a running DECOMPRESS, if the stream has not ended and the token is complete (R190 to R193);
no byte at or above `IN_LEN` is read. -/
def fetchToken (s : State) : Option Instr :=
  match s.readIn s.ip with
  | .error _ => none
  | .ok cb =>
    if s.op.inLen.toNat - s.ip < tokenSize cb then none
    else
      match decode (.stream (s.inputBytes s.ip (tokenSize cb))) with
      | .ok (i, _) => some i
      | .error _ => none

/-- The instruction the next step runs: the token at `IP` of a running DECOMPRESS; else the running command itself
(COMPRESS goes on, or DECOMPRESS ends); else the command that `CMD` selects, when `START` was written (R34, R124);
else none, and the engine does nothing (R290). -/
def nextInstr (s : State) : Option Instr :=
  match s.phase with
  | .busy =>
    match s.op.cmd with
    | .compress => some .compress
    | .decompress =>
      match fetchToken s with
      | some i => some i
      | none => some .decompress
  | .idle => if s.start then some s.regs.cmd.instr else none
  | .done => if s.start then some s.regs.cmd.instr else none

/-! ## Placing one instruction where the next step finds it -/

/-- A running DECOMPRESS whose input region, at its base, is the given bytes: a one-token program, loaded. -/
def State.withStream (s : State) (bytes : List Byte) : State :=
  { s with
    phase := .busy
    start := false
    op := { s.op with cmd := .decompress, inPresent := true, inLen := BitVec.ofNat 32 bytes.length }
    ip := 0
    mem := s.mem.writeAll s.op.inBase bytes }

/-- An engine that is not running, with `CMD` written and `START` written after it. -/
def State.withCommand (s : State) (c : Cmd) : State :=
  { s with
    phase := match s.phase with
      | .idle => .idle
      | .busy => .idle
      | .done => .done
    start := true
    regs := { s.regs with cmd := c } }

end Sys2Proof.Machine
end

