-- ==== Sys2Proof/Machine/Operands.lean ====
section
/-! DEFINITION. Operands: the default parameters of this hardware (R6 to R8, R10), a command's operands (sampling, the
host's obligations, the argument check), and the encoder's reads of its input (hash, candidate, match length). -/

namespace Sys2Proof.Machine

open Sys2Proof

/-! ## This hardware's parameters -/

/-- The 24-bit value of three bytes (R7). -/
def tripleValue (b0 b1 b2 : Byte) : Nat := b0.toNat * 65536 + b1.toNat * 256 + b2.toNat

/-- The default `HASH` (R7); `mod` is the non-negative remainder (R11). -/
def defaultHash (hlog : Nat) (b0 b1 b2 : Byte) : Nat :=
  (((tripleValue b0 b1 b2 / 2 ^ (24 - hlog) : Nat) : Int) - (tripleValue b0 b1 b2 : Nat)).emod (2 ^ hlog : Nat) |>.toNat

/-- This hardware: `HLOG = 16` (R6), the default `HASH` (R7), `HUPD = all` (R8); `ADDRW` is open, and the addresses are
the unbounded naturals that R10 and D10 allow (log 4). -/
def hardware : Config := { addrW := none, hlog := 16, hash := defaultHash 16, hupd := .all }

/-! ## A command's operands -/

/-- A region ends within the address space (R62, R296). -/
def fits (C : Config) (base len : Nat) : Bool :=
  match C.addrW with
  | none => true
  | some w => decide (base + len ≤ 2 ^ w)

/-- The two regions share an address (R297). -/
def overlap (r : Operands) : Bool :=
  r.inPresent && r.outPresent && decide (r.inLen ≠ 0#32) && decide (r.outCap ≠ 0#32) &&
    decide (r.inBase < r.outBase + r.outCap.toNat ∧ r.outBase < r.inBase + r.inLen.toNat)

/-- A region that is present and not empty wraps (R296). -/
def wraps (C : Config) (r : Operands) : Bool :=
  (r.inPresent && decide (r.inLen ≠ 0#32) && !fits C r.inBase r.inLen.toNat) ||
    (r.outPresent && decide (r.outCap ≠ 0#32) && !fits C r.outBase r.outCap.toNat)

/-- The host obligation that the operands break, if any: such a command has no meaning (R301, U2). -/
def brokenObligation (C : Config) (r : Operands) : Option Refusal :=
  if wraps C r then some .regionWraps else if overlap r then some .regionsOverlap else none

/-- The argument check fails (R125). -/
def badArguments (r : Operands) : Bool :=
  match r.cmd with
  | .compress =>
    (decide (r.inLen ≠ 0#32) && !r.inPresent) ||
      (decide (r.inLen ≠ 0#32) && decide (r.outCap ≠ 0#32) && !r.outPresent)
  | .decompress =>
    (decide (r.inLen ≠ 0#32) && !r.inPresent) || (decide (r.outCap ≠ 0#32) && !r.outPresent)

/-- Registers 0 to 6 as the command `c` samples them (R124). -/
def sampled (c : Cmd) (r : Operands) : Operands :=
  { cmd := c, inPresent := r.inPresent, inBase := r.inBase, inLen := r.inLen
    outPresent := r.outPresent, outBase := r.outBase, outCap := r.outCap }

/-- Registers 0 to 6 sampled for the command `c`, `STATE <- BUSY`, and the response registers unspecified from here to
the command's end: free values (R34, R124). -/
def sample (c : Cmd) (s : State) : State :=
  { s with
    start := false
    phase := .busy
    op := sampled c s.regs
    status := Config.freeStatus s.freeTick
    rlen := Config.freeLen s.freeTick
    rlenWr := Config.freeBit s.freeTick
    freeTick := s.freeTick + 1 }

/-- Initialisation (R126); for COMPRESS every slot of `HT` becomes `EMPTY` (R151). -/
def initialise (s : State) : State :=
  { s with
    ip := 0
    wp := 0
    ls := 0
    ll := 0
    mode := .write
    countFirst := false
    ht := match s.op.cmd with
      | .compress => []
      | .decompress => s.ht }

/-- The front end of a command, one step (R124 to R128, R302): the argument check, the empty input, initialisation. -/
def issue (C : Config) (c : Cmd) (s : State) : Host.Outcome State Fault Refusal :=
  match brokenObligation C s.regs with
  | some r => .refused r
  | none =>
    if badArguments (sampled c s.regs) then .next (raise .eargs (sample c s))
    else if s.regs.inLen = 0#32 then .next (finish 0 (sample c s))
    else .next (initialise (sample c s))

/-! ## The match finder's operands -/

/-- The three bytes `IN[i], IN[i+1], IN[i+2]` (R155). -/
def triple (s : State) (i : Nat) : Except Fault (Byte × Byte × Byte) :=
  match s.readIn i, s.readIn (i + 1), s.readIn (i + 2) with
  | .ok b0, .ok b1, .ok b2 => .ok (b0, b1, b2)
  | .error f, _, _ => .error f
  | .ok _, .error f, _ => .error f
  | .ok _, .ok _, .error f => .error f

/-- The slot of the three bytes at `i` (R155). -/
def hashAt (C : Config) (s : State) (i : Nat) : Except Fault Nat :=
  match triple s i with
  | .ok (b0, b1, b2) => .ok (C.hash b0 b1 b2)
  | .error f => .error f

/-- The candidate is accepted: not `EMPTY`, within the offset window, and its three bytes equal those at `IP` (R158). -/
def acceptCandidate (s : State) : Except Fault (Option Nat) :=
  match s.cand with
  | none => .ok none
  | some p =>
    if s.ip - p ≤ offMax then
      match triple s p, triple s s.ip with
      | .ok t, .ok u => .ok (if t = u then some p else none)
      | .error f, _ => .error f
      | .ok _, .error f => .error f
    else .ok none

/-- Match extension: `len` grows while the next bytes of candidate and cursor agree, at most `fuel` times (R159). -/
def extend (s : State) (p : Nat) : Nat → Nat → Except Fault Nat
  | 0, len => .ok len
  | fuel + 1, len =>
    match s.readIn (p + len), s.readIn (s.ip + len) with
    | .ok a, .ok b => if a = b then extend s p fuel (len + 1) else .ok len
    | .error f, _ => .error f
    | .ok _, .error f => .error f

/-- `MLEN`: from 3 up to `min(IN_LEN - IP, MATCH_MAX)` (R159). -/
def matchLength (s : State) (p : Nat) : Except Fault Nat :=
  extend s p (min (s.op.inLen.toNat - s.ip) matchMax - matchMin) matchMin

end Sys2Proof.Machine
end

