-- ==== Sys2Proof/Machine/Flags.lean ====
section
/-! DEFINITION. The flag `MODE`: what sets it and what it decides for a token (R29, R194, R232, R236). -/

namespace Sys2Proof.Machine

open Sys2Proof

/-- The capacity check of WRITE mode: `MODE <- COUNT` when the token's `n` bytes do not fit (R194). The model's own
`countFirst` records whether that happens at the first token, where `IP = 0` (R81). -/
def checkCapacity (n : Nat) (s : State) : State :=
  match s.mode with
  | .count => s
  | .write =>
    if s.op.outCap.toNat - s.wp < n then { s with mode := .count, countFirst := decide (s.ip = 0) } else s

/-- `sat(x) = min(x, 2^LENW - 1)` (R236). -/
def sat (x : Nat) : Nat := min x lenMax

/-- A token of `n` output bytes in COUNT mode: only the sum grows (R232). -/
def countToken (n : Nat) (s : State) : State := { s with wp := sat (s.wp + n) }

/-- `IP <- IP + size` (R201). -/
def advance (size : Nat) (s : State) : State := { s with ip := s.ip + size }

/-- A DECOMPRESS is running. -/
def State.decoding (s : State) : Bool := decide (s.phase = .busy ∧ s.op.cmd = .decompress)

end Sys2Proof.Machine
end

