-- ==== Sys2Proof/Machine/Tokens.lean ====
section
/-! DEFINITION. The meanings of the tokens LIT, REFS and REFL in WRITE and COUNT mode (R190, R195 to R201, R232). -/

namespace Sys2Proof.Machine

open Sys2Proof

/-- One complete token of a running DECOMPRESS: latch `CB`, check the capacity (R194), then count it (R232) or execute
it by `write`, and advance `IP` by its size (R201). -/
def runToken (cb : Byte) (n size : Nat) (write : State → Flow) (s : State) : Flow :=
  let t := checkCapacity n { s with cb := cb }
  match t.mode with
  | .count => .go (advance size (countToken n t))
  | .write => (write t).andThen fun u => .go (advance size u)

/-- A token has a meaning only inside a DECOMPRESS (R190). -/
def whenDecoding (s : State) (f : State → Flow) : Host.Outcome State Fault Refusal :=
  if s.decoding then (f s).outcome else .refused .tokenOutsideDecompress

/-- A back-reference in WRITE mode: the latches, the offset check (R199), the copy (R200). -/
def copyReference (n off : Nat) (s : State) : Flow :=
  let t := { s with mlen := n, moff := off }
  if off > t.wp then .ended (raise .ecorrupt t) else copyBack n t

/-- The common shape of REFS and REFL (R197, R198). -/
def runReference (n off size : Nat) (s : State) : Host.Outcome State Fault Refusal :=
  whenDecoding s (runToken (refControl n off) n size (copyReference n off))

/-- LIT (R195, R232). -/
def execLit (data : List Byte) (s : State) : Host.Outcome State Fault Refusal :=
  whenDecoding s (runToken (encLit data.length) data.length (1 + data.length) (emit data))

/-- REFS with `L = 1`, length 3 (R197, R232). -/
def execRefs3 (off : Nat) (s : State) : Host.Outcome State Fault Refusal := runReference 3 off 2 s

/-- REFS with `L = 2`, length 4 (R197, R232). -/
def execRefs4 (off : Nat) (s : State) : Host.Outcome State Fault Refusal := runReference 4 off 2 s

/-- REFS with `L = 3`, length 5 (R197, R232). -/
def execRefs5 (off : Nat) (s : State) : Host.Outcome State Fault Refusal := runReference 5 off 2 s

/-- REFS with `L = 4`, length 6 (R197, R232). -/
def execRefs6 (off : Nat) (s : State) : Host.Outcome State Fault Refusal := runReference 6 off 2 s

/-- REFS with `L = 5`, length 7 (R197, R232). -/
def execRefs7 (off : Nat) (s : State) : Host.Outcome State Fault Refusal := runReference 7 off 2 s

/-- REFS with `L = 6`, length 8 (R197, R232). -/
def execRefs8 (off : Nat) (s : State) : Host.Outcome State Fault Refusal := runReference 8 off 2 s

/-- REFL, length 9 to 264 (R198, R232). -/
def execRefl (len off : Nat) (s : State) : Host.Outcome State Fault Refusal := runReference len off 3 s

/-- The meaning of a token, for the loop of DECOMPRESS (R190); a command is no token. -/
def execToken (i : Instr) (s : State) : Host.Outcome State Fault Refusal :=
  match i with
  | .lit data => execLit data s
  | .refs3 off => execRefs3 off s
  | .refs4 off => execRefs4 off s
  | .refs5 off => execRefs5 off s
  | .refs6 off => execRefs6 off s
  | .refs7 off => execRefs7 off s
  | .refs8 off => execRefs8 off s
  | .refl len off => execRefl len off s
  | .compress => .refused .startWhileBusy
  | .decompress => .refused .startWhileBusy

end Sys2Proof.Machine
end

