-- ==== Sys2Proof/Machine/Decoder.lean ====
section
/-! DEFINITION. DECOMPRESS: the front end (R121), one turn of the decoder's main loop (R190, R191) and its two ends
(R202, R238). -/

namespace Sys2Proof.Machine

open Sys2Proof

/-- The end of the stream: `finish OK(WP)` in WRITE mode (R202), ESIZE with the length in COUNT mode (R238). -/
def decoderEnd (s : State) : State :=
  match s.mode with
  | .write => finish s.wp s
  | .count => raise .esize s

/-- A token that runs past the end of the input region: ECORRUPT, `CB` latched and nothing else of it (R193, R233). -/
def truncatedToken (s : State) : State := raise .ecorrupt { s with cb := s.mem.read (s.op.inBase + s.ip) }

/-- DECOMPRESS with any parameters: issued when no command runs; while it runs, one turn of its loop. -/
def execDecompressWith (C : Config) (s : State) : Host.Outcome State Fault Refusal :=
  match s.phase with
  | .idle => issue C .decompress s
  | .done => issue C .decompress s
  | .busy =>
    match s.op.cmd with
    | .compress => .refused .startWhileBusy
    | .decompress =>
      if s.op.inLen.toNat ≤ s.ip then .next (decoderEnd s)
      else
        match fetchToken s with
        | some i => execToken i s
        | none => .next (truncatedToken s)

/-- DECOMPRESS (R121). -/
def execDecompress (s : State) : Host.Outcome State Fault Refusal := execDecompressWith hardware s

end Sys2Proof.Machine
end

