-- ==== Sys2Proof/Machine/Encoder.lean ====
section
/-! DEFINITION. COMPRESS: the front end (R120) and one turn of the encoder's main loop (R152 to R167). -/

namespace Sys2Proof.Machine

open Sys2Proof

/-- Literal flush (R163), with its capacity check (R162). -/
def flushLit (s : State) : Flow :=
  if s.ll = 0 then .go { s with ls := s.ip }
  else if s.op.outCap.toNat - s.wp < 1 + s.ll then .ended (raise .esize s)
  else
    (emitByte (encLit s.ll) { s with cb := encLit s.ll }).andThen fun t =>
      (copyIn s.ll s.ls t).andThen fun u => .go { u with ll := 0, ls := u.ip }

/-- Back-reference emission of `MLEN`, `MOFF` (R165), with its capacity check (R162). -/
def emitRef (s : State) : Flow :=
  if s.op.outCap.toNat - s.wp < refSize s.mlen then .ended (raise .esize s)
  else emit (encRef s.mlen s.moff) { s with cb := refControl s.mlen s.moff }

/-- The positions `p .. p+n-1` entered in `HT`, ascending, where 3 bytes remain (R167). -/
def enterAll (C : Config) : Nat → Nat → State → Flow
  | 0, _, s => .go s
  | n + 1, p, s =>
    if s.op.inLen.toNat - p ≥ 3 then
      match hashAt C s p with
      | .error f => .stop f
      | .ok h => enterAll C n (p + 1) { s with ht := setSlot s.ht h p }
    else enterAll C n (p + 1) s

/-- The table update for skipped positions (R167): by `HUPD` (R8). -/
def enterSkipped (C : Config) (s : State) : Flow :=
  match C.hupd with
  | .all => enterAll C (s.mlen - 1) (s.ip + 1) s
  | .start => .go s

/-- Match commit, with the candidate at `p` (R159, R160, R166). -/
def matchTurn (C : Config) (p : Nat) (s : State) : Flow :=
  match matchLength s p with
  | .error f => .stop f
  | .ok len =>
    (flushLit { s with mlen := len, moff := s.ip - p }).andThen fun t =>
      (emitRef t).andThen fun u =>
        (enterSkipped C u).andThen fun v => .go { v with ip := v.ip + v.mlen, ls := v.ip + v.mlen }

/-- Literal step (R161). -/
def literalTurn (s : State) : Flow :=
  if s.ll + 1 = litMax then flushLit { s with ll := s.ll + 1, ip := s.ip + 1 }
  else .go { s with ll := s.ll + 1, ip := s.ip + 1 }

/-- Lookup and update at the current position (R155 to R157): `CAND <- HT[h]; HT[h] <- IP`. -/
def probe (C : Config) (s : State) : Except Fault State :=
  match hashAt C s s.ip with
  | .error f => .error f
  | .ok h => .ok { s with cand := slot s.ht h, ht := setSlot s.ht h s.ip }

/-- One turn of the main loop (R152, R153), or its end (R164). -/
def encoderTurn (C : Config) (s : State) : Flow :=
  if s.ip < s.op.inLen.toNat then
    if s.op.inLen.toNat - s.ip ≥ 3 then
      match probe C s with
      | .error f => .stop f
      | .ok t =>
        match acceptCandidate t with
        | .error f => .stop f
        | .ok (some p) => matchTurn C p t
        | .ok none => literalTurn t
    else literalTurn s
  else (flushLit s).andThen fun t => .ended (finish t.wp t)

/-- COMPRESS with any parameters: issued when no command runs; while it runs, one turn of its loop. A second command
while another runs has no meaning (R299, U3). -/
def execCompressWith (C : Config) (s : State) : Host.Outcome State Fault Refusal :=
  match s.phase with
  | .idle => issue C .compress s
  | .done => issue C .compress s
  | .busy =>
    match s.op.cmd with
    | .compress => (encoderTurn C s).outcome
    | .decompress => .refused .startWhileBusy

/-- COMPRESS (R120). -/
def execCompress (s : State) : Host.Outcome State Fault Refusal := execCompressWith hardware s

end Sys2Proof.Machine
end

