-- ==== Sys2Proof/Machine/Dispatch.lean ====
section
/-! DEFINITION. One arm per instruction. -/

namespace Sys2Proof.Machine

open Sys2Proof

def exec (i : Instr) (s : State) : Host.Outcome State Fault Refusal :=
  match i with
  | .lit data => Sys2Proof.Machine.execLit data s
  | .refs3 off => Sys2Proof.Machine.execRefs3 off s
  | .refs4 off => Sys2Proof.Machine.execRefs4 off s
  | .refs5 off => Sys2Proof.Machine.execRefs5 off s
  | .refs6 off => Sys2Proof.Machine.execRefs6 off s
  | .refs7 off => Sys2Proof.Machine.execRefs7 off s
  | .refs8 off => Sys2Proof.Machine.execRefs8 off s
  | .refl len off => Sys2Proof.Machine.execRefl len off s
  | .compress => Sys2Proof.Machine.execCompress s
  | .decompress => Sys2Proof.Machine.execDecompress s

end Sys2Proof.Machine
end

