-- ==== Sys2Proof/Machine/Step.lean ====
section
/-! DEFINITION. One step of the engine, and the placing of one instruction where the next step finds it. -/

namespace Sys2Proof.Machine

open Sys2Proof

/-- One step: the next instruction runs (R153, R191: one scan iteration or one token); with no command issued the engine
does nothing (R290). A `START` pending while a command runs has no meaning (R299, U3). -/
def step (s : State) : Host.Outcome State Fault Refusal :=
  if s.phase = .busy ∧ s.start = true then .refused .startWhileBusy
  else
    match nextInstr s with
    | none => .next s
    | some i => exec i s

/-- `s` with the instruction of an opcode-table word where the next step finds it: a token's own bytes as the whole stream of a
running DECOMPRESS, a command in `CMD` with `START` written (log 15). -/
def State.withFetchWord (s : State) (nbits w : Nat) : State :=
  match unitOfTableWord nbits w with
  | .stream bytes => s.withStream (bytes.take (tokenSize (bytes.headD 0)))
  | .command bit => s.withCommand (commandOfBit bit)

end Sys2Proof.Machine
end

