-- ==== Sys2Proof/Machine/Params.lean ====
section
/-! DEFINITION. The same machine for every value of the open parameters (R6 to R10, U7, P8): `exec` and `step` are this
machine at the values of this hardware. -/

namespace Sys2Proof.Machine

open Sys2Proof

/-- An instruction of the machine with the parameters `C`; a token depends on none of them (P8). -/
def execWith (C : Config) (i : Instr) (s : State) : Host.Outcome State Fault Refusal :=
  match i with
  | .lit data => execLit data s
  | .refs3 off => execRefs3 off s
  | .refs4 off => execRefs4 off s
  | .refs5 off => execRefs5 off s
  | .refs6 off => execRefs6 off s
  | .refs7 off => execRefs7 off s
  | .refs8 off => execRefs8 off s
  | .refl len off => execRefl len off s
  | .compress => execCompressWith C s
  | .decompress => execDecompressWith C s

/-- One step of the machine with the parameters `C`. -/
def stepWith (C : Config) (s : State) : Host.Outcome State Fault Refusal :=
  if s.phase = .busy ∧ s.start = true then .refused .startWhileBusy
  else
    match nextInstr s with
    | none => .next s
    | some i => execWith C i s

/-- `k` steps of it, stopping at the first fault or refusal. -/
def runWith (C : Config) : Nat → State → Host.Outcome State Fault Refusal
  | 0, s => .next s
  | k + 1, s =>
    match stepWith C s with
    | .next t => runWith C k t
    | .fault f => .fault f
    | .refused r => .refused r

/-- Enough steps for any command on `n` input bytes: the issue, at most a turn for each byte, and the end (R302). -/
def stepBound (n : Nat) : Nat := n + 2

end Sys2Proof.Machine
end

