-- ==== Sys2Proof/Machine/HostPort.lean ====
section
/-! DEFINITION. What the outside world can do to the block: read and write its registers (R30 to R39), reset it (R290,
R291), and the software binding over these (R123). These are no instructions: `step` never calls them. -/

namespace Sys2Proof.Machine

open Sys2Proof

/-- The twelve registers (R30). -/
inductive Reg where
  | cmd | inPresent | inBase | inLen | outPresent | outBase | outCap | start | state | status | rlen | rlenWr
deriving DecidableEq, Repr

/-- The kinds of host access (R30). -/
inductive Access where
  | readWrite | writeOnly | readOnly
deriving DecidableEq, Repr

/-- The index of a register (R30). -/
def Reg.index : Reg → Nat
  | .cmd => 0
  | .inPresent => 1
  | .inBase => 2
  | .inLen => 3
  | .outPresent => 4
  | .outBase => 5
  | .outCap => 6
  | .start => 7
  | .state => 8
  | .status => 9
  | .rlen => 10
  | .rlenWr => 11

/-- The host's access to a register (R30, R39). -/
def Reg.access : Reg → Access
  | .cmd => .readWrite
  | .inPresent => .readWrite
  | .inBase => .readWrite
  | .inLen => .readWrite
  | .outPresent => .readWrite
  | .outBase => .readWrite
  | .outCap => .readWrite
  | .start => .writeOnly
  | .state => .readOnly
  | .status => .readOnly
  | .rlen => .readOnly
  | .rlenWr => .readOnly

/-- The width of a register in bits (R30); `none` is an address of unbounded width (R10). -/
def Reg.width (C : Config) : Reg → Option Nat
  | .cmd => some 1
  | .inPresent => some 1
  | .inBase => C.addrW
  | .inLen => some 32
  | .outPresent => some 1
  | .outBase => C.addrW
  | .outCap => some 32
  | .start => some 1
  | .state => some 2
  | .status => some 8
  | .rlen => some 32
  | .rlenWr => some 1

/-- The host sees a running command: `STATE` is BUSY, or `START` is written and not yet taken (R35). -/
def State.busyToHost (s : State) : Bool := decide (s.phase = .busy) || s.start

/-- The value of `STATE` (R30, R35). -/
def State.stateCode (s : State) : Nat :=
  if s.busyToHost then 1
  else
    match s.phase with
    | .idle => 0
    | .busy => 1
    | .done => 2

/-- The bit `b` as a number. -/
def bitValue (b : Bool) : Nat := if b then 1 else 0

/-- The low bit of a written value. -/
def lowBit (v : Nat) : Bool := decide (v % 2 = 1)

/-- A written address, in `ADDRW` bits (R10). -/
def addressValue (C : Config) (v : Nat) : Nat :=
  match C.addrW with
  | none => v
  | some w => v % 2 ^ w

/-- A host write. It is allowed while no command runs, to registers 0 to 7 (R39, R299); a register keeps the low bits of
the value, as many as it is wide (log 8). Writing 1 to `START` issues the command (R34); where its operands break R296 or
R297 the run has no meaning, and the write is refused (R301, U2, log 7). -/
def hostWrite (C : Config) (r : Reg) (v : Nat) (s : State) : Host.Outcome State Fault Refusal :=
  match r.access with
  | .readOnly => .refused .readOnlyRegister
  | .readWrite | .writeOnly =>
    if s.busyToHost then .refused .registerWriteWhileBusy
    else
      match r with
      | .cmd => .next { s with regs := { s.regs with cmd := commandOfBit (BitVec.ofNat 1 v) } }
      | .inPresent => .next { s with regs := { s.regs with inPresent := lowBit v } }
      | .inBase => .next { s with regs := { s.regs with inBase := addressValue C v } }
      | .inLen => .next { s with regs := { s.regs with inLen := BitVec.ofNat 32 v } }
      | .outPresent => .next { s with regs := { s.regs with outPresent := lowBit v } }
      | .outBase => .next { s with regs := { s.regs with outBase := addressValue C v } }
      | .outCap => .next { s with regs := { s.regs with outCap := BitVec.ofNat 32 v } }
      | .start =>
        if lowBit v then
          match brokenObligation C s.regs with
          | some f => .refused f
          | none => .next { s with start := true }
        else .next s
      | .state => .refused .readOnlyRegister
      | .status => .refused .readOnlyRegister
      | .rlen => .refused .readOnlyRegister
      | .rlenWr => .refused .readOnlyRegister

/-- A host read; `none` for `START`, which reads as nothing (R34). While a `START` is pending the response registers
read as the free values that its issue will leave in them (R124, U4). -/
def hostRead (r : Reg) (s : State) : Option Nat :=
  match r with
  | .cmd => some s.regs.cmd.bit.toNat
  | .inPresent => some (bitValue s.regs.inPresent)
  | .inBase => some s.regs.inBase
  | .inLen => some s.regs.inLen.toNat
  | .outPresent => some (bitValue s.regs.outPresent)
  | .outBase => some s.regs.outBase
  | .outCap => some s.regs.outCap.toNat
  | .start => none
  | .state => some s.stateCode
  | .status => some (if s.start then Config.freeStatus s.freeTick else s.status).toNat
  | .rlen => some (if s.start then Config.freeLen s.freeTick else s.rlen).toNat
  | .rlenWr => some (bitValue (if s.start then Config.freeBit s.freeTick else s.rlenWr))

/-- The memory after the output region that the operands name has become unspecified; with `OUT_PRESENT = 0` there is no
such region, and `OUT_BASE` is ignored (R33). -/
def forgetOutput (r : Operands) (stamp : Nat) (m : Memory) : Memory :=
  if r.outPresent then m.forget r.outBase r.outCap.toNat stamp else m

/-- The operands of the command that a reset abandons (R291): of the running one, or of one whose `START` is not yet
taken, since the host already reads BUSY (log 11). -/
def abandoned (s : State) : Option Operands :=
  match s.phase with
  | .busy => some s.op
  | .idle | .done => if s.start then some s.regs else none

/-- The memory after a reset at free-value counter `stamp`: that before it, but for the output region of an abandoned
command (R290, R291). A command that breaks R296 or R297 has no meaning, its reset neither (R301, U2, log 7). -/
def memoryAfterReset (C : Config) (command : Option Operands) (stamp : Nat) (m : Memory) : Except Refusal Memory :=
  match command with
  | none => .ok m
  | some r =>
    match brokenObligation C r with
    | some f => .error f
    | none => .ok (forgetOutput r stamp m)

/-- The reset event on a machine that has run: the state of reset, with memory kept (R42, R290); a running command is
abandoned (R291). The free-value counter goes on. A `START` pending beside a running command is outside the contract
(R299, R301, U3), as for `step`. -/
def resetEvent (C : Config) (s : State) : Host.Outcome State Fault Refusal :=
  if s.phase = .busy ∧ s.start = true then .refused .startWhileBusy
  else
    match memoryAfterReset C (abandoned s) s.freeTick s.mem with
    | .ok m => .next { State.reset with mem := m, freeTick := s.freeTick + 1 }
    | .error f => .refused f

/-! ## The software binding (R123) -/

/-- What the software call returns: the code, the length slot, and the machine after it. -/
structure CallResult where
  /-- `sext(STATUS)` (R36, R123) -/
  code : Int
  /-- the slot `olen` afterwards (R123, R257) -/
  olen : Len
  /-- the machine afterwards -/
  after : State
deriving DecidableEq, Repr

/-- The registers as the wrapper writes them: a null pointer is a `PRESENT` bit of 0, with base 0, and a pointer of
`2^ADDRW` or more leaves its low `ADDRW` bits, as any host write does.
DESIGN CHOICE (log 8, log 19): R123 says `IN_BASE <- ibuf` and gives neither case a value. -/
def callOperands (C : Config) (c : Cmd) (ibuf : Option Nat) (ilen : Len) (obuf : Option Nat) (olen : Len) : Operands :=
  { cmd := c, inPresent := ibuf.isSome, inBase := addressValue C (ibuf.getD 0), inLen := ilen
    outPresent := obuf.isSome, outBase := addressValue C (obuf.getD 0), outCap := olen }

/-- The wrapper of R123: write the registers, start, wait for DONE, return. `none` where the run has no meaning: the host
reads BUSY before the call, so that it may not write the registers (R299, R301), or the command is refused. -/
def softwareCall (C : Config) (c : Cmd) (ibuf : Option Nat) (ilen : Len) (obuf : Option Nat) (olen : Len) (s : State) :
    Option CallResult :=
  if s.busyToHost then none
  else
    match runWith C (stepBound ilen.toNat) { s with regs := callOperands C c ibuf ilen obuf olen, start := true } with
    | .next t => some { code := t.status.toInt, olen := if t.rlenWr then t.rlen else olen, after := t }
    | .fault _ => none
    | .refused _ => none

end Sys2Proof.Machine
end

