-- ==== Sys2Proof/Safety.lean ====
section
/-! DEFINITION. The words the claims are stated in: what a command may be issued on, when a run has ended, the invariant
of the engine (R22, R24, R25, R28, R36, R168), and a reference decoder on byte lists that knows nothing of the engine
(R102, R205). -/

namespace Sys2Proof.Machine

open Sys2Proof

/-! ## Regions -/

/-- The bytes `IN[0 .. IN_LEN-1]` (R61). -/
def inputOf (r : Operands) (m : Memory) : List Byte :=
  (List.range r.inLen.toNat).map fun k => m.read (r.inBase + k)

/-- The bytes `OUT[0 .. n-1]` (R63). -/
def outputOf (r : Operands) (m : Memory) (n : Nat) : List Byte :=
  (List.range n).map fun k => m.read (r.outBase + k)

/-- Every byte but the `len` bytes at `base` reads in `m'` as in `m`. -/
def unchangedOutside (base len : Nat) (m m' : Memory) : Prop :=
  ∀ a, a < base ∨ base + len ≤ a → m'.read a = m.read a

/-- Every byte reads in `m'` as in `m`. -/
def unchanged (m m' : Memory) : Prop := ∀ a, m'.read a = m.read a

/-- The regions share no address (R64, R297). -/
def Operands.Disjoint (r : Operands) : Prop :=
  r.inPresent = true → r.outPresent = true →
    ∀ i < r.inLen.toNat, ∀ j < r.outCap.toNat, r.inBase + i ≠ r.outBase + j

/-- No region that is present and not empty ends above `2^ADDRW` (R62, R296). -/
def Operands.NoWrap (C : Config) (r : Operands) : Prop :=
  ∀ w, C.addrW = some w →
    (r.inPresent = true → r.inLen ≠ 0#32 → r.inBase + r.inLen.toNat ≤ 2 ^ w) ∧
    (r.outPresent = true → r.outCap ≠ 0#32 → r.outBase + r.outCap.toNat ≤ 2 ^ w)

/-- The arguments of COMPRESS pass the check (R125). -/
def Operands.CompressArgs (r : Operands) : Prop :=
  r.inLen ≠ 0#32 → r.inPresent = true ∧ (r.outCap ≠ 0#32 → r.outPresent = true)

/-- The arguments of DECOMPRESS pass the check (R125). -/
def Operands.DecompressArgs (r : Operands) : Prop :=
  (r.inLen ≠ 0#32 → r.inPresent = true) ∧ (r.outCap ≠ 0#32 → r.outPresent = true)

/-- The input byte `IN[i]` as memory holds it. -/
def State.inByte (s : State) (i : Nat) : Byte := s.mem.read (s.op.inBase + i)

/-- The output byte `OUT[i]` as memory holds it. -/
def State.outByte (s : State) (i : Nat) : Byte := s.mem.read (s.op.outBase + i)

/-- The bytes stand in memory from address `base` up. -/
def holdsAt (m : Memory) (base : Nat) (bytes : List Byte) : Prop :=
  ∀ k (h : k < bytes.length), m.read (base + k) = bytes[k]

/-! ## The match finder's words -/

/-- The slot of the three bytes at position `q` (R155). -/
def State.hashOf (C : Config) (s : State) (q : Nat) : Nat := C.hash (s.inByte q) (s.inByte (q + 1)) (s.inByte (q + 2))

/-- The three bytes at `p` and at `q` are equal (R158). -/
def State.sameTriple (s : State) (p q : Nat) : Prop := ∀ k < 3, s.inByte (p + k) = s.inByte (q + k)

/-- Position `p` is the accepted candidate at `IP` (R155, R156, R158). -/
def State.Accepted (C : Config) (s : State) (p : Nat) : Prop :=
  s.ip + 3 ≤ s.op.inLen.toNat ∧ slot s.ht (s.hashOf C s.ip) = some p ∧ s.ip - p ≤ 8192 ∧ s.sameTriple p s.ip

/-- The token a flush of the pending literal run writes: none when the run is empty (R163). -/
def State.pendingToken (s : State) : List Byte :=
  if s.ll = 0 then [] else BitVec.ofNat 8 (s.ll - 1) :: s.inputBytes s.ls s.ll

/-! ## Commands -/

/-- A command is issued on operands that keep the host's obligations (R296, R297), whether or not they pass the argument
check. -/
structure Issued (C : Config) (s : State) : Prop where
  notBusy : s.phase ≠ .busy
  started : s.start = true
  noWrap : s.regs.NoWrap C
  disjoint : s.regs.Disjoint

/-- COMPRESS is issued, and its arguments pass the check. -/
structure ReadyCompress (C : Config) (s : State) : Prop where
  issued : Issued C s
  cmd : s.regs.cmd = .compress
  args : s.regs.CompressArgs

/-- DECOMPRESS is issued, and its arguments pass the check. -/
structure ReadyDecompress (C : Config) (s : State) : Prop where
  issued : Issued C s
  cmd : s.regs.cmd = .decompress
  args : s.regs.DecompressArgs

/-- The command issued at `s` ends, within the steps R302 allows, in `t`. -/
def Ends (C : Config) (s t : State) : Prop :=
  runWith C (stepBound s.regs.inLen.toNat) s = .next t ∧ t.phase = .done

/-- The response OK with the length `n` (R129). -/
def State.EndsOk (t : State) (n : Nat) : Prop := t.status = 0x00#8 ∧ t.rlenWr = true ∧ t.rlen.toNat = n

/-- The response ESIZE with the length `n` (R238). -/
def State.EndsShort (t : State) (n : Nat) : Prop := t.status = 0xFF#8 ∧ t.rlenWr = true ∧ t.rlen.toNat = n

/-- The response of a failure that stores no length (R257). -/
def State.EndsBad (t : State) (code : Byte) : Prop := t.status = code ∧ t.rlenWr = false

/-! ## The invariant of the engine -/

/-- What holds of a command between its steps. Only a busy engine's cursors and operands are constrained: they mean
nothing else (R20, R40). -/
structure State.RunInv (s : State) : Prop where
  /-- no `START` is pending while a command runs (R299) -/
  startTaken : s.phase = .busy → s.start = false
  /-- a running command has input, passed the argument check (R125), and has disjoint regions (R64) -/
  operands : s.phase = .busy → s.op.inLen ≠ 0#32 ∧ badArguments s.op = false ∧ s.op.Disjoint
  /-- `0 <= IP <= IN_LEN` (R22) -/
  cursor : s.phase = .busy → s.ip ≤ s.op.inLen.toNat
  /-- `WP` fits in `LENW` bits (R23, R236) -/
  wpWidth : s.phase = .busy → s.wp ≤ lenMax
  /-- `WP <= OUT_CAP` in COMPRESS and in WRITE mode (R24) -/
  wpCap : s.phase = .busy → s.op.cmd = .compress ∨ s.mode = .write → s.wp ≤ s.op.outCap.toNat
  /-- `LS + LL = IP` and `LL <= 31` in COMPRESS (R25, R168 a) -/
  literalRun : s.phase = .busy → s.op.cmd = .compress → s.ls + s.ll = s.ip ∧ s.ll ≤ 31
  /-- a slot holds a position below `IP` with three bytes from it on (R28 a, R168 d) -/
  table : s.phase = .busy → s.op.cmd = .compress → ∀ e ∈ s.ht, e.2 < s.ip ∧ e.2 + 3 ≤ s.op.inLen.toNat
  /-- the model's record of COUNT mode from the first token is set in COUNT mode of DECOMPRESS only -/
  countFirst : s.phase = .busy → s.countFirst = true → s.op.cmd = .decompress ∧ s.mode = .count

/-- The invariant of the machine. -/
structure State.Inv (s : State) : Prop where
  /-- memory keeps its canonical form -/
  memWf : s.mem.wf = true
  /-- the table's slots are listed once each, in rising order -/
  htRising : risingFrom 0 s.ht = true
  /-- the running command is in order -/
  run : s.RunInv
  /-- `STATUS` holds one of the four codes when a command has ended (R36) -/
  statusCode : s.phase = .done → s.status = 0x00#8 ∨ s.status = 0xFF#8 ∨ s.status = 0xFE#8 ∨ s.status = 0xFD#8

/-- Every slot of the table of a running COMPRESS holds a position whose three bytes hash to it (R28 b). -/
def State.TableInv (C : Config) (s : State) : Prop :=
  s.phase = .busy → s.op.cmd = .compress → ∀ e ∈ s.ht, s.hashOf C e.2 = e.1

/-- The output bytes written so far, `OUT[0 .. WP-1]`. -/
def State.outputSoFar (s : State) : List Byte := outputOf s.op s.mem s.wp

/-! ## The reference decoder (R205) -/

/-- `n` bytes appended, each the one `off` back from the end it is appended at (R200). -/
def copyList : Nat → Nat → List Byte → List Byte
  | 0, _, out => out
  | n + 1, off, out => copyList n off (out ++ [out.getD (out.length - off) 0])

/-- The output of a token after `out`; `none` for an offset that reaches before its start (R199). -/
def tokenOutput (out : List Byte) (i : Instr) : Option (List Byte) :=
  match i.backRef? with
  | some (n, off) => if off > out.length then none else some (copyList n off out)
  | none =>
    match i with
    | .lit data => some (out ++ data)
    | _ => none

/-- The output of tokens run from `out` on: `dec` of R205. -/
def runTokens (out : List Byte) : List Instr → Option (List Byte)
  | [] => some out
  | i :: rest =>
    match tokenOutput out i with
    | some out' => runTokens out' rest
    | none => none

/-- At most `fuel` tokens that make up the whole byte string; `none` where a token is incomplete (R102). -/
def parseTokens : Nat → List Byte → Option (List Instr)
  | _, [] => some []
  | 0, _ :: _ => none
  | fuel + 1, b :: bytes =>
    match decodeToken (b :: bytes) with
    | .ok (i, rest) => (parseTokens fuel rest).map (i :: ·)
    | .error _ => none

/-- The tokens of a stream (R90, R102). -/
def parse (bytes : List Byte) : Option (List Instr) := parseTokens bytes.length bytes

/-- The sum of `out` over tokens: `len` of R205, R231. -/
def totalOut (tokens : List Instr) : Nat := (tokens.map Instr.outSize).sum

/-- A bad offset stands in a token that lies wholly below output index `cap`, the tokens starting at index `pos` (R205). -/
def badOffsetBelow (cap : Nat) : Nat → List Instr → Bool
  | _, [] => false
  | pos, i :: rest =>
    if cap - pos < i.outSize then false
    else
      (match i.backRef? with
        | some (_, off) => decide (off > pos)
        | none => false) || badOffsetBelow cap (pos + i.outSize) rest

/-! ## The encoder against the reference decoder -/

/-- `OUT[0 .. WP-1]` is whole tokens that decode to exactly `IN[0 .. LS-1]`, in COMPRESS (R168 c). -/
def State.StreamInv (s : State) : Prop :=
  s.phase = .busy → s.op.cmd = .compress →
    ∃ tokens, parse s.outputSoFar = some tokens ∧ runTokens [] tokens = some ((inputOf s.op s.mem).take s.ls)

end Sys2Proof.Machine
end

