-- ==== Sys2Proof/Certificates/Slice0/Obligations.lean ====
section
/-! DEFINITION. The statements about the model, from the numbered rules of the spec. -/

open Sys2Proof Sys2Proof.Machine

/-! ## Encoding -/

/-- R106: parsing is the inverse of encoding, both ways, for LIT, the six REFS rows and REFL, with every operand at every
value its encoding admits, and with any bytes of the stream after the token. -/
def Obligations.TokenFormatIsBijection : Prop :=
  (∀ (i : Instr) (rest : List Byte), i.wellFormed = true → i.isToken = true →
    decodeToken (i.bytes ++ rest) = .ok (i, rest)) ∧
  (∀ (bytes rest : List Byte) (i : Instr), decodeToken bytes = .ok (i, rest) →
    i.wellFormed = true ∧ i.isToken = true ∧ i.bytes ++ rest = bytes)

/-- R101 with R92 to R97: each of the 256 control bytes selects a format, and the operands are assembled as the rules say:
`n = CB[4:0] + 1`; `len = CB[7:5] + 2`, or the length byte plus 9; `off = CB[4:0] * 256 + last byte + 1`. -/
def Obligations.EveryControlByteSelectsAFormat : Prop :=
  ∀ (cb : Byte),
    (cb.toNat < 0x20 → ∀ data rest : List Byte, data.length = cb.toNat + 1 →
      decodeToken (cb :: (data ++ rest)) = .ok (.lit data, rest)) ∧
    (0x20 ≤ cb.toNat → cb.toNat < 0xE0 → ∀ (b : Byte) (rest : List Byte),
      ∃ i, decodeToken (cb :: b :: rest) = .ok (i, rest) ∧
        i.backRef? = some (cb.toNat / 32 + 2, cb.toNat % 32 * 256 + b.toNat + 1) ∧ i.size = 2) ∧
    (0xE0 ≤ cb.toNat → ∀ (e b : Byte) (rest : List Byte),
      decodeToken (cb :: e :: b :: rest) = .ok (.refl (e.toNat + 9) (cb.toNat % 32 * 256 + b.toNat + 1), rest))

/-- R99 and R100: the encoded size follows from the control byte alone, fewer bytes are a truncated token, and every token
stands for 1 to 264 output bytes. -/
def Obligations.TokenSizesFollowFromTheControlByte : Prop :=
  ∀ (cb : Byte) (rest : List Byte),
    (rest.length + 1 < (if cb.toNat < 0x20 then cb.toNat + 2 else if cb.toNat < 0xE0 then 2 else 3) →
      decodeToken (cb :: rest) = .error .truncated) ∧
    (∀ (i : Instr) (after : List Byte), decodeToken (cb :: rest) = .ok (i, after) →
      i.size = (if cb.toNat < 0x20 then cb.toNat + 2 else if cb.toNat < 0xE0 then 2 else 3) ∧
      after = rest.drop (i.size - 1) ∧ 1 ≤ i.outSize ∧ i.outSize ≤ 264)

/-- R107: the one-bit register `CMD` selects COMPRESS by 0 and DECOMPRESS by 1, and encoding is the inverse. -/
def Obligations.CommandRegisterSelectsTheCommand : Prop :=
  decode (.command 0#1) = .ok (.compress, []) ∧ decode (.command 1#1) = .ok (.decompress, []) ∧
  encode .compress = .command 0#1 ∧ encode .decompress = .command 1#1

/-- Sanity: words written out from the formats of R92 to R94 and R107, one for each family. -/
def Obligations.SampleWordsDecode : Prop :=
  decodeToken [0x01#8, 0x61#8, 0x62#8] = .ok (.lit [0x61#8, 0x62#8], []) ∧
  decodeToken [0x21#8, 0x00#8] = .ok (.refs3 257, []) ∧
  decodeToken [0x80#8, 0x02#8, 0x7F#8] = .ok (.refs6 3, [0x7F#8]) ∧
  decodeToken [0xE0#8, 0x16#8, 0x00#8] = .ok (.refl 31 1, []) ∧
  decode (.command 1#1) = .ok (.decompress, [])

/-- R7: with `HLOG = 16` the default hash is `((b0*256 + b1) - (b1*256 + b2)) mod 65536`, and for every legal `HLOG` it
is a slot number, so that the parameters are legal (R6, R7). -/
def Obligations.DefaultHashIsTheRulesFormula : Prop :=
  (∀ b0 b1 b2 : Byte, (hardware.hash b0 b1 b2 : Int) =
    ((b0.toNat * 256 + b1.toNat : Int) - (b1.toNat * 256 + b2.toNat)) % 65536) ∧
  ∀ hlog, 1 ≤ hlog → hlog ≤ 24 → { hardware with hlog := hlog, hash := defaultHash hlog }.Legal

/-! ## One step -/

/-- R290: with no command running and `START` not written the engine does nothing; so after reset, where `STATE` is IDLE. -/
def Obligations.EngineWaitsForStart : Prop :=
  State.reset.phase = .idle ∧ State.reset.start = false ∧
  ∀ s : State, s.phase ≠ .busy → s.start = false → step s = .next s

/-- R34, R124, R153, R191, R192: a step runs the decoded instruction. While DECOMPRESS runs, that is the token the bytes
from `IP` to the end of the input decode to, and DECOMPRESS itself where they decode to none (the stream has ended, or is
truncated); while COMPRESS runs, COMPRESS; with `START` written and no command running, the command `CMD` selects. -/
def Obligations.StepRunsTheDecodedInstruction : Prop :=
  (∀ (s : State) (i : Instr) (rest : List Byte), s.phase = .busy → s.start = false → s.op.cmd = .decompress →
    decodeToken (s.inputBytes s.ip (s.op.inLen.toNat - s.ip)) = .ok (i, rest) → step s = exec i s) ∧
  (∀ (s : State) (e : DecodeError), s.phase = .busy → s.start = false → s.op.cmd = .decompress →
    decodeToken (s.inputBytes s.ip (s.op.inLen.toNat - s.ip)) = .error e → step s = exec .decompress s) ∧
  (∀ s : State, s.phase = .busy → s.start = false → s.op.cmd = .compress → step s = exec .compress s) ∧
  (∀ (s : State) (i : Instr), s.phase ≠ .busy → s.start = true → decode (.command s.regs.cmd.bit) = .ok (i, []) →
    step s = exec i s)

/-- The machine of `exec` and `step` is the parametric machine at the parameters of this hardware, run by run (U7). -/
def Obligations.HardwareIsOneOfTheParametricMachines : Prop :=
  ∀ (k : Nat) (s : State), Sys2Proof.core.run k s = runWith hardware k s

/-! ## Tokens -/

/-- R195: LIT in WRITE mode writes its bytes at `WP`, moves `WP` and `IP` past them, latches `CB`, and changes nothing else. -/
def Obligations.LitWritesItsBytes : Prop :=
  ∀ (data : List Byte) (s : State), s.phase = .busy → s.op.cmd = .decompress → s.mode = .write →
    data.length ≤ s.op.outCap.toNat - s.wp →
    ∃ t, exec (.lit data) s = .next t ∧
      t = { s with
        cb := BitVec.ofNat 8 (data.length - 1), mem := t.mem, wp := s.wp + data.length, ip := s.ip + (1 + data.length) } ∧
      holdsAt t.mem (s.op.outBase + s.wp) data ∧
      unchangedOutside (s.op.outBase + s.wp) data.length s.mem t.mem

/-- R197, R198, R200: a back-reference (REFS of length 3 to 8, REFL) in WRITE mode with `MOFF <= WP` writes at `WP` the
`MOFF` bytes before it, repeated to its length, moves `WP` by its length and `IP` by its size, latches `CB`, `MLEN` and
`MOFF`, and changes nothing else. -/
def Obligations.BackReferenceCopiesForward : Prop :=
  ∀ (i : Instr) (n off : Nat) (s : State), i.backRef? = some (n, off) → i.wellFormed = true →
    s.phase = .busy → s.op.cmd = .decompress → s.mode = .write →
    n ≤ s.op.outCap.toNat - s.wp → off ≤ s.wp →
    ∃ t, exec i s = .next t ∧
      t = { s with
        cb := i.bytes.headD 0#8, mlen := n, moff := off, mem := t.mem, wp := s.wp + n, ip := s.ip + i.size } ∧
      (∀ k < n, t.outByte (s.wp + k) = s.outByte (s.wp - off + k % off)) ∧
      unchangedOutside (s.op.outBase + s.wp) n s.mem t.mem

/-- R199, R252 b: a back-reference (REFS of length 3 to 8, REFL) in WRITE mode that fits and has `MOFF > WP` ends the
command with ECORRUPT, `RLEN_WR = 0`; outside the output region memory is unchanged, and nothing but the latches, the
response and the memory changes. -/
def Obligations.BadOffsetIsCorrupt : Prop :=
  ∀ (i : Instr) (n off : Nat) (s : State), i.backRef? = some (n, off) →
    s.phase = .busy → s.op.cmd = .decompress → s.mode = .write →
    n ≤ s.op.outCap.toNat - s.wp → s.wp < off →
    ∃ t, exec i s = .next t ∧
      t = { s with
        cb := i.bytes.headD 0#8, mlen := n, moff := off, phase := .done, status := 0xFE#8, rlenWr := false,
        rlen := t.rlen, mem := t.mem, freeTick := t.freeTick } ∧
      unchangedOutside s.op.outBase s.op.outCap.toNat s.mem t.mem

/-- R232, R235, R236, R237: in COUNT mode each token (LIT, REFS of length 3 to 8, REFL) adds its length to `WP`, saturating
at `2^32 - 1`, moves `IP` by its size and latches `CB`; no offset is checked and nothing else changes, no byte of memory. -/
def Obligations.CountModeOnlyAddsLengths : Prop :=
  ∀ (i : Instr) (s : State), i.isToken = true → s.phase = .busy → s.op.cmd = .decompress → s.mode = .count →
    exec i s = .next { s with
      cb := i.bytes.headD 0#8, wp := min (s.wp + i.outSize) 4294967295, ip := s.ip + i.size }

/-- R194, R230: in WRITE mode a token (LIT, REFS of length 3 to 8, REFL) that does not fit makes `MODE` COUNT and is
counted; nothing of it is written. (`countFirst` is the model's own record, log 9.) -/
def Obligations.TokenThatDoesNotFitEntersCountMode : Prop :=
  ∀ (i : Instr) (s : State), i.isToken = true → s.phase = .busy → s.op.cmd = .decompress → s.mode = .write →
    s.op.outCap.toNat - s.wp < i.outSize →
    exec i s = .next { s with
      cb := i.bytes.headD 0#8, mode := .count, countFirst := decide (s.ip = 0),
      wp := min (s.wp + i.outSize) 4294967295, ip := s.ip + i.size }

/-- R234: in COUNT mode a step depends on no byte of memory but the control byte and, for REFL, the length byte: with any
other memory that agrees on these the step is the same. -/
def Obligations.CountModeReadsOnlyControlAndLengthBytes : Prop :=
  ∀ (s : State) (m : Memory), s.phase = .busy → s.start = false → s.op.cmd = .decompress → s.mode = .count →
    s.ip < s.op.inLen.toNat → tokenSize (s.inByte s.ip) ≤ s.op.inLen.toNat - s.ip →
    m.read (s.op.inBase + s.ip) = s.inByte s.ip →
    (0xE0 ≤ (s.inByte s.ip).toNat → m.read (s.op.inBase + (s.ip + 1)) = s.inByte (s.ip + 1)) →
    ∃ t, step s = .next t ∧ t.mem = s.mem ∧ step { s with mem := m } = .next { t with mem := m }

/-- A token has a meaning only while DECOMPRESS runs: elsewhere its meaning refuses by name (R190; log 10). -/
def Obligations.TokenOutsideDecompressIsRefused : Prop :=
  ∀ (i : Instr) (s : State), i.isToken = true → ¬(s.phase = .busy ∧ s.op.cmd = .decompress) →
    exec i s = .refused .tokenOutsideDecompress

/-- R193, R233: a token that runs past the end of the input region ends the command with ECORRUPT, `RLEN_WR = 0`, in
either mode; nothing but `CB`, the response and the output region changes. -/
def Obligations.TruncatedTokenIsCorrupt : Prop :=
  ∀ s : State, s.phase = .busy → s.start = false → s.op.cmd = .decompress → s.ip < s.op.inLen.toNat →
    s.op.inLen.toNat - s.ip < tokenSize (s.inByte s.ip) →
    ∃ t, step s = .next t ∧ exec .decompress s = .next t ∧
      t = { s with
        cb := s.inByte s.ip, phase := .done, status := 0xFE#8, rlenWr := false,
        rlen := t.rlen, mem := t.mem, freeTick := t.freeTick } ∧
      unchangedOutside s.op.outBase s.op.outCap.toNat s.mem t.mem

/-- R202, R129: at the end of the stream in WRITE mode DECOMPRESS ends with OK and the number of bytes decoded; nothing
but the response changes. -/
def Obligations.DecompressEndsOk : Prop :=
  ∀ s : State, s.phase = .busy → s.op.cmd = .decompress → s.op.inLen.toNat ≤ s.ip → s.mode = .write →
    exec .decompress s = .next { s with
      phase := .done, status := 0x00#8, rlen := BitVec.ofNat 32 s.wp, rlenWr := true }

/-- R238, R257: at the end of the stream in COUNT mode DECOMPRESS ends with ESIZE and stores the needed length; outside the
output region memory is unchanged, and all of memory if COUNT mode was entered at the first token (R81). -/
def Obligations.DecompressEndsShort : Prop :=
  ∀ s : State, s.phase = .busy → s.op.cmd = .decompress → s.op.inLen.toNat ≤ s.ip → s.mode = .count →
    ∃ t, exec .decompress s = .next t ∧
      t = { s with
        phase := .done, status := 0xFF#8, rlen := BitVec.ofNat 32 s.wp, rlenWr := true,
        mem := t.mem, freeTick := t.freeTick } ∧
      unchangedOutside s.op.outBase s.op.outCap.toNat s.mem t.mem ∧
      (s.countFirst = true → t.mem = s.mem)

/-! ## The front end of the commands -/

/-- R124, R126, R128, R151: COMPRESS on present, disjoint regions and non-empty input samples registers 0 to 6, becomes
BUSY, clears the cursors, the literal run and every slot of `HT`; memory, the registers 0 to 6 and the latches are
unchanged, and the response registers hold values nothing is known of. -/
def Obligations.CompressIsIssued : Prop :=
  ∀ s : State, s.phase ≠ .busy → s.regs.Disjoint → s.regs.CompressArgs → s.regs.inLen ≠ 0#32 →
    ∃ t, exec .compress s = .next t ∧
      t = { s with
        start := false, phase := .busy, op := { s.regs with cmd := .compress },
        ip := 0, wp := 0, ls := 0, ll := 0, mode := .write, countFirst := false, ht := [],
        status := t.status, rlen := t.rlen, rlenWr := t.rlenWr, freeTick := t.freeTick }

/-- R124, R126, R128: DECOMPRESS likewise; it does not touch `HT` (R27, R208). -/
def Obligations.DecompressIsIssued : Prop :=
  ∀ s : State, s.phase ≠ .busy → s.regs.Disjoint → s.regs.DecompressArgs → s.regs.inLen ≠ 0#32 →
    ∃ t, exec .decompress s = .next t ∧
      t = { s with
        start := false, phase := .busy, op := { s.regs with cmd := .decompress },
        ip := 0, wp := 0, ls := 0, ll := 0, mode := .write, countFirst := false,
        status := t.status, rlen := t.rlen, rlenWr := t.rlenWr, freeTick := t.freeTick }

/-- R125, R253, R260 item 1: a command whose required region is absent ends at once with EARGS, `RLEN_WR = 0`, and makes
no memory access; nothing but the sample and the response changes. So COMPRESS of 5 bytes at a null input, and DECOMPRESS
of 5 bytes to a null output of non-zero capacity. -/
def Obligations.MissingRegionIsEargs : Prop :=
  ∀ s : State, s.phase ≠ .busy → s.regs.Disjoint →
    (¬s.regs.CompressArgs → ∃ t, exec .compress s = .next t ∧
      t = { s with
        start := false, op := { s.regs with cmd := .compress }, phase := .done, status := 0xFD#8, rlenWr := false,
        rlen := t.rlen, freeTick := t.freeTick }) ∧
    (¬s.regs.DecompressArgs → ∃ t, exec .decompress s = .next t ∧
      t = { s with
        start := false, op := { s.regs with cmd := .decompress }, phase := .done, status := 0xFD#8, rlenWr := false,
        rlen := t.rlen, freeTick := t.freeTick })

/-- R127, R260 item 2: with no input both commands end at once with `OK(0)`, whatever the capacity, and no memory access;
nothing but the sample and the response changes. -/
def Obligations.EmptyInputSucceeds : Prop :=
  ∀ s : State, s.phase ≠ .busy → s.regs.inLen = 0#32 →
    (∃ t, exec .compress s = .next t ∧
      t = { s with
        start := false, op := { s.regs with cmd := .compress }, phase := .done, status := 0x00#8, rlenWr := true,
        rlen := 0#32, freeTick := t.freeTick }) ∧
    (s.regs.DecompressArgs → ∃ t, exec .decompress s = .next t ∧
      t = { s with
        start := false, op := { s.regs with cmd := .decompress }, phase := .done, status := 0x00#8, rlenWr := true,
        rlen := 0#32, freeTick := t.freeTick })

/-- R297, R299, R301 (U2, U3: refuse): a command on regions that share an address, and a command issued while the other
runs, are refused by name. -/
def Obligations.BrokenObligationsAreRefused : Prop :=
  (∀ s : State, s.phase ≠ .busy → ¬s.regs.Disjoint →
    exec .compress s = .refused .regionsOverlap ∧ exec .decompress s = .refused .regionsOverlap) ∧
  (∀ s : State, s.phase = .busy → s.op.cmd = .decompress → exec .compress s = .refused .startWhileBusy) ∧
  (∀ s : State, s.phase = .busy → s.op.cmd = .compress → exec .decompress s = .refused .startWhileBusy) ∧
  (∀ s : State, s.phase = .busy → s.start = true → step s = .refused .startWhileBusy)

/-! ## COMPRESS, turn by turn -/

/-- R155 to R158, R161: with fewer than 3 bytes left, or no accepted candidate, COMPRESS passes the byte at `IP` into a
literal run shorter than 31; where 3 bytes are left the slot of the three bytes becomes `IP` whether or not a candidate
stood there. Nothing else changes; no byte of memory does. -/
def Obligations.CompressPassesALiteral : Prop :=
  ∀ s : State, s.RunInv → s.phase = .busy → s.op.cmd = .compress → s.ip < s.op.inLen.toNat →
    (∀ p, ¬s.Accepted hardware p) → s.ll < 31 →
    ∃ t, exec .compress s = .next t ∧
      t = { s with ip := s.ip + 1, ll := s.ll + 1, cand := t.cand, ht := t.ht } ∧
      (s.ip + 3 ≤ s.op.inLen.toNat → t.cand = slot s.ht (s.hashOf hardware s.ip) ∧
        ∀ j, slot t.ht j = if j = s.hashOf hardware s.ip then some s.ip else slot s.ht j) ∧
      (s.op.inLen.toNat < s.ip + 3 → t.cand = s.cand ∧ t.ht = s.ht)

/-- R161 to R163: the literal that makes the run 32 bytes long is passed and the run is flushed: the control byte `0x1F`
and the 32 bytes are written if 33 bytes are left in the output region; if not, the command ends with ESIZE, `RLEN_WR = 0`.
R155 to R157: `CAND` and `HT` are looked up and updated as in any other turn. -/
def Obligations.CompressFlushesAFullRun : Prop :=
  ∀ s : State, s.RunInv → s.phase = .busy → s.op.cmd = .compress → s.ip < s.op.inLen.toNat →
    (∀ p, ¬s.Accepted hardware p) → s.ll = 31 →
    (s.wp + 33 ≤ s.op.outCap.toNat → ∃ t, exec .compress s = .next t ∧
      t = { s with
        ip := s.ip + 1, ll := 0, ls := s.ip + 1, wp := s.wp + 33, cb := 0x1F#8, mem := t.mem,
        cand := t.cand, ht := t.ht } ∧
      (s.ip + 3 ≤ s.op.inLen.toNat → t.cand = slot s.ht (s.hashOf hardware s.ip) ∧
        ∀ j, slot t.ht j = if j = s.hashOf hardware s.ip then some s.ip else slot s.ht j) ∧
      (s.op.inLen.toNat < s.ip + 3 → t.cand = s.cand ∧ t.ht = s.ht) ∧
      holdsAt t.mem (s.op.outBase + s.wp) (0x1F#8 :: s.inputBytes s.ls 32) ∧
      unchangedOutside (s.op.outBase + s.wp) 33 s.mem t.mem) ∧
    (s.op.outCap.toNat < s.wp + 33 → ∃ t, exec .compress s = .next t ∧ t.phase = .done ∧ t.EndsBad 0xFF#8 ∧
      unchangedOutside s.op.outBase s.op.outCap.toNat s.mem t.mem)

/-- R158 to R160, R162 to R167, for every value of the open parameters: with an accepted candidate `p` COMPRESS finds the
longest match up to 264 bytes and the end of the input, writes the pending literal run and the back-reference (the shorter
form that holds the length), and moves `IP` and `LS` past the match; if the two tokens do not fit, it ends with ESIZE,
`RLEN_WR = 0`. In `HT` it enters, with `HUPD = all`, every position of the match with 3 bytes left, in ascending order, and
with `HUPD = start` the match start alone (R8). `exec` is the case of this hardware. -/
def Obligations.CompressCommitsAMatch : Prop :=
  (∀ s : State, exec .compress s = execWith hardware .compress s) ∧
  ∀ (C : Config) (s : State) (p : Nat), s.RunInv → s.phase = .busy → s.op.cmd = .compress → s.Accepted C p →
    ∃ len, 3 ≤ len ∧ len ≤ 264 ∧ s.ip + len ≤ s.op.inLen.toNat ∧
      (∀ k < len, s.inByte (p + k) = s.inByte (s.ip + k)) ∧
      (len = 264 ∨ s.ip + len = s.op.inLen.toNat ∨ s.inByte (p + len) ≠ s.inByte (s.ip + len)) ∧
      (s.wp + (s.pendingToken ++ encRef len (s.ip - p)).length ≤ s.op.outCap.toNat →
        ∃ t, execWith C .compress s = .next t ∧
        t = { s with
          cb := (encRef len (s.ip - p)).headD 0#8, mlen := len, moff := s.ip - p, cand := some p, ht := t.ht, mem := t.mem,
          wp := s.wp + (s.pendingToken ++ encRef len (s.ip - p)).length,
          ip := s.ip + len, ls := s.ip + len, ll := 0 } ∧
        holdsAt t.mem (s.op.outBase + s.wp) (s.pendingToken ++ encRef len (s.ip - p)) ∧
        unchangedOutside (s.op.outBase + s.wp) (s.pendingToken ++ encRef len (s.ip - p)).length s.mem t.mem ∧
        (C.hupd = .all →
          (∀ q, s.ip ≤ q → q < s.ip + len → q + 3 ≤ s.op.inLen.toNat →
            (∀ q', q < q' → q' < s.ip + len → q' + 3 ≤ s.op.inLen.toNat → s.hashOf C q' ≠ s.hashOf C q) →
            slot t.ht (s.hashOf C q) = some q) ∧
          (∀ j, (∀ q, s.ip ≤ q → q < s.ip + len → q + 3 ≤ s.op.inLen.toNat → s.hashOf C q ≠ j) →
            slot t.ht j = slot s.ht j)) ∧
        (C.hupd = .start →
          ∀ j, slot t.ht j = if j = s.hashOf C s.ip then some s.ip else slot s.ht j)) ∧
      (s.op.outCap.toNat < s.wp + (s.pendingToken ++ encRef len (s.ip - p)).length →
        ∃ t, execWith C .compress s = .next t ∧ t.phase = .done ∧ t.EndsBad 0xFF#8 ∧
          unchangedOutside s.op.outBase s.op.outCap.toNat s.mem t.mem)

/-- R164, R129: at the end of the input COMPRESS flushes the pending run and ends with OK and the bytes written; if the run
does not fit it ends with ESIZE, `RLEN_WR = 0`. -/
def Obligations.CompressEndsTheStream : Prop :=
  ∀ s : State, s.RunInv → s.phase = .busy → s.op.cmd = .compress → s.ip = s.op.inLen.toNat →
    (s.wp + s.pendingToken.length ≤ s.op.outCap.toNat → ∃ t, exec .compress s = .next t ∧
      t = { s with
        phase := .done, status := 0x00#8, rlenWr := true, rlen := BitVec.ofNat 32 (s.wp + s.pendingToken.length),
        wp := s.wp + s.pendingToken.length, ll := 0, ls := s.ip, cb := s.pendingToken.headD s.cb, mem := t.mem } ∧
      holdsAt t.mem (s.op.outBase + s.wp) s.pendingToken ∧
      unchangedOutside (s.op.outBase + s.wp) s.pendingToken.length s.mem t.mem) ∧
    (s.op.outCap.toNat < s.wp + s.pendingToken.length → ∃ t, exec .compress s = .next t ∧ t.phase = .done ∧
      t.EndsBad 0xFF#8 ∧ unchangedOutside s.op.outBase s.op.outCap.toNat s.mem t.mem)

/-! ## Invariants and whole-machine rules -/

/-- The invariant of the engine holds at reset. -/
def Obligations.InvariantHoldsAtReset : Prop := State.reset.Inv

/-- R22, R24, R25, R28 a, R36, R168 a, b, d: every step keeps the invariant of the engine, for every value of the open
parameters. -/
def Obligations.EveryStepKeepsTheInvariant : Prop :=
  (∀ s t : State, s.Inv → step s = .next t → t.Inv) ∧
  (∀ (C : Config) (s t : State), s.Inv → stepWith C s = .next t → t.Inv) ∧
  (∀ (C : Config) (s t : State), s.RunInv → stepWith C s = .next t → t.RunInv)

/-- R28 a, b: in COMPRESS a slot holds a position below `IP`, with three bytes from it on that hash to that slot. -/
def Obligations.TableSlotsHoldTheirOwnHash : Prop :=
  ∀ (C : Config) (s t : State), s.RunInv → s.TableInv C → stepWith C s = .next t →
    t.TableInv C ∧
    (t.phase = .busy → t.op.cmd = .compress → ∀ h p, slot t.ht h = some p →
      p < t.ip ∧ p + 3 ≤ t.op.inLen.toNat ∧ t.hashOf C p = h)

/-- R65: no step accesses a byte out of the bounds of its region, whatever the regions hold, for any value of the open
parameters: a state that keeps the invariant never steps to a fault, which is what the checked accesses raise; and the
fetch, which reads a whole token at once, takes a token only where all its bytes are input (R193). -/
def Obligations.NoAccessIsOutOfBounds : Prop :=
  (∀ (C : Config) (s : State) (f : Fault), s.RunInv → stepWith C s ≠ .fault f) ∧
  ∀ (s : State) (i : Instr), fetchToken s = some i → s.ip + i.size ≤ s.op.inLen.toNat

/-- R65, R68, R82: a step depends on no byte but those it may read: the input bytes below `IN_LEN` of a running command,
and the output bytes below `WP` of a DECOMPRESS in WRITE mode. With any other memory that agrees on these the step is the
same in every field but memory, and memory agrees after it wherever it did before. -/
def Obligations.StepsReadOnlyTheirRegions : Prop :=
  ∀ (C : Config) (s t : State) (m : Memory), s.RunInv → stepWith C s = .next t →
    (s.phase = .busy → ∀ k < s.op.inLen.toNat, m.read (s.op.inBase + k) = s.inByte k) →
    (s.phase = .busy → s.op.cmd = .decompress → s.mode = .write →
      ∀ k < s.wp, m.read (s.op.outBase + k) = s.outByte k) →
    ∃ m', stepWith C { s with mem := m } = .next { t with mem := m' } ∧
      ∀ a, m.read a = s.mem.read a → m'.read a = t.mem.read a

/-- R296, R297, R301 (U2: refuse): a step is refused only where the host has issued a command whose regions wrap or share
an address, and there it is, even where the argument check would end the command with EARGS: that the refusal comes before
the argument check is the model's choice (log 7), which R301 and U2 leave open. -/
def Obligations.OnlyBrokenObligationsAreRefused : Prop :=
  ∀ (C : Config) (s : State), s.RunInv →
    ((∃ r, stepWith C s = .refused r) ↔
      s.phase ≠ .busy ∧ s.start = true ∧ ¬(s.regs.NoWrap C ∧ s.regs.Disjoint))

/-- R35: from BUSY a step leads to BUSY or DONE, never to IDLE; from IDLE or DONE it leads on only by `START`, and never
back to IDLE from DONE; a step of a running command never leaves COUNT mode (R29, R230). -/
def Obligations.StateAndModeOnlyMoveForward : Prop :=
  ∀ (C : Config) (s t : State), stepWith C s = .next t →
    (s.phase = .busy → t.phase ≠ .idle) ∧
    (s.phase ≠ .busy → s.start = true → t.phase ≠ .idle) ∧
    (s.phase ≠ .busy → s.start = false → t = s) ∧
    (s.phase = .busy → s.mode = .count → t.mode = .count)

/-- R39, R40, R27, R208: the engine never writes registers 0 to 6; only COMPRESS touches `HT`; a running command keeps its
sampled operands. -/
def Obligations.EngineKeepsRegistersAndTable : Prop :=
  ∀ (C : Config) (s t : State), stepWith C s = .next t →
    t.regs = s.regs ∧
    (s.phase = .busy → t.op = s.op) ∧
    (s.phase = .busy → s.op.cmd = .decompress → t.ht = s.ht) ∧
    (s.phase ≠ .busy → s.regs.cmd = .decompress → t.ht = s.ht)

/-- R250, R254, R257: how a command can end. COMPRESS: OK with a length, ESIZE or EARGS without. DECOMPRESS: OK or ESIZE
with a length, ECORRUPT or EARGS without. -/
def Obligations.ResponseTable : Prop :=
  ∀ (C : Config) (s t : State), s.phase = .busy ∨ s.start = true → stepWith C s = .next t → t.phase = .done →
    (t.op.cmd = .compress →
      (t.status = 0x00#8 ∧ t.rlenWr = true) ∨ (t.status = 0xFF#8 ∧ t.rlenWr = false) ∨
      (t.status = 0xFD#8 ∧ t.rlenWr = false)) ∧
    (t.op.cmd = .decompress →
      (t.status = 0x00#8 ∧ t.rlenWr = true) ∨ (t.status = 0xFF#8 ∧ t.rlenWr = true) ∨
      (t.status = 0xFE#8 ∧ t.rlenWr = false) ∨ (t.status = 0xFD#8 ∧ t.rlenWr = false))

/-- R168 c: every step of COMPRESS keeps the output a sequence of whole tokens that decodes to the input bytes emitted so
far, and when COMPRESS ends with OK the output decodes to the input. -/
def Obligations.EncoderOutputAlwaysDecodes : Prop :=
  ∀ (C : Config) (s t : State), s.RunInv → s.StreamInv → stepWith C s = .next t →
    t.StreamInv ∧
    (s.phase = .busy → s.op.cmd = .compress → t.phase = .done → t.status = 0x00#8 →
      ∃ tokens, parse (outputOf s.op t.mem t.wp) = some tokens ∧
        runTokens [] tokens = some (inputOf s.op s.mem))

/-! ## Whole commands -/

/-- R302: every command reaches DONE, within one step for the issue, one for each input byte at most, and one for the end;
and a running command within one for each input byte left and one for the end. -/
def Obligations.EveryCommandReachesDone : Prop :=
  (∀ (C : Config) (s : State), Issued C s → ∃ t, Ends C s t) ∧
  (∀ (C : Config) (s : State), s.RunInv → s.phase = .busy →
    ∃ t, runWith C (s.op.inLen.toNat - s.ip + 1) s = .next t ∧ t.phase = .done)

/-- R79: the input region is unchanged by every command, successful or not. -/
def Obligations.InputRegionIsNeverChanged : Prop :=
  ∀ (C : Config) (s t : State), Issued C s → Ends C s t → inputOf s.regs t.mem = inputOf s.regs s.mem

/-- R65 d, R80, R81: every byte outside the output region is unchanged by every command; after OK so is every output byte
from the reported length on; after EARGS so is all of memory. -/
def Obligations.OnlyTheOutputRegionChanges : Prop :=
  ∀ (C : Config) (s t : State), Issued C s → Ends C s t →
    unchangedOutside s.regs.outBase s.regs.outCap.toNat s.mem t.mem ∧
    (t.status = 0x00#8 → unchangedOutside s.regs.outBase t.rlen.toNat s.mem t.mem) ∧
    (t.status = 0xFD#8 → unchanged s.mem t.mem)

/-- R63, R81, R122: a DECOMPRESS whose first token does not fit, so every size query, leaves all of memory unchanged. -/
def Obligations.SizeQueryLeavesMemory : Prop :=
  ∀ (C : Config) (s t : State) (i : Instr) (rest : List Byte), ReadyDecompress C s →
    decodeToken (inputOf s.regs s.mem) = .ok (i, rest) → s.regs.outCap.toNat < i.outSize →
    Ends C s t → unchanged s.mem t.mem

/-- R205: DECOMPRESS computes the reference decoder, for every stream, capacity and parameter: ECORRUPT for a truncated
stream or a bad offset met before the capacity is exceeded; else OK with the decoded bytes where they fit; else ESIZE with
the decoded length of the whole stream, saturated at `2^32 - 1` (R236). -/
def Obligations.DecompressComputesTheReferenceDecoder : Prop :=
  ∀ (C : Config) (s : State), ReadyDecompress C s → ∃ t, Ends C s t ∧
    match parse (inputOf s.regs s.mem) with
    | none => t.EndsBad 0xFE#8
    | some tokens =>
      if badOffsetBelow s.regs.outCap.toNat 0 tokens = true then t.EndsBad 0xFE#8
      else if totalOut tokens ≤ s.regs.outCap.toNat then
        t.EndsOk (totalOut tokens) ∧ runTokens [] tokens = some (outputOf s.regs t.mem (totalOut tokens))
      else t.EndsShort (min (totalOut tokens) 4294967295)

/-- R206: for a stream that decodes to `d` bytes, DECOMPRESS with a capacity of at least `d` gives OK with them, and with a
smaller one ESIZE with `d` (saturated, R236). -/
def Obligations.DecompressCapacityBoundary : Prop :=
  ∀ (C : Config) (s : State) (tokens : List Instr) (out : List Byte), ReadyDecompress C s →
    parse (inputOf s.regs s.mem) = some tokens → runTokens [] tokens = some out →
    ∃ t, Ends C s t ∧
      (out.length ≤ s.regs.outCap.toNat → t.EndsOk out.length ∧ outputOf s.regs t.mem out.length = out) ∧
      (s.regs.outCap.toNat < out.length → t.EndsShort (min out.length 4294967295))

/-- R231, R233, R235: a size query (`OUT_CAP = 0`, non-empty stream) gives ESIZE with the sum of the tokens' lengths,
whatever their offsets, or ECORRUPT if the stream is truncated. -/
def Obligations.SizeQueryMeasures : Prop :=
  ∀ (C : Config) (s : State), ReadyDecompress C s → s.regs.inLen ≠ 0#32 → s.regs.outCap = 0#32 →
    ∃ t, Ends C s t ∧
      match parse (inputOf s.regs s.mem) with
      | none => t.EndsBad 0xFE#8
      | some tokens => t.EndsShort (min (totalOut tokens) 4294967295)

/-- R207: a valid stream cut inside a token gives ECORRUPT; cut on a token boundary it gives, where the capacity suffices,
OK with a prefix of the original output. -/
def Obligations.TruncationIsDetectedInsideTokens : Prop :=
  ∀ (C : Config) (s : State) (tokens : List Instr) (out : List Byte) (m : Nat),
    (∀ i ∈ tokens, i.wellFormed = true ∧ i.isToken = true) → runTokens [] tokens = some out →
    ReadyDecompress C s → inputOf s.regs s.mem = (tokens.flatMap Instr.bytes).take m →
    ∃ t, Ends C s t ∧
      (∀ j, (tokens.take j).flatMap Instr.bytes = inputOf s.regs s.mem →
        totalOut (tokens.take j) ≤ s.regs.outCap.toNat →
        t.EndsOk (totalOut (tokens.take j)) ∧
          outputOf s.regs t.mem (totalOut (tokens.take j)) = out.take (totalOut (tokens.take j))) ∧
      ((∀ j, (tokens.take j).flatMap Instr.bytes ≠ inputOf s.regs s.mem) → t.EndsBad 0xFE#8)

/-- R238, R240: after ESIZE of DECOMPRESS with a length `r < 2^32 - 1`, `r` exceeds the capacity, and the same stream with
a capacity of at least `r` gives OK with `r`, or ECORRUPT. -/
def Obligations.RetryAfterEsizeDoesNotFailOnSize : Prop :=
  ∀ (C : Config) (s t u : State) (r : Nat), ReadyDecompress C s → Ends C s t → t.EndsShort r → r < 4294967295 →
    s.regs.outCap.toNat < r ∧
    (ReadyDecompress C u → inputOf u.regs u.mem = inputOf s.regs s.mem → r ≤ u.regs.outCap.toNat →
      ∃ v, Ends C u v ∧ (v.EndsOk r ∨ v.EndsBad 0xFE#8))

/-- R176: if COMPRESS ends with OK and `c` bytes, DECOMPRESS of those bytes with a capacity of at least `IN_LEN` ends with
OK and gives the input back, for every value of the open parameters of either engine. -/
def Obligations.RoundTripGivesTheInputBack : Prop :=
  ∀ (C D : Config) (s t u : State) (c : Nat), ReadyCompress C s → Ends C s t → t.EndsOk c →
    ReadyDecompress D u → inputOf u.regs u.mem = outputOf s.regs t.mem c →
    s.regs.inLen.toNat ≤ u.regs.outCap.toNat →
    ∃ v, Ends D u v ∧ v.EndsOk s.regs.inLen.toNat ∧
      outputOf u.regs v.mem s.regs.inLen.toNat = inputOf s.regs s.mem

/-- R239: the size query of COMPRESS's stream gives ESIZE with exactly the input's length, or `OK(0)` for empty input. -/
def Obligations.SizeQueryOfCompressedGivesTheLength : Prop :=
  ∀ (C D : Config) (s t u : State) (c : Nat), ReadyCompress C s → Ends C s t → t.EndsOk c →
    ReadyDecompress D u → inputOf u.regs u.mem = outputOf s.regs t.mem c → u.regs.outCap = 0#32 →
    ∃ v, Ends D u v ∧
      (s.regs.inLen ≠ 0#32 → v.EndsShort s.regs.inLen.toNat) ∧ (s.regs.inLen = 0#32 → v.EndsOk 0)

/-- R177: for each input there is one stream, that does not depend on the capacity: COMPRESS of that input ends with OK,
the stream's length and the stream where it fits, and with ESIZE at every smaller capacity. -/
def Obligations.CompressCapacityBoundary : Prop :=
  ∀ (C : Config) (input : List Byte), ∃ stream : List Byte,
    ∀ s : State, ReadyCompress C s → inputOf s.regs s.mem = input →
      ∃ t, Ends C s t ∧
        (stream.length ≤ s.regs.outCap.toNat →
          t.EndsOk stream.length ∧ outputOf s.regs t.mem stream.length = stream) ∧
        (s.regs.outCap.toNat < stream.length → t.EndsBad 0xFF#8)

/-- R178: for `n >= 1` input bytes the stream has 2 to `n + ceil(n/32)` bytes, and with that capacity COMPRESS never ends
with ESIZE. -/
def Obligations.CompressSizeBound : Prop :=
  ∀ (C : Config) (s : State), ReadyCompress C s → s.regs.inLen ≠ 0#32 → ∃ t, Ends C s t ∧
    (∀ c, t.EndsOk c → 2 ≤ c ∧ c ≤ s.regs.inLen.toNat + (s.regs.inLen.toNat + 31) / 32) ∧
    (s.regs.inLen.toNat + (s.regs.inLen.toNat + 31) / 32 ≤ s.regs.outCap.toNat → ∃ c, t.EndsOk c)

/-- R180: the shape of COMPRESS's output: it does not begin with a back-reference; a LIT followed by a LIT has 32 bytes;
each back-reference has a length of 3 to 264 and an offset of 1 to 8192 that does not exceed the bytes decoded before it. -/
def Obligations.EncoderOutputShape : Prop :=
  ∀ (C : Config) (s t : State) (c : Nat), ReadyCompress C s → Ends C s t → t.EndsOk c →
    ∃ tokens, parse (outputOf s.regs t.mem c) = some tokens ∧
      (∀ i, tokens.head? = some i → i.backRef? = none) ∧
      (∀ j d d', tokens[j]? = some (.lit d) → tokens[j + 1]? = some (.lit d') → d.length = 32) ∧
      (∀ j i n off, tokens[j]? = some i → i.backRef? = some (n, off) →
        3 ≤ n ∧ n ≤ 264 ∧ 1 ≤ off ∧ off ≤ 8192 ∧ off ≤ totalOut (tokens.take j))

/-- R15, R40: the response and the output of a command are a function of its operands and its input's content: two states
that agree on these (and on nothing else: other addresses, earlier commands, other memory) give the same response and,
after OK, the same output. -/
def Obligations.CommandsAreIndependentOfTheRest : Prop :=
  ∀ (C : Config) (s u : State), s.regs.inLen = u.regs.inLen → s.regs.outCap = u.regs.outCap →
    inputOf s.regs s.mem = inputOf u.regs u.mem →
    (ReadyCompress C s ∧ ReadyCompress C u) ∨ (ReadyDecompress C s ∧ ReadyDecompress C u) →
    ∃ t v, Ends C s t ∧ Ends C u v ∧ v.status = t.status ∧ v.rlenWr = t.rlenWr ∧
      (t.rlenWr = true → v.rlen = t.rlen) ∧
      (t.status = 0x00#8 → outputOf u.regs v.mem t.rlen.toNat = outputOf s.regs t.mem t.rlen.toNat)

/-! ## The host's side -/

/-- R30, R39: while no command runs, a host write to one of registers 0 to 6 is read back, in the register's width, and
changes no other register and no memory. -/
def Obligations.HostWritesAreReadBack : Prop :=
  ∀ (C : Config) (r : Reg) (v : Nat) (s : State), s.busyToHost = false → r.access = .readWrite →
    ∃ t, hostWrite C r v s = .next t ∧
      hostRead r t = some (match r.width C with | some w => v % 2 ^ w | none => v) ∧
      (∀ r', r' ≠ r → hostRead r' t = hostRead r' s) ∧ t.mem = s.mem

/-- R34, R35, R299, R39, R301: `START` reads as nothing; while no command runs, writing 0 does nothing and writing 1 makes
`STATE` read BUSY where the regions keep R296 and R297, and is refused where they break one (R301, U2; that the write already
is refused is the model's choice, log 7); while a command runs, or is issued, a write to any of registers 0 to 7 is refused;
a write to a read-only register is refused. -/
def Obligations.StartAndTheRegisterLock : Prop :=
  ∀ (C : Config) (s : State), hostRead .start s = none ∧
    (s.busyToHost = false → s.regs.NoWrap C → s.regs.Disjoint → hostWrite C .start 1 s = .next { s with start := true } ∧
      hostRead .state { s with start := true } = some 1) ∧
    (s.busyToHost = false → ¬(s.regs.NoWrap C ∧ s.regs.Disjoint) → ∃ f, hostWrite C .start 1 s = .refused f) ∧
    (s.busyToHost = false → hostWrite C .start 0 s = .next s) ∧
    (s.busyToHost = true → ∀ (r : Reg) (v : Nat), r.index ≤ 7 → hostWrite C r v s = .refused .registerWriteWhileBusy) ∧
    (∀ (r : Reg) (v : Nat), 8 ≤ r.index → hostWrite C r v s = .refused .readOnlyRegister)

/-- R290, R291, R301: a reset event leaves `STATE` IDLE and nothing pending. Where no command runs, it always completes, and
memory is unchanged. Where it abandons a command, running or started (that a started one counts is the model's choice, log 11),
whose regions keep R296 and R297, it completes, and memory is unchanged outside that command's output region; where
`OUT_PRESENT = 0` there is no such region (R33). A command that breaks R296 or R297 has no meaning: its reset is refused (U2,
log 7), as is one beside which a second `START` is pending (R299, U3). -/
def Obligations.ResetEventAbandonsTheCommand : Prop :=
  ∀ (C : Config) (s : State),
    (∀ t, resetEvent C s = .next t → t.phase = .idle ∧ t.start = false ∧ step t = .next t) ∧
    (s.busyToHost = false → ∃ t, resetEvent C s = .next t ∧ t.mem = s.mem) ∧
    (s.phase ≠ .busy → s.start = true → s.regs.NoWrap C → s.regs.Disjoint → ∃ t, resetEvent C s = .next t ∧
      unchangedOutside s.regs.outBase s.regs.outCap.toNat s.mem t.mem ∧ (s.regs.outPresent = false → t.mem = s.mem)) ∧
    (s.phase = .busy → s.start = false → s.op.NoWrap C → s.op.Disjoint → ∃ t, resetEvent C s = .next t ∧
      unchangedOutside s.op.outBase s.op.outCap.toNat s.mem t.mem ∧ (s.op.outPresent = false → t.mem = s.mem)) ∧
    (s.phase ≠ .busy → s.start = true → ¬(s.regs.NoWrap C ∧ s.regs.Disjoint) → ∃ f, resetEvent C s = .refused f) ∧
    (s.phase = .busy → s.start = false → ¬(s.op.NoWrap C ∧ s.op.Disjoint) → ∃ f, resetEvent C s = .refused f) ∧
    (s.phase = .busy → s.start = true → resetEvent C s = .refused .startWhileBusy)

/-- R123, R257, R36: the software call has a result where the host reads no running command and the regions keep R296 and
R297, within the steps R302 allows (the wait is the model's, log 19), and none while a command runs or is started (R301). The
result is `sext(STATUS)` of the finished command, one of 0, -1, -2, -3; the length slot takes `RLEN` on 0 and on -1 of
decompress, and keeps its value on -1 of compress, on -2 and on -3. -/
def Obligations.SoftwareCallResults : Prop :=
  ∀ (C : Config) (c : Cmd) (ibuf : Option Nat) (ilen : Len) (obuf : Option Nat) (olen : Len) (s : State),
    (s.busyToHost = true → softwareCall C c ibuf ilen obuf olen s = none) ∧
    (s.busyToHost = false → (callOperands C c ibuf ilen obuf olen).NoWrap C →
      (callOperands C c ibuf ilen obuf olen).Disjoint → ∃ r, softwareCall C c ibuf ilen obuf olen s = some r) ∧
    ∀ r : CallResult, softwareCall C c ibuf ilen obuf olen s = some r →
      r.after.phase = .done ∧ r.code = r.after.status.toInt ∧
      (r.code = 0 ∨ r.code = -1 ∨ r.code = -2 ∨ r.code = -3) ∧
      (r.code = 0 → r.olen = r.after.rlen) ∧
      (r.code = -1 → c = .decompress → r.olen = r.after.rlen) ∧
      (r.code = -1 → c = .compress → r.olen = olen) ∧
      (r.code = -2 → r.olen = olen) ∧ (r.code = -3 → r.olen = olen)
end

