-- ==== Sys2Proof/Laws/Decode.lean ====
section
/-! SUPPORT. The small laws of the encoding: what the fields of an encoded control byte are, and what a token is. -/

namespace Sys2Proof

@[simp] theorem litMax_eq : litMax = 32 := rfl
@[simp] theorem matchMin_eq : matchMin = 3 := rfl
@[simp] theorem matchMax_eq : matchMax = 264 := rfl
@[simp] theorem offMin_eq : offMin = 1 := rfl
@[simp] theorem offMax_eq : offMax = 8192 := rfl
@[simp] theorem shortMax_eq : shortMax = 8 := rfl
@[simp] theorem longestToken_eq : longestToken = 33 := rfl

theorem encLit_toNat {n : Nat} (h : n ≤ litMax) : (encLit n).toNat = n - 1 := by
  have : n - 1 < 256 := by simp at h; omega
  simp [encLit, Nat.mod_eq_of_lt this]

theorem refControl_toNat_short {len off : Nat} (h : len ≤ shortMax) (ho : off ≤ offMax) :
    (refControl len off).toNat = (len - 2) * 32 + (off - 1) / 256 := by
  simp only [shortMax_eq, offMax_eq] at h ho
  have : (len - 2) * 32 + (off - 1) / 256 < 256 := by omega
  simp [refControl, h, Nat.mod_eq_of_lt this]

theorem refControl_toNat_long {len off : Nat} (h : shortMax < len) (ho : off ≤ offMax) :
    (refControl len off).toNat = 0xE0 + (off - 1) / 256 := by
  simp only [shortMax_eq, offMax_eq] at h ho
  have h1 : ¬len ≤ 8 := by omega
  have h2 : 224 + (off - 1) / 256 < 256 := by omega
  simp [refControl, h1, Nat.mod_eq_of_lt h2]

theorem formatBits_lt (cb : Byte) : formatBits cb < 8 := by
  have := cb.isLt; unfold formatBits; omega

theorem lowBits_lt (cb : Byte) : lowBits cb < 32 := Nat.mod_lt _ (by decide)

/-- The offset assembled from any two bytes is in range (R97). -/
theorem assembleOffset_range (cb low : Byte) : 1 ≤ assembleOffset cb low ∧ assembleOffset cb low ≤ offMax := by
  have := lowBits_lt cb; have := low.isLt; simp only [offMax_eq]; unfold assembleOffset; omega

theorem tokenSize_pos (cb : Byte) : 2 ≤ tokenSize cb := by
  unfold tokenSize; split <;> [omega; (split <;> omega)]

theorem tokenSize_le (cb : Byte) : tokenSize cb ≤ longestToken := by
  simp only [longestToken_eq]; unfold tokenSize; split <;> [omega; (split <;> omega)]

theorem tokenOf_isToken (cb : Byte) (rest : List Byte) : (tokenOf cb rest).isToken = true := by
  unfold tokenOf; split <;> rfl

/-- What decoding a token can come to (R99, R101). -/
theorem decodeToken_cases (bytes : List Byte) :
    (bytes = [] ∧ decodeToken bytes = .error .endOfStream) ∨
    (∃ cb rest, bytes = cb :: rest ∧ rest.length + 1 < tokenSize cb ∧ decodeToken bytes = .error .truncated) ∨
    (∃ cb rest, bytes = cb :: rest ∧ tokenSize cb ≤ rest.length + 1 ∧
      decodeToken bytes = .ok (tokenOf cb (rest.take (tokenSize cb - 1)), rest.drop (tokenSize cb - 1))) := by
  cases bytes with
  | nil => exact .inl ⟨rfl, rfl⟩
  | cons cb rest =>
    by_cases h : rest.length + 1 < tokenSize cb
    · exact .inr (.inl ⟨cb, rest, rfl, h, by simp [decodeToken, h]⟩)
    · exact .inr (.inr ⟨cb, rest, rfl, by omega, by simp [decodeToken, h]⟩)

theorem decodeToken_isToken {bytes rest : List Byte} {i : Instr} (h : decodeToken bytes = .ok (i, rest)) :
    i.isToken = true := by
  obtain ⟨_, h'⟩ | ⟨_, _, _, _, h'⟩ | ⟨cb, r, _, _, h'⟩ := decodeToken_cases bytes
  · rw [h'] at h; cases h
  · rw [h'] at h; cases h
  · rw [h'] at h; cases h; exact tokenOf_isToken _ _

end Sys2Proof
end

