-- ==== Sys2Proof/Laws/Memory.lean ====
section
/-! SUPPORT. Laws of keyed lists, of memory (read after write, the canonical form) and of the hash table. -/

namespace Sys2Proof.Machine

open Sys2Proof

variable {α : Type}

/-! ## Keyed lists -/

@[simp] theorem lookup_nil (k : Nat) : lookup k ([] : List (Nat × α)) = none := rfl

theorem lookup_cons (k a : Nat) (v : α) (m : List (Nat × α)) :
    lookup k ((a, v) :: m) = if a = k then some v else lookup k m := rfl

theorem lookup_insert (k j : Nat) (v : α) (m : List (Nat × α)) :
    lookup j (insert k v m) = if j = k then some v else lookup j m := by
  induction m with
  | nil => simp [insert, lookup, eq_comm]
  | cons e rest ih =>
    obtain ⟨a, w⟩ := e
    unfold insert
    split
    · simp only [lookup_cons, eq_comm (a := j)]
    · split
      · subst_vars
        simp only [lookup_cons, eq_comm (a := j)]
        split <;> rfl
      · simp only [lookup_cons, ih]
        by_cases h : a = j
        · subst h
          simp [Ne.symm ‹¬k = a›]
        · simp [h]

theorem lookup_dropKeys (p : Nat → Bool) (j : Nat) (m : List (Nat × α)) :
    lookup j (dropKeys p m) = if p j then none else lookup j m := by
  induction m with
  | nil => simp [dropKeys]
  | cons e rest ih =>
    obtain ⟨a, w⟩ := e
    have ih' : lookup j (List.filter (fun e : Nat × α => !p e.1) rest) = if p j then none else lookup j rest := ih
    by_cases hp : p a = true
    · by_cases h : a = j
      · subst h; simp [dropKeys, hp, ih']
      · simp [dropKeys, hp, ih', lookup_cons, h]
    · by_cases h : a = j
      · subst h; simp [dropKeys, hp, lookup_cons]
      · simp [dropKeys, hp, ih', lookup_cons, h]

theorem mem_insert {k : Nat} {v : α} {m : List (Nat × α)} {e : Nat × α} (h : e ∈ insert k v m) :
    e = (k, v) ∨ e ∈ m := by
  induction m with
  | nil => simpa [insert] using h
  | cons x rest ih =>
    obtain ⟨a, w⟩ := x
    unfold insert at h
    split at h
    · simpa using h
    · split at h
      · rcases List.mem_cons.1 h with h | h
        · exact .inl h
        · exact .inr (List.mem_cons_of_mem _ h)
      · rcases List.mem_cons.1 h with h | h
        · exact .inr (h ▸ List.mem_cons_self)
        · exact (ih h).imp_right (List.mem_cons_of_mem _)

theorem lookup_mem {k : Nat} {v : α} {m : List (Nat × α)} (h : lookup k m = some v) : (k, v) ∈ m := by
  induction m with
  | nil => simp at h
  | cons x rest ih =>
    obtain ⟨a, w⟩ := x
    rw [lookup_cons] at h
    split at h
    · cases h; subst_vars; exact List.mem_cons_self
    · exact List.mem_cons_of_mem _ (ih h)

theorem risingFrom_le {lo lo' : Nat} {m : List (Nat × α)} (hle : lo' ≤ lo) (h : risingFrom lo m = true) :
    risingFrom lo' m = true := by
  cases m with
  | nil => rfl
  | cons e rest =>
    simp only [risingFrom, Bool.and_eq_true, decide_eq_true_eq] at h ⊢
    exact ⟨hle.trans h.1, h.2⟩

theorem risingFrom_insert {lo k : Nat} {v : α} {m : List (Nat × α)} (hk : lo ≤ k) (h : risingFrom lo m = true) :
    risingFrom lo (insert k v m) = true := by
  induction m generalizing lo with
  | nil => simp [insert, risingFrom, hk]
  | cons e rest ih =>
    obtain ⟨a, w⟩ := e
    simp only [risingFrom, Bool.and_eq_true, decide_eq_true_eq] at h
    unfold insert
    split
    · simp only [risingFrom, Bool.and_eq_true, decide_eq_true_eq]
      exact ⟨hk, by omega, h.2⟩
    · split
      · subst_vars
        simp only [risingFrom, Bool.and_eq_true, decide_eq_true_eq]
        exact h
      · simp only [risingFrom, Bool.and_eq_true, decide_eq_true_eq]
        exact ⟨h.1, ih (by omega) h.2⟩

theorem risingFrom_dropKeys {lo : Nat} (p : Nat → Bool) {m : List (Nat × α)} (h : risingFrom lo m = true) :
    risingFrom lo (dropKeys p m) = true := by
  induction m generalizing lo with
  | nil => rfl
  | cons e rest ih =>
    simp only [risingFrom, Bool.and_eq_true, decide_eq_true_eq] at h
    have ih' := ih h.2
    by_cases hp : p e.1 = true
    · simp only [dropKeys, List.filter_cons, hp]
      exact risingFrom_le (by omega) ih'
    · simp only [dropKeys, List.filter_cons, hp]
      simp only [Bool.not_false, ↓reduceIte, risingFrom, Bool.and_eq_true, decide_eq_true_eq]
      exact ⟨h.1, ih'⟩

/-! ## Memory -/

theorem Memory.unlisted_of_not_unspecified {m : Memory} {a : Nat} (h : m.unspecified a = false) :
    m.unlisted a = blankByte := by
  have : m.spans.find? (fun sp => sp.holds a) = none := by
    rw [List.find?_eq_none]
    intro sp hsp
    simp only [Memory.unspecified, List.any_eq_false] at h
    exact h sp hsp
  simp [Memory.unlisted, this]

@[simp] theorem Memory.write_spans (m : Memory) (a : Nat) (v : Byte) : (m.write a v).spans = m.spans := by
  unfold Memory.write; split <;> rfl

@[simp] theorem Memory.write_unspecified (m : Memory) (a : Nat) (v : Byte) (b : Nat) :
    (m.write a v).unspecified b = m.unspecified b := by
  simp [Memory.unspecified]

/-- A read gives the latest write to the same byte, and a write changes only the byte addressed (R70, R73, R300). -/
theorem Memory.read_write (m : Memory) (a : Nat) (v : Byte) (b : Nat) :
    (m.write a v).read b = if b = a then v else m.read b := by
  have hun : (m.write a v).unlisted b = m.unlisted b := by simp [Memory.unlisted]
  unfold Memory.read
  rw [hun]
  unfold Memory.write
  split
  · rename_i h
    simp only [lookup_dropKeys, decide_eq_true_eq]
    by_cases hb : b = a
    · subst hb; simp [Memory.unlisted_of_not_unspecified h.1, h.2]
    · simp [hb]
  · simp only [lookup_insert]
    by_cases hb : b = a <;> simp [hb]

@[simp] theorem Memory.read_write_same (m : Memory) (a : Nat) (v : Byte) : (m.write a v).read a = v := by
  simp [Memory.read_write]

theorem Memory.read_write_other {m : Memory} {a b : Nat} {v : Byte} (h : b ≠ a) : (m.write a v).read b = m.read b := by
  simp [Memory.read_write, h]

/-- Outside the bytes that become unspecified memory reads as before (R81). -/
theorem Memory.read_forget {m : Memory} {base len stamp a : Nat} (h : a < base ∨ base + len ≤ a) :
    (m.forget base len stamp).read a = m.read a := by
  unfold Memory.forget
  split
  · rfl
  · have hns : ¬(base ≤ a ∧ a < base + len) := by omega
    simp only [Memory.read, lookup_dropKeys, Memory.unlisted, List.find?_cons, Span.holds]
    simp [hns]

theorem Memory.wf_iff (m : Memory) : m.wf = true ↔
    risingFrom 0 m.cells = true ∧ ∀ c ∈ m.cells, m.unspecified c.1 = true ∨ c.2 ≠ blankByte := by
  simp [Memory.wf]

/-- A write keeps the canonical form. -/
theorem Memory.write_wf {m : Memory} (a : Nat) (v : Byte) (h : m.wf = true) : (m.write a v).wf = true := by
  rw [Memory.wf_iff] at h ⊢
  simp only [Memory.write_unspecified]
  unfold Memory.write
  split
  · exact ⟨risingFrom_dropKeys (fun k => decide (k = a)) h.1, fun c hc => h.2 c (List.mem_of_mem_filter hc)⟩
  · rename_i hv
    refine ⟨risingFrom_insert (Nat.zero_le _) h.1, fun c hc => ?_⟩
    rcases mem_insert hc with rfl | hc
    · by_cases hu : m.unspecified a = true
      · exact .inl hu
      · refine .inr fun hb => hv ⟨by simpa using hu, hb⟩
    · exact h.2 c hc

/-- Leaving bytes unspecified keeps the canonical form. -/
theorem Memory.forget_wf {m : Memory} (base len stamp : Nat) (h : m.wf = true) : (m.forget base len stamp).wf = true := by
  unfold Memory.forget
  split
  · exact h
  · rw [Memory.wf_iff] at h ⊢
    refine ⟨risingFrom_dropKeys (fun k => decide (base ≤ k ∧ k < base + len)) h.1, fun c hc => ?_⟩
    refine (h.2 c (List.mem_of_mem_filter hc)).imp_left fun hu => ?_
    simp only [Memory.unspecified, List.any_cons, Bool.or_eq_true] at hu ⊢
    exact .inr hu

/-- Laying bytes out changes only the bytes addressed, to the bytes laid out. -/
theorem Memory.read_writeAll (m : Memory) (a : Nat) (bytes : List Byte) (b : Nat) :
    (m.writeAll a bytes).read b = if a ≤ b ∧ b < a + bytes.length then bytes.getD (b - a) 0 else m.read b := by
  induction bytes generalizing m a with
  | nil =>
    have h : ¬(a ≤ b ∧ b < a) := by omega
    simp [Memory.writeAll, h]
  | cons x rest ih =>
    rw [Memory.writeAll, ih, Memory.read_write]
    by_cases hb : b = a
    · subst hb; simp
    · by_cases hin : a + 1 ≤ b ∧ b < a + 1 + rest.length
      · have h2 : a ≤ b ∧ b < a + (x :: rest).length := by simp; omega
        obtain ⟨d, rfl⟩ : ∃ d, b = a + 1 + d := ⟨b - (a + 1), by omega⟩
        rw [if_pos hin, if_pos h2, show a + 1 + d - (a + 1) = d by omega, show a + 1 + d - a = d + 1 by omega]
        simp
      · have h2 : ¬(a ≤ b ∧ b < a + (x :: rest).length) := by simp; omega
        rw [if_neg hin, if_neg h2, if_neg hb]

theorem Memory.writeAll_wf {m : Memory} (a : Nat) (bytes : List Byte) (h : m.wf = true) :
    (m.writeAll a bytes).wf = true := by
  induction bytes generalizing m a with
  | nil => exact h
  | cons x rest ih => exact ih _ (Memory.write_wf a x h)

/-- The memory at reset is canonical. -/
theorem reset_memory_wf : State.reset.mem.wf = true := by decide

/-! ## The hash table -/

/-- A slot reads as the latest position entered, and an entry changes only its own slot (R27: collisions are resolved by
overwrite). -/
theorem slot_setSlot (ht : List (Nat × Nat)) (h j p : Nat) : slot (setSlot ht h p) j = if j = h then some p else slot ht j :=
  lookup_insert h j p ht

theorem setSlot_rising {ht : List (Nat × Nat)} (h p : Nat) (hr : risingFrom 0 ht = true) :
    risingFrom 0 (setSlot ht h p) = true := risingFrom_insert (Nat.zero_le _) hr

theorem mem_setSlot {ht : List (Nat × Nat)} {h p : Nat} {e : Nat × Nat} (he : e ∈ setSlot ht h p) :
    e = (h, p) ∨ e ∈ ht := mem_insert he

theorem slot_mem {ht : List (Nat × Nat)} {h p : Nat} (he : slot ht h = some p) : (h, p) ∈ ht := lookup_mem he

end Sys2Proof.Machine
end

