-- ==== Sys2Proof/Laws/State.lean ====
section
/-! SUPPORT. What each named update of the state does to each field. -/

namespace Sys2Proof.Machine

open Sys2Proof

/-! ## `finish`: R129 -/

@[simp] theorem finish_regs (n : Nat) (s : State) : (finish n s).regs = s.regs := rfl
@[simp] theorem finish_start (n : Nat) (s : State) : (finish n s).start = s.start := rfl
@[simp] theorem finish_phase (n : Nat) (s : State) : (finish n s).phase = .done := rfl
@[simp] theorem finish_status (n : Nat) (s : State) : (finish n s).status = okCode := rfl
@[simp] theorem finish_rlen (n : Nat) (s : State) : (finish n s).rlen = BitVec.ofNat 32 n := rfl
@[simp] theorem finish_rlenWr (n : Nat) (s : State) : (finish n s).rlenWr = true := rfl
@[simp] theorem finish_op (n : Nat) (s : State) : (finish n s).op = s.op := rfl
@[simp] theorem finish_ip (n : Nat) (s : State) : (finish n s).ip = s.ip := rfl
@[simp] theorem finish_wp (n : Nat) (s : State) : (finish n s).wp = s.wp := rfl
@[simp] theorem finish_ls (n : Nat) (s : State) : (finish n s).ls = s.ls := rfl
@[simp] theorem finish_ll (n : Nat) (s : State) : (finish n s).ll = s.ll := rfl
@[simp] theorem finish_cb (n : Nat) (s : State) : (finish n s).cb = s.cb := rfl
@[simp] theorem finish_mlen (n : Nat) (s : State) : (finish n s).mlen = s.mlen := rfl
@[simp] theorem finish_moff (n : Nat) (s : State) : (finish n s).moff = s.moff := rfl
@[simp] theorem finish_cand (n : Nat) (s : State) : (finish n s).cand = s.cand := rfl
@[simp] theorem finish_mode (n : Nat) (s : State) : (finish n s).mode = s.mode := rfl
@[simp] theorem finish_ht (n : Nat) (s : State) : (finish n s).ht = s.ht := rfl
@[simp] theorem finish_mem (n : Nat) (s : State) : (finish n s).mem = s.mem := rfl
@[simp] theorem finish_countFirst (n : Nat) (s : State) : (finish n s).countFirst = s.countFirst := rfl
@[simp] theorem finish_freeTick (n : Nat) (s : State) : (finish n s).freeTick = s.freeTick := rfl

/-! ## `raise`: R256 -/

@[simp] theorem raise_regs (f : Failure) (s : State) : (raise f s).regs = s.regs := rfl
@[simp] theorem raise_start (f : Failure) (s : State) : (raise f s).start = s.start := rfl
@[simp] theorem raise_phase (f : Failure) (s : State) : (raise f s).phase = .done := rfl
@[simp] theorem raise_status (f : Failure) (s : State) : (raise f s).status = f.code := rfl
@[simp] theorem raise_rlen (f : Failure) (s : State) : (raise f s).rlen = if storesLength f s then BitVec.ofNat 32 s.wp else Config.freeLen s.freeTick := rfl
@[simp] theorem raise_rlenWr (f : Failure) (s : State) : (raise f s).rlenWr = storesLength f s := rfl
@[simp] theorem raise_op (f : Failure) (s : State) : (raise f s).op = s.op := rfl
@[simp] theorem raise_ip (f : Failure) (s : State) : (raise f s).ip = s.ip := rfl
@[simp] theorem raise_wp (f : Failure) (s : State) : (raise f s).wp = s.wp := rfl
@[simp] theorem raise_ls (f : Failure) (s : State) : (raise f s).ls = s.ls := rfl
@[simp] theorem raise_ll (f : Failure) (s : State) : (raise f s).ll = s.ll := rfl
@[simp] theorem raise_cb (f : Failure) (s : State) : (raise f s).cb = s.cb := rfl
@[simp] theorem raise_mlen (f : Failure) (s : State) : (raise f s).mlen = s.mlen := rfl
@[simp] theorem raise_moff (f : Failure) (s : State) : (raise f s).moff = s.moff := rfl
@[simp] theorem raise_cand (f : Failure) (s : State) : (raise f s).cand = s.cand := rfl
@[simp] theorem raise_mode (f : Failure) (s : State) : (raise f s).mode = s.mode := rfl
@[simp] theorem raise_ht (f : Failure) (s : State) : (raise f s).ht = s.ht := rfl
@[simp] theorem raise_mem (f : Failure) (s : State) : (raise f s).mem = if losesOutput f s then s.mem.forget s.op.outBase s.op.outCap.toNat s.freeTick else s.mem := rfl
@[simp] theorem raise_countFirst (f : Failure) (s : State) : (raise f s).countFirst = s.countFirst := rfl
@[simp] theorem raise_freeTick (f : Failure) (s : State) : (raise f s).freeTick = s.freeTick + 1 := rfl

/-! ## `sampled`: registers 0 to 6 -/

@[simp] theorem sampled_cmd (c : Cmd) (r : Operands) : (sampled c r).cmd = c := rfl
@[simp] theorem sampled_inPresent (c : Cmd) (r : Operands) : (sampled c r).inPresent = r.inPresent := rfl
@[simp] theorem sampled_inBase (c : Cmd) (r : Operands) : (sampled c r).inBase = r.inBase := rfl
@[simp] theorem sampled_inLen (c : Cmd) (r : Operands) : (sampled c r).inLen = r.inLen := rfl
@[simp] theorem sampled_outPresent (c : Cmd) (r : Operands) : (sampled c r).outPresent = r.outPresent := rfl
@[simp] theorem sampled_outBase (c : Cmd) (r : Operands) : (sampled c r).outBase = r.outBase := rfl
@[simp] theorem sampled_outCap (c : Cmd) (r : Operands) : (sampled c r).outCap = r.outCap := rfl

/-! ## `sample`: R124 -/

@[simp] theorem sample_regs (c : Cmd) (s : State) : (sample c s).regs = s.regs := rfl
@[simp] theorem sample_start (c : Cmd) (s : State) : (sample c s).start = false := rfl
@[simp] theorem sample_phase (c : Cmd) (s : State) : (sample c s).phase = .busy := rfl
@[simp] theorem sample_status (c : Cmd) (s : State) : (sample c s).status = Config.freeStatus s.freeTick := rfl
@[simp] theorem sample_rlen (c : Cmd) (s : State) : (sample c s).rlen = Config.freeLen s.freeTick := rfl
@[simp] theorem sample_rlenWr (c : Cmd) (s : State) : (sample c s).rlenWr = Config.freeBit s.freeTick := rfl
@[simp] theorem sample_op (c : Cmd) (s : State) : (sample c s).op = sampled c s.regs := rfl
@[simp] theorem sample_ip (c : Cmd) (s : State) : (sample c s).ip = s.ip := rfl
@[simp] theorem sample_wp (c : Cmd) (s : State) : (sample c s).wp = s.wp := rfl
@[simp] theorem sample_ls (c : Cmd) (s : State) : (sample c s).ls = s.ls := rfl
@[simp] theorem sample_ll (c : Cmd) (s : State) : (sample c s).ll = s.ll := rfl
@[simp] theorem sample_cb (c : Cmd) (s : State) : (sample c s).cb = s.cb := rfl
@[simp] theorem sample_mlen (c : Cmd) (s : State) : (sample c s).mlen = s.mlen := rfl
@[simp] theorem sample_moff (c : Cmd) (s : State) : (sample c s).moff = s.moff := rfl
@[simp] theorem sample_cand (c : Cmd) (s : State) : (sample c s).cand = s.cand := rfl
@[simp] theorem sample_mode (c : Cmd) (s : State) : (sample c s).mode = s.mode := rfl
@[simp] theorem sample_ht (c : Cmd) (s : State) : (sample c s).ht = s.ht := rfl
@[simp] theorem sample_mem (c : Cmd) (s : State) : (sample c s).mem = s.mem := rfl
@[simp] theorem sample_countFirst (c : Cmd) (s : State) : (sample c s).countFirst = s.countFirst := rfl
@[simp] theorem sample_freeTick (c : Cmd) (s : State) : (sample c s).freeTick = s.freeTick + 1 := rfl

/-! ## `initialise`: R126, R151 -/

@[simp] theorem initialise_regs (s : State) : (initialise s).regs = s.regs := rfl
@[simp] theorem initialise_start (s : State) : (initialise s).start = s.start := rfl
@[simp] theorem initialise_phase (s : State) : (initialise s).phase = s.phase := rfl
@[simp] theorem initialise_status (s : State) : (initialise s).status = s.status := rfl
@[simp] theorem initialise_rlen (s : State) : (initialise s).rlen = s.rlen := rfl
@[simp] theorem initialise_rlenWr (s : State) : (initialise s).rlenWr = s.rlenWr := rfl
@[simp] theorem initialise_op (s : State) : (initialise s).op = s.op := rfl
@[simp] theorem initialise_ip (s : State) : (initialise s).ip = 0 := rfl
@[simp] theorem initialise_wp (s : State) : (initialise s).wp = 0 := rfl
@[simp] theorem initialise_ls (s : State) : (initialise s).ls = 0 := rfl
@[simp] theorem initialise_ll (s : State) : (initialise s).ll = 0 := rfl
@[simp] theorem initialise_cb (s : State) : (initialise s).cb = s.cb := rfl
@[simp] theorem initialise_mlen (s : State) : (initialise s).mlen = s.mlen := rfl
@[simp] theorem initialise_moff (s : State) : (initialise s).moff = s.moff := rfl
@[simp] theorem initialise_cand (s : State) : (initialise s).cand = s.cand := rfl
@[simp] theorem initialise_mode (s : State) : (initialise s).mode = .write := rfl
@[simp] theorem initialise_ht (s : State) : (initialise s).ht = match s.op.cmd with | .compress => [] | .decompress => s.ht := rfl
@[simp] theorem initialise_mem (s : State) : (initialise s).mem = s.mem := rfl
@[simp] theorem initialise_countFirst (s : State) : (initialise s).countFirst = false := rfl
@[simp] theorem initialise_freeTick (s : State) : (initialise s).freeTick = s.freeTick := rfl

/-! ## `countToken`: R232 -/

@[simp] theorem countToken_regs (n : Nat) (s : State) : (countToken n s).regs = s.regs := rfl
@[simp] theorem countToken_start (n : Nat) (s : State) : (countToken n s).start = s.start := rfl
@[simp] theorem countToken_phase (n : Nat) (s : State) : (countToken n s).phase = s.phase := rfl
@[simp] theorem countToken_status (n : Nat) (s : State) : (countToken n s).status = s.status := rfl
@[simp] theorem countToken_rlen (n : Nat) (s : State) : (countToken n s).rlen = s.rlen := rfl
@[simp] theorem countToken_rlenWr (n : Nat) (s : State) : (countToken n s).rlenWr = s.rlenWr := rfl
@[simp] theorem countToken_op (n : Nat) (s : State) : (countToken n s).op = s.op := rfl
@[simp] theorem countToken_ip (n : Nat) (s : State) : (countToken n s).ip = s.ip := rfl
@[simp] theorem countToken_wp (n : Nat) (s : State) : (countToken n s).wp = sat (s.wp + n) := rfl
@[simp] theorem countToken_ls (n : Nat) (s : State) : (countToken n s).ls = s.ls := rfl
@[simp] theorem countToken_ll (n : Nat) (s : State) : (countToken n s).ll = s.ll := rfl
@[simp] theorem countToken_cb (n : Nat) (s : State) : (countToken n s).cb = s.cb := rfl
@[simp] theorem countToken_mlen (n : Nat) (s : State) : (countToken n s).mlen = s.mlen := rfl
@[simp] theorem countToken_moff (n : Nat) (s : State) : (countToken n s).moff = s.moff := rfl
@[simp] theorem countToken_cand (n : Nat) (s : State) : (countToken n s).cand = s.cand := rfl
@[simp] theorem countToken_mode (n : Nat) (s : State) : (countToken n s).mode = s.mode := rfl
@[simp] theorem countToken_ht (n : Nat) (s : State) : (countToken n s).ht = s.ht := rfl
@[simp] theorem countToken_mem (n : Nat) (s : State) : (countToken n s).mem = s.mem := rfl
@[simp] theorem countToken_countFirst (n : Nat) (s : State) : (countToken n s).countFirst = s.countFirst := rfl
@[simp] theorem countToken_freeTick (n : Nat) (s : State) : (countToken n s).freeTick = s.freeTick := rfl

/-! ## `advance`: R201 -/

@[simp] theorem advance_regs (n : Nat) (s : State) : (advance n s).regs = s.regs := rfl
@[simp] theorem advance_start (n : Nat) (s : State) : (advance n s).start = s.start := rfl
@[simp] theorem advance_phase (n : Nat) (s : State) : (advance n s).phase = s.phase := rfl
@[simp] theorem advance_status (n : Nat) (s : State) : (advance n s).status = s.status := rfl
@[simp] theorem advance_rlen (n : Nat) (s : State) : (advance n s).rlen = s.rlen := rfl
@[simp] theorem advance_rlenWr (n : Nat) (s : State) : (advance n s).rlenWr = s.rlenWr := rfl
@[simp] theorem advance_op (n : Nat) (s : State) : (advance n s).op = s.op := rfl
@[simp] theorem advance_ip (n : Nat) (s : State) : (advance n s).ip = s.ip + n := rfl
@[simp] theorem advance_wp (n : Nat) (s : State) : (advance n s).wp = s.wp := rfl
@[simp] theorem advance_ls (n : Nat) (s : State) : (advance n s).ls = s.ls := rfl
@[simp] theorem advance_ll (n : Nat) (s : State) : (advance n s).ll = s.ll := rfl
@[simp] theorem advance_cb (n : Nat) (s : State) : (advance n s).cb = s.cb := rfl
@[simp] theorem advance_mlen (n : Nat) (s : State) : (advance n s).mlen = s.mlen := rfl
@[simp] theorem advance_moff (n : Nat) (s : State) : (advance n s).moff = s.moff := rfl
@[simp] theorem advance_cand (n : Nat) (s : State) : (advance n s).cand = s.cand := rfl
@[simp] theorem advance_mode (n : Nat) (s : State) : (advance n s).mode = s.mode := rfl
@[simp] theorem advance_ht (n : Nat) (s : State) : (advance n s).ht = s.ht := rfl
@[simp] theorem advance_mem (n : Nat) (s : State) : (advance n s).mem = s.mem := rfl
@[simp] theorem advance_countFirst (n : Nat) (s : State) : (advance n s).countFirst = s.countFirst := rfl
@[simp] theorem advance_freeTick (n : Nat) (s : State) : (advance n s).freeTick = s.freeTick := rfl

/-! ## `checkCapacity`: R194; it writes `MODE` and the model's `countFirst` only -/

@[simp] theorem checkCapacity_regs (n : Nat) (s : State) : (checkCapacity n s).regs = s.regs := by
  unfold checkCapacity; split <;> [rfl; (split <;> rfl)]
@[simp] theorem checkCapacity_start (n : Nat) (s : State) : (checkCapacity n s).start = s.start := by
  unfold checkCapacity; split <;> [rfl; (split <;> rfl)]
@[simp] theorem checkCapacity_phase (n : Nat) (s : State) : (checkCapacity n s).phase = s.phase := by
  unfold checkCapacity; split <;> [rfl; (split <;> rfl)]
@[simp] theorem checkCapacity_status (n : Nat) (s : State) : (checkCapacity n s).status = s.status := by
  unfold checkCapacity; split <;> [rfl; (split <;> rfl)]
@[simp] theorem checkCapacity_rlen (n : Nat) (s : State) : (checkCapacity n s).rlen = s.rlen := by
  unfold checkCapacity; split <;> [rfl; (split <;> rfl)]
@[simp] theorem checkCapacity_rlenWr (n : Nat) (s : State) : (checkCapacity n s).rlenWr = s.rlenWr := by
  unfold checkCapacity; split <;> [rfl; (split <;> rfl)]
@[simp] theorem checkCapacity_op (n : Nat) (s : State) : (checkCapacity n s).op = s.op := by
  unfold checkCapacity; split <;> [rfl; (split <;> rfl)]
@[simp] theorem checkCapacity_ip (n : Nat) (s : State) : (checkCapacity n s).ip = s.ip := by
  unfold checkCapacity; split <;> [rfl; (split <;> rfl)]
@[simp] theorem checkCapacity_wp (n : Nat) (s : State) : (checkCapacity n s).wp = s.wp := by
  unfold checkCapacity; split <;> [rfl; (split <;> rfl)]
@[simp] theorem checkCapacity_ls (n : Nat) (s : State) : (checkCapacity n s).ls = s.ls := by
  unfold checkCapacity; split <;> [rfl; (split <;> rfl)]
@[simp] theorem checkCapacity_ll (n : Nat) (s : State) : (checkCapacity n s).ll = s.ll := by
  unfold checkCapacity; split <;> [rfl; (split <;> rfl)]
@[simp] theorem checkCapacity_cb (n : Nat) (s : State) : (checkCapacity n s).cb = s.cb := by
  unfold checkCapacity; split <;> [rfl; (split <;> rfl)]
@[simp] theorem checkCapacity_mlen (n : Nat) (s : State) : (checkCapacity n s).mlen = s.mlen := by
  unfold checkCapacity; split <;> [rfl; (split <;> rfl)]
@[simp] theorem checkCapacity_moff (n : Nat) (s : State) : (checkCapacity n s).moff = s.moff := by
  unfold checkCapacity; split <;> [rfl; (split <;> rfl)]
@[simp] theorem checkCapacity_cand (n : Nat) (s : State) : (checkCapacity n s).cand = s.cand := by
  unfold checkCapacity; split <;> [rfl; (split <;> rfl)]
@[simp] theorem checkCapacity_ht (n : Nat) (s : State) : (checkCapacity n s).ht = s.ht := by
  unfold checkCapacity; split <;> [rfl; (split <;> rfl)]
@[simp] theorem checkCapacity_mem (n : Nat) (s : State) : (checkCapacity n s).mem = s.mem := by
  unfold checkCapacity; split <;> [rfl; (split <;> rfl)]
@[simp] theorem checkCapacity_freeTick (n : Nat) (s : State) : (checkCapacity n s).freeTick = s.freeTick := by
  unfold checkCapacity; split <;> [rfl; (split <;> rfl)]

/-! ## What `checkCapacity` does to `MODE` -/

theorem checkCapacity_count {n : Nat} {s : State} (h : s.mode = .count) : checkCapacity n s = s := by
  simp [checkCapacity, h]

theorem checkCapacity_fits {n : Nat} {s : State} (h : s.mode = .write) (hn : n ≤ s.op.outCap.toNat - s.wp) :
    checkCapacity n s = s := by
  have : ¬(s.op.outCap.toNat - s.wp < n) := by omega
  simp [checkCapacity, h, this]

theorem checkCapacity_short {n : Nat} {s : State} (h : s.mode = .write) (hn : s.op.outCap.toNat - s.wp < n) :
    checkCapacity n s = { s with mode := .count, countFirst := decide (s.ip = 0) } := by
  simp [checkCapacity, h, hn]

/-! ## What `raise` does to memory -/

theorem raise_mem_outside (f : Failure) (s : State) {a : Nat}
    (h : a < s.op.outBase ∨ s.op.outBase + s.op.outCap.toNat ≤ a) : (raise f s).mem.read a = s.mem.read a := by
  rw [raise_mem]
  split
  · exact Memory.read_forget h
  · rfl

theorem raise_mem_wf (f : Failure) {s : State} (h : s.mem.wf = true) : (raise f s).mem.wf = true := by
  rw [raise_mem]
  split
  · exact Memory.forget_wf _ _ _ h
  · exact h

@[simp] theorem decoding_iff (s : State) : s.decoding = true ↔ s.phase = .busy ∧ s.op.cmd = .decompress := by
  simp [State.decoding]

end Sys2Proof.Machine
end

