-- ==== Sys2Proof/Laws/Ops.lean ====
section
/-! SUPPORT. One lemma for each shared operation: all it can do. -/

namespace Sys2Proof.Machine

open Sys2Proof

/-! ## Sequencing -/

@[simp] theorem go_andThen (s : State) (k : State → Flow) : (Flow.go s).andThen k = k s := rfl
@[simp] theorem ended_andThen (s : State) (k : State → Flow) : (Flow.ended s).andThen k = .ended s := rfl
@[simp] theorem stop_andThen (f : Fault) (k : State → Flow) : (Flow.stop f).andThen k = .stop f := rfl
@[simp] theorem go_outcome (s : State) : (Flow.go s).outcome = .next s := rfl
@[simp] theorem ended_outcome (s : State) : (Flow.ended s).outcome = .next s := rfl
@[simp] theorem stop_outcome (f : Fault) : (Flow.stop f).outcome = .fault f := rfl

/-- What a sequence can come to. -/
theorem andThen_cases (x : Flow) (k : State → Flow) :
    (∃ s, x = .go s ∧ x.andThen k = k s) ∨ (∃ s, x = .ended s ∧ x.andThen k = .ended s) ∨
      (∃ f, x = .stop f ∧ x.andThen k = .stop f) := by
  cases x <;> simp

/-! ## Accesses -/

theorem readIn_ok {s : State} {i : Nat} (h : i < s.op.inLen.toNat) :
    s.readIn i = .ok (s.mem.read (s.op.inBase + i)) := by simp [State.readIn, h]

theorem readOut_ok {s : State} {i : Nat} (h : i < s.wp) (hc : s.wp ≤ s.op.outCap.toNat) :
    s.readOut i = .ok (s.mem.read (s.op.outBase + i)) := by simp [State.readOut, h, hc]

theorem emitByte_go {s : State} {v : Byte} (h : s.wp < s.op.outCap.toNat) :
    emitByte v s = .go { s with mem := s.mem.write (s.op.outBase + s.wp) v, wp := s.wp + 1 } := by
  simp [emitByte, h]

/-- A write sequence that fits writes its bytes at `WP` in ascending order and moves `WP` past them (R24, R196). -/
theorem emit_go {s : State} {bytes : List Byte} (h : s.wp + bytes.length ≤ s.op.outCap.toNat) :
    emit bytes s =
      .go { s with mem := s.mem.writeAll (s.op.outBase + s.wp) bytes, wp := s.wp + bytes.length } := by
  induction bytes generalizing s with
  | nil => simp [emit, Memory.writeAll]
  | cons b rest ih =>
    simp only [List.length_cons] at h
    rw [emit, emitByte_go (by omega), go_andThen, ih (by simpa using by omega)]
    simp [Memory.writeAll, Nat.add_assoc, Nat.add_comm 1]

/-- The input bytes a copy reads are those memory held when it began, since the regions are disjoint (R64, R77). -/
theorem inputBytes_write {s : State} {i n w : Nat} {v : Byte} (hi : i + n ≤ s.op.inLen.toNat)
    (hd : ∀ j < s.op.inLen.toNat, s.op.inBase + j ≠ s.op.outBase + w) (wp : Nat) :
    State.inputBytes { s with mem := s.mem.write (s.op.outBase + w) v, wp := wp } i n = s.inputBytes i n := by
  unfold State.inputBytes
  refine List.map_congr_left fun k hk => ?_
  have hk' : k < n := List.mem_range.1 hk
  exact Memory.read_write_other (hd (i + k) (by omega))

theorem inputBytes_succ (s : State) (i n : Nat) :
    s.inputBytes i (n + 1) = s.mem.read (s.op.inBase + i) :: s.inputBytes (i + 1) n := by
  unfold State.inputBytes
  rw [List.range_succ_eq_map, List.map_cons, List.map_map]
  refine congrArg₂ _ rfl (List.map_congr_left fun k _ => ?_)
  show s.mem.read (s.op.inBase + (i + (k + 1))) = _
  congr 1
  omega

@[simp] theorem inputBytes_length (s : State) (i n : Nat) : (s.inputBytes i n).length = n := by
  simp [State.inputBytes]

/-- Copying input bytes that are in bounds and fit is writing them (R163). -/
theorem copyIn_go {s : State} {n i : Nat} (hi : i + n ≤ s.op.inLen.toNat) (hw : s.wp + n ≤ s.op.outCap.toNat)
    (hd : ∀ j < s.op.inLen.toNat, ∀ w < s.op.outCap.toNat, s.op.inBase + j ≠ s.op.outBase + w) :
    copyIn n i s =
      .go { s with mem := s.mem.writeAll (s.op.outBase + s.wp) (s.inputBytes i n), wp := s.wp + n } := by
  induction n generalizing s i with
  | zero => simp [copyIn, State.inputBytes, Memory.writeAll]
  | succ n ih =>
    rw [copyIn, readIn_ok (by omega)]
    simp only
    rw [emitByte_go (by omega), go_andThen, ih (by simpa using by omega) (by simpa using by omega) (by simpa using hd)]
    rw [inputBytes_write (by omega) (fun j hj => hd j hj s.wp (by omega)), inputBytes_succ]
    simp [Memory.writeAll, Nat.add_assoc, Nat.add_comm 1]

/-- The bytes a back-reference stands for: the `MOFF` bytes before `WP`, repeated (R200). -/
def referenceBytes (s : State) (n : Nat) : List Byte :=
  (List.range n).map fun k => s.mem.read (s.op.outBase + (s.wp - s.moff + k % s.moff))

@[simp] theorem referenceBytes_length (s : State) (n : Nat) : (referenceBytes s n).length = n := by
  simp [referenceBytes]

theorem referenceBytes_succ {s : State} {n : Nat} (h1 : 1 ≤ s.moff) (h2 : s.moff ≤ s.wp) :
    referenceBytes s (n + 1) =
      s.mem.read (s.op.outBase + (s.wp - s.moff)) ::
        referenceBytes { s with
          mem := s.mem.write (s.op.outBase + s.wp) (s.mem.read (s.op.outBase + (s.wp - s.moff))), wp := s.wp + 1 } n := by
  unfold referenceBytes
  rw [List.range_succ_eq_map, List.map_cons, List.map_map]
  refine congrArg₂ _ (by simp) (List.map_congr_left fun k _ => ?_)
  simp only [Function.comp, Nat.succ_eq_add_one, Memory.read_write]
  have hlt : k % s.moff < s.moff := Nat.mod_lt _ (by omega)
  by_cases hk : k % s.moff + 1 = s.moff
  · have h3 : (k + 1) % s.moff = 0 := by
      by_cases h1' : s.moff = 1
      · simp [h1', Nat.mod_one]
      · rw [Nat.add_mod, Nat.mod_eq_of_lt (a := 1) (by omega), hk, Nat.mod_self]
    rw [h3, if_pos (by omega)]
    simp
  · have h3 : (k + 1) % s.moff = k % s.moff + 1 := by
      have h1' : s.moff ≠ 1 := by omega
      rw [Nat.add_mod, Nat.mod_eq_of_lt (a := 1) (by omega), Nat.mod_eq_of_lt (by omega)]
    rw [h3, if_neg (by omega)]
    congr 1
    omega

/-- A back-reference copy that fits and whose offset is in range writes the bytes it stands for (R200). -/
theorem copyBack_go {s : State} {n : Nat} (h1 : 1 ≤ s.moff) (h2 : s.moff ≤ s.wp)
    (hw : s.wp + n ≤ s.op.outCap.toNat) :
    copyBack n s =
      .go { s with mem := s.mem.writeAll (s.op.outBase + s.wp) (referenceBytes s n), wp := s.wp + n } := by
  induction n generalizing s with
  | zero => simp [copyBack, referenceBytes, Memory.writeAll]
  | succ n ih =>
    rw [copyBack, readOut_ok (by omega) (by omega)]
    simp only
    rw [emitByte_go (by omega), go_andThen, ih (by simpa using h1) (by simpa using by omega) (by simpa using by omega),
      referenceBytes_succ h1 h2]
    simp [Memory.writeAll, Nat.add_assoc, Nat.add_comm 1]

/-! ## Tokens -/

theorem whenDecoding_of {s : State} (h1 : s.phase = .busy) (h2 : s.op.cmd = .decompress) (f : State → Flow) :
    whenDecoding s f = (f s).outcome := by simp [whenDecoding, State.decoding, h1, h2]

/-- A token in COUNT mode adds its length and moves on (R232). -/
theorem runToken_count {cb : Byte} {n size : Nat} {write : State → Flow} {s : State} (h : s.mode = .count) :
    runToken cb n size write s = .go { s with cb := cb, wp := sat (s.wp + n), ip := s.ip + size } := by
  simp [runToken, checkCapacity, h, countToken, advance]

/-- A token that does not fit enters COUNT mode and is counted (R194). -/
theorem runToken_short {cb : Byte} {n size : Nat} {write : State → Flow} {s : State} (h : s.mode = .write)
    (hn : s.op.outCap.toNat - s.wp < n) :
    runToken cb n size write s =
      .go { s with
        cb := cb, mode := .count, countFirst := decide (s.ip = 0), wp := sat (s.wp + n), ip := s.ip + size } := by
  simp [runToken, checkCapacity, h, hn, countToken, advance]

/-- A token that fits in WRITE mode is executed (R190). -/
theorem runToken_write {cb : Byte} {n size : Nat} {write : State → Flow} {s : State} (h : s.mode = .write)
    (hn : n ≤ s.op.outCap.toNat - s.wp) :
    runToken cb n size write s = (write { s with cb := cb }).andThen fun u => .go (advance size u) := by
  have hn' : ¬(s.op.outCap.toNat - s.wp < n) := by omega
  simp [runToken, checkCapacity, h, hn']

/-! ## COMPRESS -/

/-- A literal flush with nothing pending (R163). -/
theorem flushLit_none {s : State} (h : s.ll = 0) : flushLit s = .go { s with ls := s.ip } := by simp [flushLit, h]

/-- A literal flush that does not fit (R162). -/
theorem flushLit_short {s : State} (h : s.ll ≠ 0) (hc : s.op.outCap.toNat - s.wp < 1 + s.ll) :
    flushLit s = .ended (raise .esize s) := by simp [flushLit, h, hc]

/-- A literal flush that fits writes the control byte and the run, and empties the run (R163). -/
theorem flushLit_go {s : State} (h : s.ll ≠ 0) (hc : s.wp + 1 + s.ll ≤ s.op.outCap.toNat)
    (hi : s.ls + s.ll ≤ s.op.inLen.toNat)
    (hd : ∀ j < s.op.inLen.toNat, ∀ w < s.op.outCap.toNat, s.op.inBase + j ≠ s.op.outBase + w) :
    flushLit s =
      .go { s with
        cb := encLit s.ll
        mem := s.mem.writeAll (s.op.outBase + s.wp) (encLit s.ll :: s.inputBytes s.ls s.ll)
        wp := s.wp + (1 + s.ll)
        ll := 0
        ls := s.ip } := by
  have hc' : ¬(s.op.outCap.toNat - s.wp < 1 + s.ll) := by omega
  rw [flushLit, if_neg h, if_neg hc', emitByte_go (by simpa using by omega), go_andThen,
    copyIn_go (by simpa using hi) (by simpa using by omega) (by simpa using hd), go_andThen]
  have := inputBytes_write (s := s) (i := s.ls) (n := s.ll) (w := s.wp) (v := encLit s.ll) hi
    (fun j hj => hd j hj s.wp (by omega)) (s.wp + 1)
  simp only [State.inputBytes] at this
  simp only [State.inputBytes, Memory.writeAll, this, Nat.add_assoc]

theorem encRef_length (len off : Nat) : (encRef len off).length = refSize len := by
  unfold encRef refSize; split <;> rfl

/-- A back-reference that fits writes its token (R165). -/
theorem emitRef_go {s : State} (hc : s.wp + refSize s.mlen ≤ s.op.outCap.toNat) :
    emitRef s =
      .go { s with
        cb := refControl s.mlen s.moff
        mem := s.mem.writeAll (s.op.outBase + s.wp) (encRef s.mlen s.moff)
        wp := s.wp + refSize s.mlen } := by
  have hc' : ¬(s.op.outCap.toNat - s.wp < refSize s.mlen) := by omega
  rw [emitRef, if_neg hc', emit_go (by simpa [encRef_length] using hc)]
  simp [encRef_length]

/-- A back-reference that does not fit (R162). -/
theorem emitRef_short {s : State} (hc : s.op.outCap.toNat - s.wp < refSize s.mlen) :
    emitRef s = .ended (raise .esize s) := by simp [emitRef, hc]

/-! ## The front end -/

/-- The shared-address test is the obligation of R297. -/
theorem overlap_eq_false_iff (r : Operands) : overlap r = false ↔
    (r.inPresent = true → r.outPresent = true →
      ∀ i < r.inLen.toNat, ∀ j < r.outCap.toNat, r.inBase + i ≠ r.outBase + j) := by
  have h0 : ∀ v : Len, v = 0#32 ↔ v.toNat = 0 := fun v => by
    rw [← BitVec.toNat_inj]; rfl
  cases hp : r.inPresent <;> cases hq : r.outPresent <;> simp [overlap, hp, hq]
  constructor
  · intro h i hi j hj he
    have hA : r.inLen ≠ 0#32 := fun h' => by have := (h0 _).1 h'; omega
    have hB : r.outCap ≠ 0#32 := fun h' => by have := (h0 _).1 h'; omega
    have := h hA hB (by omega)
    omega
  · intro h hA hB h1
    by_contra h2
    have hA' : 0 < r.inLen.toNat := Nat.pos_of_ne_zero fun h' => hA ((h0 _).2 h')
    have hB' : 0 < r.outCap.toNat := Nat.pos_of_ne_zero fun h' => hB ((h0 _).2 h')
    rcases Nat.le_total r.inBase r.outBase with h3 | h3
    · exact h (r.outBase - r.inBase) (by omega) 0 hB' (by omega)
    · exact h 0 hA' (r.inBase - r.outBase) (by omega) (by omega)

/-- What the issue of a command can come to (R124 to R128, R301). -/
theorem issue_cases (C : Config) (c : Cmd) (s : State) :
    (∃ r, brokenObligation C s.regs = some r ∧ issue C c s = .refused r) ∨
    (brokenObligation C s.regs = none ∧
      ((badArguments (sampled c s.regs) = true ∧ issue C c s = .next (raise .eargs (sample c s))) ∨
       (badArguments (sampled c s.regs) = false ∧ s.regs.inLen = 0#32 ∧ issue C c s = .next (finish 0 (sample c s))) ∨
       (badArguments (sampled c s.regs) = false ∧ s.regs.inLen ≠ 0#32 ∧
         issue C c s = .next (initialise (sample c s))))) := by
  unfold issue
  cases hb : brokenObligation C s.regs with
  | some r => exact .inl ⟨r, rfl, rfl⟩
  | none =>
    refine .inr ⟨rfl, ?_⟩
    by_cases h1 : badArguments (sampled c s.regs) = true
    · exact .inl ⟨h1, by rw [if_pos h1]⟩
    · have h1' : badArguments (sampled c s.regs) = false := by simpa using h1
      by_cases h2 : s.regs.inLen = 0#32
      · exact .inr (.inl ⟨h1', h2, by rw [if_neg h1, if_pos h2]⟩)
      · exact .inr (.inr ⟨h1', h2, by rw [if_neg h1, if_neg h2]⟩)

end Sys2Proof.Machine
end

