-- ==== Sys2Proof/Laws/Encoder.lean ====
section
/-! SUPPORT. One lemma for each part of the match finder: what it answers where its reads are in bounds (R155 to R159,
R167). -/

namespace Sys2Proof.Machine

open Sys2Proof

/-! ## Reads -/

theorem triple_ok {s : State} {i : Nat} (h : i + 3 ≤ s.op.inLen.toNat) :
    triple s i = .ok (s.mem.read (s.op.inBase + i), s.mem.read (s.op.inBase + (i + 1)), s.mem.read (s.op.inBase + (i + 2))) := by
  simp [triple, readIn_ok (s := s) (i := i) (by omega), readIn_ok (s := s) (i := i + 1) (by omega),
    readIn_ok (s := s) (i := i + 2) (by omega)]

/-- The slot of the three bytes at `i`, read from memory (R155). -/
def slotOf (C : Config) (s : State) (i : Nat) : Nat :=
  C.hash (s.mem.read (s.op.inBase + i)) (s.mem.read (s.op.inBase + (i + 1))) (s.mem.read (s.op.inBase + (i + 2)))

theorem hashAt_ok {C : Config} {s : State} {i : Nat} (h : i + 3 ≤ s.op.inLen.toNat) :
    hashAt C s i = .ok (slotOf C s i) := by simp [hashAt, triple_ok h, slotOf]

/-- Lookup and update (R156, R157). -/
theorem probe_ok {C : Config} {s : State} (h : s.ip + 3 ≤ s.op.inLen.toNat) :
    probe C s = .ok { s with
      cand := slot s.ht (slotOf C s s.ip), ht := setSlot s.ht (slotOf C s s.ip) s.ip } := by
  simp [probe, hashAt_ok h]

/-- The candidate test with its reads in bounds (R158). -/
theorem acceptCandidate_ok {s : State} (hi : s.ip + 3 ≤ s.op.inLen.toNat)
    (hc : ∀ p, s.cand = some p → p + 3 ≤ s.op.inLen.toNat) :
    ∃ a, acceptCandidate s = .ok a ∧
      ∀ p, a = some p ↔ s.cand = some p ∧ s.ip - p ≤ offMax ∧
        ∀ k < 3, s.mem.read (s.op.inBase + (p + k)) = s.mem.read (s.op.inBase + (s.ip + k)) := by
  cases hcand : s.cand with
  | none => exact ⟨none, by simp [acceptCandidate, hcand], by simp⟩
  | some p =>
    by_cases hw : s.ip - p ≤ offMax
    · refine ⟨_, by simp only [acceptCandidate, hcand, hw, if_true, triple_ok (hc p hcand), triple_ok hi]; rfl, ?_⟩
      intro q
      simp only [Prod.mk.injEq, Option.ite_none_right_eq_some, Option.some.injEq]
      constructor
      · rintro ⟨⟨h0, h1, h2⟩, rfl⟩
        refine ⟨rfl, hw, fun k hk => ?_⟩
        have : k = 0 ∨ k = 1 ∨ k = 2 := by omega
        rcases this with rfl | rfl | rfl <;> assumption
      · rintro ⟨rfl, _, h⟩
        exact ⟨⟨h 0 (by omega), h 1 (by omega), h 2 (by omega)⟩, rfl⟩
    · refine ⟨none, by simp only [acceptCandidate, hcand, hw, if_false], fun q => ?_⟩
      simp only [reduceCtorEq, Option.some.injEq, false_iff, not_and]
      rintro rfl h
      exact absurd h hw

/-- Match extension with its reads in bounds: the longest agreement, at most `fuel` longer (R159). -/
theorem extend_ok {s : State} {p fuel len : Nat} (hp : p ≤ s.ip) (hi : s.ip + len + fuel ≤ s.op.inLen.toNat) :
    ∃ r, extend s p fuel len = .ok r ∧ len ≤ r ∧ r ≤ len + fuel ∧
      (∀ k, len ≤ k → k < r → s.mem.read (s.op.inBase + (p + k)) = s.mem.read (s.op.inBase + (s.ip + k))) ∧
      (r = len + fuel ∨ s.mem.read (s.op.inBase + (p + r)) ≠ s.mem.read (s.op.inBase + (s.ip + r))) := by
  induction fuel generalizing len with
  | zero => exact ⟨len, rfl, by omega, by omega, fun k _ _ => by omega, .inl rfl⟩
  | succ fuel ih =>
    rw [extend, readIn_ok (by omega), readIn_ok (by omega)]
    simp only
    split
    · rename_i heq
      obtain ⟨r, h1, h2, h3, h4, h5⟩ := ih (len := len + 1) (by omega)
      refine ⟨r, h1, by omega, by omega, fun k hk hk' => ?_, h5.imp_left (by omega)⟩
      by_cases h : k = len
      · exact h ▸ heq
      · exact h4 k (by omega) hk'
    · rename_i hne
      exact ⟨len, rfl, by omega, by omega, fun k _ _ => by omega, .inr hne⟩

/-- `MLEN` (R159): from 3 to 264 and to the end of the input, as far as the bytes agree. -/
theorem matchLength_ok {s : State} {p : Nat} (hp : p ≤ s.ip) (hi : s.ip + 3 ≤ s.op.inLen.toNat) :
    ∃ r, matchLength s p = .ok r ∧ 3 ≤ r ∧ r ≤ 264 ∧ s.ip + r ≤ s.op.inLen.toNat ∧
      (∀ k, 3 ≤ k → k < r → s.mem.read (s.op.inBase + (p + k)) = s.mem.read (s.op.inBase + (s.ip + k))) ∧
      (r = 264 ∨ s.ip + r = s.op.inLen.toNat ∨
        s.mem.read (s.op.inBase + (p + r)) ≠ s.mem.read (s.op.inBase + (s.ip + r))) := by
  have hm : min (s.op.inLen.toNat - s.ip) 264 ≤ s.op.inLen.toNat - s.ip := Nat.min_le_left _ _
  have hm' : min (s.op.inLen.toNat - s.ip) 264 ≤ 264 := Nat.min_le_right _ _
  have hm3 : 3 ≤ min (s.op.inLen.toNat - s.ip) 264 := by omega
  obtain ⟨r, h1, h2, h3, h4, h5⟩ := extend_ok (s := s) (p := p)
    (fuel := min (s.op.inLen.toNat - s.ip) 264 - 3) (len := 3) hp (by omega)
  refine ⟨r, h1, h2, by omega, by omega, h4, ?_⟩
  rcases h5 with h5 | h5
  · omega
  · exact .inr (.inr h5)

/-! ## The table update of skipped positions (R167) -/

/-- Entering positions keeps everything but `HT`, whose slots are then the last position entered in them. -/
theorem enterAll_ok (C : Config) {n p : Nat} {s : State} :
    ∃ ht, enterAll C n p s = .go { s with ht := ht } ∧
      (risingFrom 0 s.ht = true → risingFrom 0 ht = true) ∧
      (∀ e ∈ ht, e ∈ s.ht ∨ (p ≤ e.2 ∧ e.2 < p + n ∧ e.2 + 3 ≤ s.op.inLen.toNat ∧ e.1 = slotOf C s e.2)) ∧
      (∀ q, p ≤ q → q < p + n → q + 3 ≤ s.op.inLen.toNat →
        (∀ q', q < q' → q' < p + n → q' + 3 ≤ s.op.inLen.toNat → slotOf C s q' ≠ slotOf C s q) →
        slot ht (slotOf C s q) = some q) ∧
      (∀ j, (∀ q, p ≤ q → q < p + n → q + 3 ≤ s.op.inLen.toNat → slotOf C s q ≠ j) → slot ht j = slot s.ht j) := by
  induction n generalizing p s with
  | zero => exact ⟨s.ht, rfl, id, fun e he => .inl he, fun q _ _ => by omega, fun j _ => rfl⟩
  | succ n ih =>
    rw [enterAll]
    by_cases hp : s.op.inLen.toNat - p ≥ 3
    · rw [if_pos hp, hashAt_ok (by omega)]
      obtain ⟨ht, h1, h2, h3, h4, h5⟩ := ih (p := p + 1) (s := { s with ht := setSlot s.ht (slotOf C s p) p })
      refine ⟨ht, h1, fun hr => h2 (setSlot_rising _ _ hr), fun e he => ?_, fun q hq hq' hq3 hlast => ?_, fun j hj => ?_⟩
      · rcases h3 e he with h | h
        · rcases mem_setSlot h with rfl | h
          · exact .inr ⟨by simp, by simp, by simp; omega, rfl⟩
          · exact .inl h
        · exact .inr ⟨by omega, by omega, h.2.2⟩
      · by_cases h : q = p
        · subst h
          rw [h5 (slotOf C s q) fun q' hq' hq'' hq3' => hlast q' (by omega) (by omega) hq3']
          simp [slot_setSlot]
        · exact h4 q (by omega) (by omega) hq3 fun q' a b c => hlast q' a (by omega) c
      · rw [h5 j fun q a b c => hj q (by omega) (by omega) c]
        simp [slot_setSlot, Ne.symm (hj p (by omega) (by omega) (by omega))]
    · rw [if_neg hp]
      obtain ⟨ht, h1, h2, h3, h4, h5⟩ := ih (p := p + 1) (s := s)
      refine ⟨ht, h1, h2, fun e he => (h3 e he).imp_right fun h => ⟨by omega, by omega, h.2.2⟩,
        fun q hq hq' hq3 hlast => ?_, fun j hj => h5 j fun q a b c => hj q (by omega) (by omega) c⟩
      by_cases h : q = p
      · omega
      · exact h4 q (by omega) (by omega) hq3 fun q' a b c => hlast q' a (by omega) c

end Sys2Proof.Machine
end

