-- ==== Sys2Proof/Laws/PerInstr.lean ====
section
/-! SUPPORT. Statements made for each instruction in turn. `SizeOfEncoding`: a token's encoding has the size R99 gives it,
and a command takes no byte of the stream. -/

namespace Sys2Proof.Laws.SizeOfEncoding

open Sys2Proof

/-- The encoding has the token's size (R99). -/
def Statement (i : Instr) : Prop := i.bytes.length = i.size ∨ i.wellFormed = false

theorem lit (data : List Byte) : Statement (.lit data) :=
  .inl (by simp [Instr.bytes, encode, Instr.size, Nat.add_comm])

theorem refs3 (off : Nat) : Statement (.refs3 off) := .inl rfl
theorem refs4 (off : Nat) : Statement (.refs4 off) := .inl rfl
theorem refs5 (off : Nat) : Statement (.refs5 off) := .inl rfl
theorem refs6 (off : Nat) : Statement (.refs6 off) := .inl rfl
theorem refs7 (off : Nat) : Statement (.refs7 off) := .inl rfl
theorem refs8 (off : Nat) : Statement (.refs8 off) := .inl rfl

theorem refl (len off : Nat) : Statement (.refl len off) := by
  by_cases h : len ≤ 8
  · exact .inr (by simp [Instr.wellFormed, longLenOk]; omega)
  · exact .inl (by simp [Instr.bytes, encode, encRef, Instr.size, h])

theorem compress : Statement .compress := .inl rfl
theorem decompress : Statement .decompress := .inl rfl

end Sys2Proof.Laws.SizeOfEncoding
end

