-- ==== Sys2Proof/Laws/Step.lean ====
section
/-! SUPPORT. What a step can do, said once, for every value of the open parameters; `step` is the case of this hardware. -/

namespace Sys2Proof.Machine

open Sys2Proof

theorem exec_eq_execWith (i : Instr) (s : State) : exec i s = execWith hardware i s := by cases i <;> rfl

theorem step_eq_stepWith (s : State) : step s = stepWith hardware s := by
  unfold step stepWith
  cases nextInstr s with
  | none => rfl
  | some i => simp only [exec_eq_execWith]

/-- A token runs alike in the dispatch, in the loop of DECOMPRESS, and for every parameter (P8). -/
theorem execWith_token (C : Config) {i : Instr} (h : i.isToken = true) (s : State) : execWith C i s = execToken i s := by
  cases i <;> first | rfl | simp [Instr.isToken] at h

/-- The fetched instruction is a token. -/
theorem fetchToken_isToken {s : State} {i : Instr} (h : fetchToken s = some i) : i.isToken = true := by
  unfold fetchToken at h
  split at h
  · cases h
  · split at h
    · cases h
    · split at h
      · rename_i hd
        cases h
        exact decodeToken_isToken hd
      · cases h

/-- Nothing is fetched at the end of the stream. -/
theorem fetchToken_end {s : State} (h : s.op.inLen.toNat ≤ s.ip) : fetchToken s = none := by
  have : ¬ s.ip < s.op.inLen.toNat := by omega
  simp [fetchToken, State.readIn, this]

/-- Nothing is fetched of a token that runs past the end (R193). -/
theorem fetchToken_truncated {s : State} (h : s.ip < s.op.inLen.toNat)
    (ht : s.op.inLen.toNat - s.ip < tokenSize (s.mem.read (s.op.inBase + s.ip))) : fetchToken s = none := by
  simp [fetchToken, readIn_ok h, ht]

/-- A complete token is fetched, from its own bytes (R192, R193). -/
theorem fetchToken_complete {s : State} (h : s.ip < s.op.inLen.toNat)
    (ht : tokenSize (s.mem.read (s.op.inBase + s.ip)) ≤ s.op.inLen.toNat - s.ip) :
    fetchToken s = some (tokenOf (s.mem.read (s.op.inBase + s.ip))
      (s.inputBytes (s.ip + 1) (tokenSize (s.mem.read (s.op.inBase + s.ip)) - 1))) := by
  have ht' : ¬(s.op.inLen.toNat - s.ip < tokenSize (s.mem.read (s.op.inBase + s.ip))) := by omega
  have hp := tokenSize_pos (s.mem.read (s.op.inBase + s.ip))
  simp only [fetchToken, readIn_ok h, if_neg ht', decode]
  obtain ⟨n, hn⟩ : ∃ n, tokenSize (s.mem.read (s.op.inBase + s.ip)) = n + 1 := ⟨_, (Nat.sub_add_cancel (by omega)).symm⟩
  rw [hn, inputBytes_succ, Nat.add_sub_cancel]
  simp [decodeToken, hn, List.take_of_length_le (Nat.le_of_eq (inputBytes_length s (s.ip + 1) n))]

/-- Everything a step can do. -/
theorem stepWith_cases (C : Config) (s : State) :
    (s.phase ≠ .busy ∧ s.start = false ∧ stepWith C s = .next s) ∨
    (s.phase ≠ .busy ∧ s.start = true ∧ stepWith C s = issue C s.regs.cmd s) ∨
    (s.phase = .busy ∧ s.start = true ∧ stepWith C s = .refused .startWhileBusy) ∨
    (s.phase = .busy ∧ s.start = false ∧ s.op.cmd = .compress ∧ stepWith C s = (encoderTurn C s).outcome) ∨
    (s.phase = .busy ∧ s.start = false ∧ s.op.cmd = .decompress ∧ s.op.inLen.toNat ≤ s.ip ∧
      stepWith C s = .next (decoderEnd s)) ∨
    (s.phase = .busy ∧ s.start = false ∧ s.op.cmd = .decompress ∧ s.ip < s.op.inLen.toNat ∧
      ∃ i, fetchToken s = some i ∧ i.isToken = true ∧ stepWith C s = execToken i s) ∨
    (s.phase = .busy ∧ s.start = false ∧ s.op.cmd = .decompress ∧ s.ip < s.op.inLen.toNat ∧
      fetchToken s = none ∧ stepWith C s = .next (truncatedToken s)) := by
  cases hp : s.phase <;> cases hs : s.start <;> simp only [stepWith, nextInstr, hp, hs] <;> try simp
  · cases hc : s.regs.cmd <;> simp [Cmd.instr, execWith, execCompressWith, execDecompressWith, hp]
  · cases hc : s.op.cmd
    · simp [execWith, execCompressWith, hp, hc]
    · by_cases hi : s.op.inLen.toNat ≤ s.ip
      · simp [fetchToken_end hi, execWith, execDecompressWith, hp, hc, hi]
      · cases hf : fetchToken s with
        | none => simp [execWith, execDecompressWith, hp, hc, hi, hf]; omega
        | some i =>
          have ht := fetchToken_isToken hf
          simp [execWith_token C ht, ht, hi]
          omega
  · cases hc : s.regs.cmd <;> simp [Cmd.instr, execWith, execCompressWith, execDecompressWith, hp]

/-- A token's step, in terms of its length, size and write (R190, R195, R197, R198). -/
theorem execToken_lit (data : List Byte) (s : State) :
    execToken (.lit data) s = whenDecoding s (runToken (encLit data.length) data.length (1 + data.length) (emit data)) := rfl

theorem execToken_ref {i : Instr} {n off : Nat} (h : i.backRef? = some (n, off)) (s : State) :
    execToken i s = runReference n off i.size s := by
  cases i <;> simp [Instr.backRef?] at h <;> obtain ⟨rfl, rfl⟩ := h <;> rfl

@[simp] theorem runWith_zero (C : Config) (s : State) : runWith C 0 s = .next s := rfl

theorem runWith_succ (C : Config) {s t : State} (k : Nat) (h : stepWith C s = .next t) :
    runWith C (k + 1) s = runWith C k t := by simp [runWith, h]

/-- An engine at rest stays as it is (R290). -/
theorem runWith_rest (C : Config) {s : State} (h1 : s.phase ≠ .busy) (h2 : s.start = false) (k : Nat) :
    runWith C k s = .next s := by
  have hs : stepWith C s = .next s := by
    rcases stepWith_cases C s with h | h | h | h | h | h | h
    · exact h.2.2
    · rw [h2] at h; exact absurd h.2.1 (by simp)
    all_goals exact absurd h.1 h1
  induction k with
  | zero => rfl
  | succ k ih => rw [runWith_succ C k hs, ih]

end Sys2Proof.Machine
end

