-- ==== Sys2Proof/Laws/Turn.lean ====
section
/-! SUPPORT. What one turn of either command can do, said once: the argument check, a flush, a turn of COMPRESS
(`encoderTurn_spec`) and a token of DECOMPRESS (`execToken_spec`). Later proofs cite these and unfold neither. -/

namespace Sys2Proof.Machine

open Sys2Proof

/-! ## Arguments and regions -/

/-- The argument check of COMPRESS passes exactly on arguments that are in order (R125). -/
theorem badArguments_compress (r : Operands) : badArguments (sampled .compress r) = false ↔ r.CompressArgs := by
  cases h1 : r.inPresent <;> cases h2 : r.outPresent <;> simp [badArguments, sampled, Operands.CompressArgs, h1, h2]
  tauto

/-- The argument check of DECOMPRESS passes exactly on arguments that are in order (R125). -/
theorem badArguments_decompress (r : Operands) : badArguments (sampled .decompress r) = false ↔ r.DecompressArgs := by
  cases h1 : r.inPresent <;> cases h2 : r.outPresent <;>
    simp [badArguments, sampled, Operands.DecompressArgs, h1, h2]

/-- The regions of a running command share no address (R64). -/
theorem State.RunInv.apart {s : State} (h : s.RunInv) (hb : s.phase = .busy) :
    ∀ j < s.op.inLen.toNat, ∀ w < s.op.outCap.toNat, s.op.inBase + j ≠ s.op.outBase + w := by
  obtain ⟨h1, h2, h3⟩ := h.operands hb
  intro j hj w hw
  have hB : s.op.outCap ≠ 0#32 := by rintro h'; rw [h'] at hw; simp at hw
  have hp : s.op.inPresent = true ∧ s.op.outPresent = true := by
    unfold badArguments at h2
    cases hc : s.op.cmd <;> cases hip : s.op.inPresent <;> cases hop : s.op.outPresent <;> simp_all
  exact h3 hp.1 hp.2 j hj w hw

/-! ## Bytes laid out in memory -/

theorem writeAll_append (m : Memory) (a : Nat) (x y : List Byte) :
    m.writeAll a (x ++ y) = (m.writeAll a x).writeAll (a + x.length) y := by
  induction x generalizing m a with
  | nil => rfl
  | cons b r ih => simp [Memory.writeAll, ih, Nat.add_assoc, Nat.add_comm 1]

theorem holdsAt_writeAll (m : Memory) (a : Nat) (bytes : List Byte) : holdsAt (m.writeAll a bytes) a bytes := by
  intro k h
  rw [Memory.read_writeAll, if_pos (by omega)]
  simp [List.getD_eq_getElem?_getD, h]

theorem unchangedOutside_writeAll (m : Memory) (a : Nat) (bytes : List Byte) :
    unchangedOutside a bytes.length m (m.writeAll a bytes) := by
  intro b hb
  rw [Memory.read_writeAll, if_neg (by omega)]

/-- Output that fits leaves the input bytes as they are (R64, R79). -/
theorem inByte_writeAll {s : State} (hd : ∀ j < s.op.inLen.toNat, ∀ w < s.op.outCap.toNat,
    s.op.inBase + j ≠ s.op.outBase + w) {bytes : List Byte} (hw : s.wp + bytes.length ≤ s.op.outCap.toNat) {j : Nat}
    (hj : j < s.op.inLen.toNat) :
    (s.mem.writeAll (s.op.outBase + s.wp) bytes).read (s.op.inBase + j) = s.mem.read (s.op.inBase + j) := by
  rw [Memory.read_writeAll, if_neg]
  rintro ⟨h1, h2⟩
  exact hd j hj (s.op.inBase + j - s.op.outBase) (by omega) (by omega)

theorem encRef_headD (len off : Nat) (c : Byte) : (encRef len off).headD c = refControl len off := by
  unfold encRef; split <;> rfl

/-! ## COMPRESS -/

/-- A flush writes the pending token where it fits, and ends the command with ESIZE where it does not (R162, R163). -/
theorem flushLit_cases {s : State} (hi : s.ls + s.ll ≤ s.op.inLen.toNat) (hw : s.wp ≤ s.op.outCap.toNat)
    (hd : ∀ j < s.op.inLen.toNat, ∀ w < s.op.outCap.toNat, s.op.inBase + j ≠ s.op.outBase + w) :
    (s.wp + s.pendingToken.length ≤ s.op.outCap.toNat ∧ flushLit s = .go { s with
        cb := s.pendingToken.headD s.cb, mem := s.mem.writeAll (s.op.outBase + s.wp) s.pendingToken,
        wp := s.wp + s.pendingToken.length, ll := 0, ls := s.ip }) ∨
    (s.op.outCap.toNat < s.wp + s.pendingToken.length ∧ flushLit s = .ended (raise .esize s)) := by
  by_cases h : s.ll = 0
  · left
    rw [flushLit_none h]
    simp [State.pendingToken, h, Memory.writeAll, hw]
  · have hl : s.pendingToken.length = 1 + s.ll := by simp [State.pendingToken, h]; omega
    rw [hl]
    by_cases hc : s.wp + (1 + s.ll) ≤ s.op.outCap.toNat
    · left
      refine ⟨hc, ?_⟩
      rw [flushLit_go h (by omega) hi hd]
      simp [State.pendingToken, h, encLit]
    · exact .inr ⟨by omega, flushLit_short h (by omega)⟩

/-- A match of `len` bytes with the candidate `p` is what the rules commit at `IP` (R158, R159). -/
structure Matched (C : Config) (s : State) (p len : Nat) : Prop where
  accepted : s.Accepted C p
  below : p < s.ip
  len_ge : 3 ≤ len
  len_le : len ≤ 264
  inside : s.ip + len ≤ s.op.inLen.toNat
  agree : ∀ k < len, s.inByte (p + k) = s.inByte (s.ip + k)
  maximal : len = 264 ∨ s.ip + len = s.op.inLen.toNat ∨ s.inByte (p + len) ≠ s.inByte (s.ip + len)

/-- `ht` is the table of `s` after positions of `IP .. IP+n-1` with three bytes were entered in ascending order. -/
structure Entered (C : Config) (s : State) (n : Nat) (ht : List (Nat × Nat)) : Prop where
  rising : risingFrom 0 s.ht = true → risingFrom 0 ht = true
  slots : ∀ e ∈ ht, e ∈ s.ht ∨
    (s.ip ≤ e.2 ∧ e.2 < s.ip + n ∧ e.2 + 3 ≤ s.op.inLen.toNat ∧ e.1 = s.hashOf C e.2)

/-- The table after `n` positions from `IP` on were entered, all of them: each slot holds the last of them. -/
structure EnteredAll (C : Config) (s : State) (n : Nat) (ht : List (Nat × Nat)) : Prop where
  last : ∀ q, s.ip ≤ q → q < s.ip + n → q + 3 ≤ s.op.inLen.toNat →
    (∀ q', q < q' → q' < s.ip + n → q' + 3 ≤ s.op.inLen.toNat → s.hashOf C q' ≠ s.hashOf C q) →
    slot ht (s.hashOf C q) = some q
  rest : ∀ j, (∀ q, s.ip ≤ q → q < s.ip + n → q + 3 ≤ s.op.inLen.toNat → s.hashOf C q ≠ j) → slot ht j = slot s.ht j

/-- The tokens a match writes: the pending run and the back-reference (R166). -/
def matchTokens (s : State) (p len : Nat) : List Byte := s.pendingToken ++ encRef len (s.ip - p)

/-- The token of a run that the byte at `IP` makes full (R161, R163). -/
def fullToken (s : State) : List Byte := encLit (s.ll + 1) :: s.inputBytes s.ls (s.ll + 1)

theorem fullToken_eq {s : State} (h : s.ll = 31) : fullToken s = 0x1F#8 :: s.inputBytes s.ls 32 := by
  simp [fullToken, h, encLit]

theorem fullToken_length {s : State} (h : s.ll = 31) : (fullToken s).length = 33 := by simp [fullToken_eq h]

/-- All that a turn of a running COMPRESS can come to. -/
inductive EncoderTurn (C : Config) (s : State) : Flow → Prop
  /-- a byte passed into the pending run (R161) -/
  | literal (cand : Option Nat) (ht : List (Nat × Nat)) (inside : s.ip < s.op.inLen.toNat)
      (none : ∀ p, ¬s.Accepted C p) (room : s.ll < 31) (entered : Entered C s 1 ht) (all : EnteredAll C s 1 ht)
      (look : s.ip + 3 ≤ s.op.inLen.toNat → cand = slot s.ht (s.hashOf C s.ip))
      (noLook : s.op.inLen.toNat < s.ip + 3 → cand = s.cand ∧ ht = s.ht) :
      EncoderTurn C s (.go { s with ip := s.ip + 1, ll := s.ll + 1, cand := cand, ht := ht })
  /-- a byte that fills the run, flushed (R161, R163) -/
  | filled (cand : Option Nat) (ht : List (Nat × Nat)) (inside : s.ip < s.op.inLen.toNat)
      (none : ∀ p, ¬s.Accepted C p) (full : s.ll = 31) (entered : Entered C s 1 ht) (all : EnteredAll C s 1 ht)
      (look : s.ip + 3 ≤ s.op.inLen.toNat → cand = slot s.ht (s.hashOf C s.ip))
      (noLook : s.op.inLen.toNat < s.ip + 3 → cand = s.cand ∧ ht = s.ht)
      (fits : s.wp + 33 ≤ s.op.outCap.toNat) :
      EncoderTurn C s (.go { s with
        ip := s.ip + 1, ll := 0, ls := s.ip + 1, wp := s.wp + 33, cb := 0x1F#8
        mem := s.mem.writeAll (s.op.outBase + s.wp) (fullToken s), cand := cand, ht := ht })
  /-- a match, committed (R160, R166) -/
  | matched (p len : Nat) (ht : List (Nat × Nat)) (found : Matched C s p len) (entered : Entered C s len ht)
      (all : C.hupd = .all → EnteredAll C s len ht) (start : C.hupd = .start → EnteredAll C s 1 ht)
      (fits : s.wp + (matchTokens s p len).length ≤ s.op.outCap.toNat) :
      EncoderTurn C s (.go { s with
        ip := s.ip + len, ll := 0, ls := s.ip + len, wp := s.wp + (matchTokens s p len).length
        cb := refControl len (s.ip - p), mlen := len, moff := s.ip - p, cand := some p, ht := ht
        mem := s.mem.writeAll (s.op.outBase + s.wp) (matchTokens s p len) })
  /-- the end of the input (R164) -/
  | ended (atEnd : s.ip = s.op.inLen.toNat) (fits : s.wp + s.pendingToken.length ≤ s.op.outCap.toNat) :
      EncoderTurn C s (.ended (finish (s.wp + s.pendingToken.length) { s with
        cb := s.pendingToken.headD s.cb, mem := s.mem.writeAll (s.op.outBase + s.wp) s.pendingToken
        wp := s.wp + s.pendingToken.length, ll := 0, ls := s.ip }))
  /-- a token that does not fit (R162) -/
  | short (u : State) (same : u.op = s.op ∧ u.regs = s.regs ∧ u.start = s.start ∧ u.countFirst = s.countFirst)
      (rising : risingFrom 0 s.ht = true → risingFrom 0 u.ht = true)
      (wf : s.mem.wf = true → u.mem.wf = true)
      (mem : unchangedOutside s.op.outBase s.op.outCap.toNat s.mem u.mem)
      (why : (s.ip < s.op.inLen.toNat ∧ (∀ p, ¬s.Accepted C p) ∧ s.ll = 31 ∧ s.op.outCap.toNat < s.wp + 33) ∨
        (∃ p len, Matched C s p len ∧ s.op.outCap.toNat < s.wp + (matchTokens s p len).length) ∨
        (s.ip = s.op.inLen.toNat ∧ s.op.outCap.toNat < s.wp + s.pendingToken.length)) :
      EncoderTurn C s (.ended (raise .esize u))

/-- The position at `IP` entered (R157). -/
theorem entered_here {C : Config} {s : State} (h3 : s.ip + 3 ≤ s.op.inLen.toNat) :
    Entered C s 1 (setSlot s.ht (s.hashOf C s.ip) s.ip) ∧ EnteredAll C s 1 (setSlot s.ht (s.hashOf C s.ip) s.ip) := by
  refine ⟨⟨fun h => setSlot_rising _ _ h, fun e he => ?_⟩, ⟨fun q h1 h2 _ _ => ?_, fun j hj => ?_⟩⟩
  · rcases mem_setSlot he with rfl | h
    · exact .inr ⟨Nat.le_refl _, by simp, h3, rfl⟩
    · exact .inl h
  · obtain rfl : q = s.ip := by omega
    simp [slot_setSlot]
  · rw [slot_setSlot, if_neg (Ne.symm (hj s.ip (Nat.le_refl _) (by omega) h3))]

/-- Nothing entered where fewer than three bytes are left (R155). -/
theorem entered_nothing {C : Config} {s : State} (h3 : s.op.inLen.toNat < s.ip + 3) :
    Entered C s 1 s.ht ∧ EnteredAll C s 1 s.ht :=
  ⟨⟨id, fun _ he => .inl he⟩, ⟨fun q _ _ _ _ => by omega, fun _ _ => rfl⟩⟩

/-- A literal step from a state that has looked up its candidate (R161). -/
theorem literalTurn_spec {C : Config} {s : State} (hr : s.RunInv) (hb : s.phase = .busy) (hc : s.op.cmd = .compress)
    (cand : Option Nat) (ht : List (Nat × Nat)) (inside : s.ip < s.op.inLen.toNat) (none : ∀ p, ¬s.Accepted C p)
    (entered : Entered C s 1 ht) (all : EnteredAll C s 1 ht)
    (look : s.ip + 3 ≤ s.op.inLen.toNat → cand = slot s.ht (s.hashOf C s.ip))
    (noLook : s.op.inLen.toNat < s.ip + 3 → cand = s.cand ∧ ht = s.ht) :
    EncoderTurn C s (literalTurn { s with cand := cand, ht := ht }) := by
  have hrun := hr.literalRun hb hc
  by_cases hl : s.ll < 31
  · rw [literalTurn, if_neg (by simp; omega)]
    exact .literal cand ht inside none hl entered all look noLook
  · have hl' : s.ll = 31 := by omega
    rw [literalTurn, if_pos (by simp [hl'])]
    have hp : State.pendingToken { s with cand := cand, ht := ht, ll := s.ll + 1, ip := s.ip + 1 } =
        fullToken s := by
      simp [fullToken_eq hl', State.pendingToken, hl', State.inputBytes]
    have hlen := fullToken_length hl'
    rcases flushLit_cases (s := { s with cand := cand, ht := ht, ll := s.ll + 1, ip := s.ip + 1 }) (by simp; omega)
      (hr.wpCap hb (.inl hc)) (hr.apart hb) with ⟨h1, h2⟩ | ⟨h1, h2⟩
    · rw [hp, hlen] at h1
      rw [h2, hp, hlen]
      have hcb : (fullToken s).headD s.cb = 0x1F#8 := by simp [fullToken_eq hl']
      simp only [hcb]
      exact .filled cand ht inside none hl' entered all look noLook h1
    · rw [hp, hlen] at h1
      rw [h2]
      exact .short _ ⟨rfl, rfl, rfl, rfl⟩ entered.rising id (fun _ _ => rfl) (.inl ⟨inside, none, hl', h1⟩)

/-- The hash of three input bytes is not changed by output that fits (R64). -/
theorem hashOf_writeAll {C : Config} {s : State} (hd : ∀ j < s.op.inLen.toNat, ∀ w < s.op.outCap.toNat,
    s.op.inBase + j ≠ s.op.outBase + w) {bytes : List Byte} (hw : s.wp + bytes.length ≤ s.op.outCap.toNat)
    {u : State} (hop : u.op = s.op) (hm : u.mem = s.mem.writeAll (s.op.outBase + s.wp) bytes) {q : Nat}
    (hq : q + 3 ≤ s.op.inLen.toNat) : slotOf C u q = s.hashOf C q := by
  simp only [slotOf, State.hashOf, State.inByte, hop, hm]
  rw [inByte_writeAll hd hw (by omega), inByte_writeAll hd hw (by omega), inByte_writeAll hd hw (by omega)]

/-- The table update after a match (R167). -/
theorem enterSkipped_spec {C : Config} {s u : State} {len : Nat} (h3 : s.ip + 3 ≤ s.op.inLen.toNat) (hlen : 3 ≤ len)
    (hop : u.op = s.op) (hip : u.ip = s.ip) (hml : u.mlen = len)
    (hht : u.ht = setSlot s.ht (s.hashOf C s.ip) s.ip)
    (hs : ∀ q, q + 3 ≤ s.op.inLen.toNat → slotOf C u q = s.hashOf C q) :
    ∃ ht, enterSkipped C u = .go { u with ht := ht } ∧ Entered C s len ht ∧ (C.hupd = .all → EnteredAll C s len ht) ∧
      (C.hupd = .start → EnteredAll C s 1 ht) := by
  have h0 := entered_here (C := C) h3
  cases hu : C.hupd with
  | start =>
    refine ⟨u.ht, by simp [enterSkipped, hu], ⟨hht ▸ h0.1.rising, fun e he => ?_⟩, fun h => (by cases h),
      fun _ => hht ▸ h0.2⟩
    exact (h0.1.slots e (hht ▸ he)).imp_right fun h => ⟨h.1, by omega, h.2.2⟩
  | all =>
    obtain ⟨ht, e1, e2, e3, e4, e5⟩ := enterAll_ok C (n := len - 1) (p := s.ip + 1) (s := u)
    rw [hop] at e3 e4 e5
    refine ⟨ht, by simp [enterSkipped, hu, hip, hml, e1], ⟨fun h => e2 (hht ▸ h0.1.rising h), fun e he => ?_⟩,
      fun _ => ⟨fun q h1 h2 hq hlast => ?_, fun j hj => ?_⟩, fun h => (by cases h)⟩
    · rcases e3 e he with h | ⟨a, b, c, d⟩
      · exact (h0.1.slots e (hht ▸ h)).imp_right fun h => ⟨h.1, by omega, h.2.2⟩
      · exact .inr ⟨by omega, by omega, c, by rw [d, hs _ c]⟩
    · by_cases h : q = s.ip
      · subst h
        rw [e5 (s.hashOf C s.ip) fun q' a b c => by rw [hs q' c]; exact hlast q' (by omega) (by omega) c, hht]
        simp [slot_setSlot]
      · have := e4 q (by omega) (by omega) hq fun q' a b c => by
          rw [hs q' c, hs q hq]; exact hlast q' a (by omega) c
        rwa [hs q hq] at this
    · rw [e5 j fun q' a b c => by rw [hs q' c]; exact hj q' (by omega) (by omega) c, hht, slot_setSlot,
        if_neg (Ne.symm (hj s.ip (Nat.le_refl _) (by omega) h3))]

/-- A match step from a state that has looked up its candidate and accepted it (R159, R160, R165 to R167). -/
theorem matchTurn_spec {C : Config} {s : State} {p : Nat} (hr : s.RunInv) (hb : s.phase = .busy)
    (hc : s.op.cmd = .compress) (ha : s.Accepted C p) :
    EncoderTurn C s (matchTurn C p { s with
      cand := some p, ht := setSlot s.ht (s.hashOf C s.ip) s.ip }) := by
  obtain ⟨h3, hs, hw, ht3⟩ := ha
  have hp : p < s.ip := (hr.table hb hc _ (slot_mem hs)).1
  have hd := hr.apart hb
  have hrun := hr.literalRun hb hc
  have hwp := hr.wpCap hb (.inl hc)
  obtain ⟨len, hl, hl3, hl264, hlin, hleq, hlmax⟩ := matchLength_ok (p := p)
    (s := { s with cand := some p, ht := setSlot s.ht (s.hashOf C s.ip) s.ip }) (Nat.le_of_lt hp) h3
  have hm : Matched C s p len :=
    ⟨⟨h3, hs, hw, ht3⟩, hp, hl3, hl264, hlin, fun k hk => if hk3 : k < 3 then ht3 k hk3 else hleq k (by omega) hk, hlmax⟩
  have hlen : (matchTokens s p len).length = s.pendingToken.length + refSize len := by
    simp [matchTokens, encRef_length]
  rw [matchTurn, hl]
  simp only
  rcases flushLit_cases (s := { s with
      cand := some p, ht := setSlot s.ht (s.hashOf C s.ip) s.ip, mlen := len, moff := s.ip - p }) (by simp; omega) hwp hd
    with ⟨h1, h2⟩ | ⟨h1, h2⟩
  · change s.wp + s.pendingToken.length ≤ s.op.outCap.toNat at h1
    rw [h2, go_andThen]
    by_cases hfit : s.wp + (matchTokens s p len).length ≤ s.op.outCap.toNat
    · rw [emitRef_go (by change s.wp + s.pendingToken.length + refSize len ≤ s.op.outCap.toNat; omega), go_andThen]
      have hmem : (s.mem.writeAll (s.op.outBase + s.wp) s.pendingToken).writeAll
          (s.op.outBase + (s.wp + s.pendingToken.length)) (encRef len (s.ip - p)) =
          s.mem.writeAll (s.op.outBase + s.wp) (matchTokens s p len) := by
        rw [matchTokens, writeAll_append, Nat.add_assoc]
      obtain ⟨ht, e1, e2, e3, e4⟩ := enterSkipped_spec (C := C) (s := s) (len := len) (u := { s with
          cb := refControl len (s.ip - p), mlen := len, moff := s.ip - p, cand := some p
          ht := setSlot s.ht (s.hashOf C s.ip) s.ip
          mem := s.mem.writeAll (s.op.outBase + s.wp) (matchTokens s p len)
          wp := s.wp + s.pendingToken.length + refSize len, ll := 0, ls := s.ip }) h3 hl3 rfl rfl rfl rfl
        (fun q hq => by refine hashOf_writeAll hd hfit ?_ ?_ hq <;> rfl)
      have key : ∀ x, x = Flow.go { s with
          cb := refControl len (s.ip - p), mlen := len, moff := s.ip - p, cand := some p, ht := ht
          mem := s.mem.writeAll (s.op.outBase + s.wp) (matchTokens s p len)
          wp := s.wp + s.pendingToken.length + refSize len, ll := 0, ls := s.ip } →
          EncoderTurn C s (x.andThen fun v => .go { v with ip := v.ip + v.mlen, ls := v.ip + v.mlen }) := by
        rintro _ rfl
        have := EncoderTurn.matched p len ht hm e2 e3 e4 hfit
        rw [hlen, ← Nat.add_assoc] at this
        exact this
      refine key _ ?_
      rw [← e1, ← hmem]
      rfl
    · rw [emitRef_short (by change s.op.outCap.toNat - (s.wp + s.pendingToken.length) < refSize len; omega), ended_andThen]
      exact .short _ ⟨rfl, rfl, rfl, rfl⟩ (entered_here h3).1.rising (fun h => Memory.writeAll_wf _ _ h)
        (fun a h => unchangedOutside_writeAll s.mem (s.op.outBase + s.wp) s.pendingToken a (by omega))
        (.inr (.inl ⟨p, len, hm, by omega⟩))
  · change s.op.outCap.toNat < s.wp + s.pendingToken.length at h1
    rw [h2, ended_andThen]
    exact .short _ ⟨rfl, rfl, rfl, rfl⟩ (entered_here h3).1.rising id (fun _ _ => rfl)
      (.inr (.inl ⟨p, len, hm, by omega⟩))

/-- A turn of a running COMPRESS comes to one of the five, and to no fault (R152 to R167). -/
theorem encoderTurn_spec (C : Config) {s : State} (hr : s.RunInv) (hb : s.phase = .busy) (hc : s.op.cmd = .compress) :
    EncoderTurn C s (encoderTurn C s) := by
  have hrun := hr.literalRun hb hc
  by_cases hi : s.ip < s.op.inLen.toNat
  · by_cases h3 : s.ip + 3 ≤ s.op.inLen.toNat
    · obtain ⟨a, ha, ha'⟩ := acceptCandidate_ok (s := { s with
        cand := slot s.ht (slotOf C s s.ip), ht := setSlot s.ht (slotOf C s s.ip) s.ip }) h3
        fun p hp => (hr.table hb hc _ (slot_mem hp)).2
      rw [encoderTurn, if_pos hi, if_pos (by omega), probe_ok h3]
      simp only [ha]
      cases a with
      | none =>
        exact literalTurn_spec hr hb hc _ _ hi
          (fun p hp => Option.noConfusion rfl (heq_of_eq ((ha' p).2 ⟨hp.2.1, hp.2.2.1, hp.2.2.2⟩)))
          (entered_here h3).1 (entered_here h3).2 (fun _ => rfl) fun h => by omega
      | some p =>
        obtain ⟨h1, h2, h4⟩ := (ha' p).1 rfl
        have h1' : slot s.ht (slotOf C s s.ip) = some p := h1
        simp only [h1']
        exact matchTurn_spec hr hb hc ⟨h3, h1, h2, h4⟩
    · rw [encoderTurn, if_pos hi, if_neg (by omega)]
      have := literalTurn_spec (C := C) hr hb hc s.cand s.ht hi (fun p hp => h3 hp.1) (entered_nothing (by omega)).1
        (entered_nothing (by omega)).2 (fun h => absurd h h3) fun _ => ⟨rfl, rfl⟩
      exact this
  · have he : s.ip = s.op.inLen.toNat := Nat.le_antisymm (hr.cursor hb) (Nat.le_of_not_lt hi)
    rw [encoderTurn, if_neg hi]
    rcases flushLit_cases (s := s) (by omega) (hr.wpCap hb (.inl hc)) (hr.apart hb) with ⟨h1, h2⟩ | ⟨h1, h2⟩
    · rw [h2, go_andThen]
      exact .ended he h1
    · rw [h2, ended_andThen]
      exact .short _ ⟨rfl, rfl, rfl, rfl⟩ id id (fun _ _ => rfl) (.inr (.inr ⟨he, h1⟩))

/-! ## DECOMPRESS -/

/-- A token is run by the shared shape of R190, with its control byte, output length and size. -/
theorem execToken_shape {i : Instr} (ht : i.isToken = true) (s : State) :
    ∃ write, execToken i s = whenDecoding s (runToken (i.bytes.headD 0#8) i.outSize i.size write) ∧
      (∀ data, i = .lit data → write = emit data) ∧
      (∀ n off, i.backRef? = some (n, off) → write = copyReference n off) := by
  cases i with
  | lit data => exact ⟨emit data, rfl, fun d h => by cases h; rfl, fun n off h => by cases h⟩
  | compress => cases ht
  | decompress => cases ht
  | refl len off =>
    refine ⟨copyReference len off, ?_, fun d h => (by cases h), fun n o h => (by cases h; rfl)⟩
    simp only [Instr.bytes, encode, encRef_headD]
    rfl
  | _ off =>
    refine ⟨copyReference _ off, ?_, fun d h => (by cases h), fun n o h => (by cases h; rfl)⟩
    simp only [Instr.bytes, encode, encRef_headD]
    rfl

/-- A token is a LIT or a back-reference, whose output length is then its length. -/
theorem token_kind {i : Instr} (ht : i.isToken = true) :
    (∃ data, i = .lit data ∧ i.outSize = data.length) ∨ ∃ n off, i.backRef? = some (n, off) ∧ i.outSize = n := by
  cases i <;> first | exact .inl ⟨_, rfl, rfl⟩ | exact .inr ⟨_, _, rfl, rfl⟩ | cases ht

/-- The ranges of a back-reference that has an encoding (R95, R97). -/
theorem backRef_range {i : Instr} {n off : Nat} (hr : i.backRef? = some (n, off)) (hw : i.wellFormed = true) :
    3 ≤ n ∧ n ≤ 264 ∧ 1 ≤ off ∧ off ≤ 8192 := by
  cases i <;> simp [Instr.backRef?] at hr <;> obtain ⟨rfl, rfl⟩ := hr <;>
    simp [Instr.wellFormed, offsetOk, longLenOk] at hw <;> omega

/-- All that a token of a running DECOMPRESS can come to. -/
inductive TokenTurn (i : Instr) (s : State) : Host.Outcome State Fault Refusal → Prop
  /-- in COUNT mode (R232) -/
  | counted (mode : s.mode = .count) :
      TokenTurn i s (.next { s with cb := i.bytes.headD 0#8, wp := sat (s.wp + i.outSize), ip := s.ip + i.size })
  /-- in WRITE mode, where it does not fit (R194) -/
  | short (mode : s.mode = .write) (tooLong : s.op.outCap.toNat - s.wp < i.outSize) :
      TokenTurn i s (.next { s with
        cb := i.bytes.headD 0#8, mode := .count, countFirst := decide (s.ip = 0)
        wp := sat (s.wp + i.outSize), ip := s.ip + i.size })
  /-- a LIT, written (R195) -/
  | literal (data : List Byte) (is : i = .lit data) (mode : s.mode = .write)
      (fits : s.wp + data.length ≤ s.op.outCap.toNat) :
      TokenTurn i s (.next { s with
        cb := i.bytes.headD 0#8, mem := s.mem.writeAll (s.op.outBase + s.wp) data
        wp := s.wp + data.length, ip := s.ip + i.size })
  /-- a back-reference, copied (R200) -/
  | copied (n off : Nat) (is : i.backRef? = some (n, off)) (mode : s.mode = .write)
      (fits : s.wp + n ≤ s.op.outCap.toNat) (back : off ≤ s.wp) :
      TokenTurn i s (.next { s with
        cb := i.bytes.headD 0#8, mlen := n, moff := off
        mem := s.mem.writeAll (s.op.outBase + s.wp) (referenceBytes { s with moff := off } n)
        wp := s.wp + n, ip := s.ip + i.size })
  /-- a back-reference with a bad offset (R199) -/
  | bad (n off : Nat) (is : i.backRef? = some (n, off)) (mode : s.mode = .write)
      (fits : n ≤ s.op.outCap.toNat - s.wp) (back : s.wp < off) :
      TokenTurn i s (.next (raise .ecorrupt { s with cb := i.bytes.headD 0#8, mlen := n, moff := off }))

/-- A token of a running DECOMPRESS comes to one of the five, and to no fault or refusal (R190 to R201, R232). -/
theorem execToken_spec {i : Instr} {s : State} (ht : i.isToken = true) (hw : i.wellFormed = true) (hb : s.phase = .busy)
    (hc : s.op.cmd = .decompress) : TokenTurn i s (execToken i s) := by
  obtain ⟨write, he, hl, hr⟩ := execToken_shape ht s
  rw [he, whenDecoding_of hb hc]
  cases hm : s.mode with
  | count =>
    rw [runToken_count hm]
    exact .counted hm
  | write =>
    by_cases hfit : i.outSize ≤ s.op.outCap.toNat - s.wp
    swap
    · rw [runToken_short hm (by omega)]
      exact .short hm (by omega)
    rw [runToken_write hm hfit]
    rcases token_kind ht with ⟨data, h1, h2⟩ | ⟨n, off, h1, h2⟩
    · have hpos : 1 ≤ data.length := by subst h1; simp [Instr.wellFormed, literalOk] at hw; omega
      rw [hl data h1, emit_go (by change s.wp + data.length ≤ s.op.outCap.toNat; omega)]
      exact .literal data h1 hm (by omega)
    · have hrange := backRef_range h1 hw
      rw [hr n off h1, copyReference]
      by_cases ho : off ≤ s.wp
      · rw [if_neg (Nat.not_lt.2 ho), copyBack_go (by simpa using hrange.2.2.1) (by simpa using ho)
          (by change s.wp + n ≤ s.op.outCap.toNat; omega)]
        exact .copied n off h1 hm (by omega) ho
      · rw [if_pos (Nat.lt_of_not_le ho)]
        exact .bad n off h1 hm (by omega) (by omega)

/-- The token of any control byte and as many bytes as it asks for is well formed and has that size (R92 to R99). -/
theorem tokenOf_wellFormed {cb : Byte} {rest : List Byte} (h : rest.length = tokenSize cb - 1) :
    (tokenOf cb rest).wellFormed = true ∧ (tokenOf cb rest).size = tokenSize cb := by
  have hcb := cb.isLt
  have ho := fun low => assembleOffset_range cb low
  simp only [offMax_eq] at ho
  unfold tokenOf
  unfold tokenSize at h ⊢
  have hf : formatBits cb = cb.toNat / 32 := rfl
  split <;> rename_i hk <;> rw [hf] at hk
  · rw [if_pos (by omega)] at h ⊢
    simp [Instr.wellFormed, literalOk, Instr.size]
    omega
  all_goals first
    | (rw [if_neg (by omega), if_pos (by omega)]
       simp [Instr.wellFormed, offsetOk, Instr.size, ho])
    | (have : 7 ≤ cb.toNat / 32 := by
         have := formatBits_lt cb
         by_contra hlt
         have h7 : cb.toNat / 32 = 0 ∨ cb.toNat / 32 = 1 ∨ cb.toNat / 32 = 2 ∨ cb.toNat / 32 = 3 ∨ cb.toNat / 32 = 4 ∨
           cb.toNat / 32 = 5 ∨ cb.toNat / 32 = 6 := by omega
         rcases h7 with h | h | h | h | h | h | h <;> simp_all
       rw [if_neg (by omega), if_neg (by omega)]
       have hb := (rest.getD 0 0).isLt
       simp [Instr.wellFormed, offsetOk, longLenOk, Instr.size, ho] at hb ⊢
       omega)

/-- A fetched token is well formed and lies within the input (R192, R193). -/
theorem fetchToken_spec {s : State} {i : Instr} (h : fetchToken s = some i) :
    i.isToken = true ∧ i.wellFormed = true ∧ 2 ≤ i.size ∧ s.ip + i.size ≤ s.op.inLen.toNat := by
  by_cases hi : s.ip < s.op.inLen.toNat
  swap
  · rw [fetchToken_end (by omega)] at h; cases h
  by_cases ht : s.op.inLen.toNat - s.ip < tokenSize (s.mem.read (s.op.inBase + s.ip))
  · rw [fetchToken_truncated hi ht] at h; cases h
  rw [fetchToken_complete hi (by omega)] at h
  cases h
  have hp := tokenSize_pos (s.mem.read (s.op.inBase + s.ip))
  have := tokenOf_wellFormed (cb := s.mem.read (s.op.inBase + s.ip))
    (rest := s.inputBytes (s.ip + 1) (tokenSize (s.mem.read (s.op.inBase + s.ip)) - 1)) (by simp)
  exact ⟨tokenOf_isToken _ _, this.1, by omega, by omega⟩

/-! ## The host's side -/

/-- Outside the output region nothing is forgotten (R291). -/
theorem forgetOutput_read (r : Operands) (stamp : Nat) (m : Memory) {a : Nat}
    (h : a < r.outBase ∨ r.outBase + r.outCap.toNat ≤ a) : (forgetOutput r stamp m).read a = m.read a := by
  unfold forgetOutput
  split
  · exact Memory.read_forget h
  · rfl

/-- An absent output region is no region (R33). -/
theorem forgetOutput_absent {r : Operands} (h : r.outPresent = false) (stamp : Nat) (m : Memory) :
    forgetOutput r stamp m = m := by simp [forgetOutput, h]

theorem forgetOutput_wf (r : Operands) (stamp : Nat) {m : Memory} (h : m.wf = true) :
    (forgetOutput r stamp m).wf = true := by
  unfold forgetOutput
  split
  · exact Memory.forget_wf _ _ _ h
  · exact h

/-- The wrap test is the obligation of R296. -/
theorem wraps_eq_false_iff (C : Config) (r : Operands) : wraps C r = false ↔ r.NoWrap C := by
  unfold wraps Operands.NoWrap fits
  cases C.addrW with
  | none => simp
  | some w => cases r.inPresent <;> cases r.outPresent <;> simp

/-- No obligation is broken exactly where no region wraps and the two share no address (R296, R297). -/
theorem brokenObligation_eq_none_iff (C : Config) (r : Operands) :
    brokenObligation C r = none ↔ r.NoWrap C ∧ r.Disjoint := by
  rw [← wraps_eq_false_iff, Operands.Disjoint, ← overlap_eq_false_iff, brokenObligation]
  cases wraps C r <;> cases overlap r <;> simp

/-- All that a reset event can come to (R290, R291, R299, R301). -/
inductive ResetTurn (C : Config) (s : State) : Host.Outcome State Fault Refusal → Prop
  /-- a second `START` beside a running command -/
  | doubled (busy : s.phase = .busy) (start : s.start = true) : ResetTurn C s (.refused .startWhileBusy)
  /-- no command to abandon: memory is kept -/
  | calm (rest : s.busyToHost = false) :
      ResetTurn C s (.next { State.reset with mem := s.mem, freeTick := s.freeTick + 1 })
  /-- a command, abandoned -/
  | abandons (r : Operands) (is : abandoned s = some r) (noWrap : r.NoWrap C) (disjoint : r.Disjoint) :
      ResetTurn C s (.next { State.reset with mem := forgetOutput r s.freeTick s.mem, freeTick := s.freeTick + 1 })
  /-- a command that breaks R296 or R297 -/
  | broken (r : Operands) (f : Refusal) (is : abandoned s = some r) (bad : ¬(r.NoWrap C ∧ r.Disjoint)) :
      ResetTurn C s (.refused f)

/-- A reset event comes to one of the four. -/
theorem resetEvent_spec (C : Config) (s : State) : ResetTurn C s (resetEvent C s) := by
  unfold resetEvent
  split
  · rename_i h; exact .doubled h.1 h.2
  · rename_i h
    cases ha : abandoned s with
    | none =>
      refine .calm ?_
      unfold abandoned at ha
      cases hp : s.phase <;> simp_all [State.busyToHost]
    | some r =>
      cases hk : brokenObligation C r with
      | none =>
        obtain ⟨h1, h2⟩ := (brokenObligation_eq_none_iff C r).1 hk
        simpa [memoryAfterReset, hk] using ResetTurn.abandons r ha h1 h2
      | some f =>
        simpa [memoryAfterReset, hk] using ResetTurn.broken (C := C) r f ha fun h => by
          simp [(brokenObligation_eq_none_iff C r).2 h] at hk

/-- Host writes, one after the other. -/
def hostWrites (C : Config) : List (Reg × Nat) → State → Host.Outcome State Fault Refusal
  | [], s => .next s
  | (r, v) :: rest, s =>
    match hostWrite C r v s with
    | .next t => hostWrites C rest t
    | .fault f => .fault f
    | .refused f => .refused f

/-- The registers of a software call are what its host writes leave in them (R123, log 8). -/
theorem hostWrites_call (C : Config) (c : Cmd) (ibuf obuf : Option Nat) (ilen olen : Len) {s : State}
    (h : s.busyToHost = false) (hk : brokenObligation C (callOperands C c ibuf ilen obuf olen) = none) :
    hostWrites C [(.cmd, c.bit.toNat), (.inPresent, bitValue ibuf.isSome), (.inBase, ibuf.getD 0), (.inLen, ilen.toNat),
        (.outPresent, bitValue obuf.isSome), (.outBase, obuf.getD 0), (.outCap, olen.toNat), (.start, 1)] s =
      .next { s with regs := callOperands C c ibuf ilen obuf olen, start := true } := by
  have hb : ∀ b : Bool, decide (bitValue b % 2 = 1) = b := by decide
  have hc : commandOfBit c.bit = c := by cases c <;> rfl
  simp only [State.busyToHost, Bool.or_eq_false_iff] at h
  unfold callOperands at hk ⊢
  simp [hostWrites, hostWrite, Reg.access, State.busyToHost, h.1, h.2, hb, hc, lowBit, hk]

end Sys2Proof.Machine
end

