-- ==== Sys2Proof/Tests/Slice0.lean ====
section
/-! SUPPORT. The model's own tests: refused ill-formed terms, words written out from the spec's formats, single steps and
short commands from the spec's vectors (95_test_vectors.md), and a witness for the hypotheses of each statement. -/

namespace Sys2Proof.Tests

open Sys2Proof Sys2Proof.Machine

/-! ## WellFormed refuses the ill-formed (R92 to R97) -/

theorem test_lit_empty_refused : (Instr.lit []).wellFormed = false := by decide
theorem test_lit_33_refused : (Instr.lit (List.replicate 33 0#8)).wellFormed = false := by decide
theorem test_lit_bounds_accepted :
    (Instr.lit [0#8]).wellFormed = true ∧ (Instr.lit (List.replicate 32 0#8)).wellFormed = true := by decide
theorem test_refs_offset_0_refused :
    (Instr.refs3 0).wellFormed = false ∧ (Instr.refs4 0).wellFormed = false ∧ (Instr.refs5 0).wellFormed = false ∧
    (Instr.refs6 0).wellFormed = false ∧ (Instr.refs7 0).wellFormed = false ∧ (Instr.refs8 0).wellFormed = false := by
  decide
theorem test_refs_offset_8193_refused :
    (Instr.refs3 8193).wellFormed = false ∧ (Instr.refs4 8193).wellFormed = false ∧
    (Instr.refs5 8193).wellFormed = false ∧ (Instr.refs6 8193).wellFormed = false ∧
    (Instr.refs7 8193).wellFormed = false ∧ (Instr.refs8 8193).wellFormed = false := by decide
theorem test_refl_length_8_and_265_refused :
    (Instr.refl 8 1).wellFormed = false ∧ (Instr.refl 265 1).wellFormed = false := by decide
theorem test_refl_offset_0_and_8193_refused :
    (Instr.refl 9 0).wellFormed = false ∧ (Instr.refl 9 8193).wellFormed = false := by decide
theorem test_bounds_accepted :
    (Instr.refs3 1).wellFormed = true ∧ (Instr.refs8 8192).wellFormed = true ∧ (Instr.refl 9 1).wellFormed = true ∧
    (Instr.refl 264 8192).wellFormed = true := by decide

/-! ## Decoding: words written out from R92 to R94 and R107, bit by bit (spec vectors T1 to T17) -/

/-- The decoder's answer is this token, with these bytes after it. -/
def decodesTo (bytes : List Byte) (i : Instr) (rest : List Byte) : Bool :=
  match decodeToken bytes with
  | .ok (j, r) => decide (j = i ∧ r = rest)
  | .error _ => false

/-- The decoder finds too few bytes. -/
def isTruncated (bytes : List Byte) : Bool :=
  match decodeToken bytes with
  | .ok _ => false
  | .error .truncated => true
  | .error .endOfStream => false

theorem test_decode_lit : decodesTo [0b00000001#8, 0x61#8, 0x62#8, 0xE0#8] (.lit [0x61#8, 0x62#8]) [0xE0#8] = true := by
  decide
theorem test_decode_lit_32 :
    decodesTo (0b00011111#8 :: List.replicate 32 7#8) (.lit (List.replicate 32 7#8)) [] = true := by decide
theorem test_decode_refs3 : decodesTo [0b00100001#8, 0x00#8] (.refs3 257) [] = true ∧
    decodesTo [0b00111111#8, 0xFF#8] (.refs3 8192) [] = true := by decide
theorem test_decode_refs4 : decodesTo [0b01000000#8, 0xFF#8] (.refs4 256) [] = true := by decide
theorem test_decode_refs5 : decodesTo [0b01100010#8, 0x01#8] (.refs5 514) [] = true := by decide
theorem test_decode_refs6 : decodesTo [0b10000000#8, 0x02#8] (.refs6 3) [] = true := by decide
theorem test_decode_refs7 : decodesTo [0b10110000#8, 0x00#8] (.refs7 4097) [] = true := by decide
theorem test_decode_refs8 : decodesTo [0b11000000#8, 0x00#8] (.refs8 1) [] = true ∧
    decodesTo [0b11011111#8, 0xFF#8] (.refs8 8192) [] = true := by decide
theorem test_decode_refl : decodesTo [0b11100000#8, 0x16#8, 0x00#8] (.refl 31 1) [] = true ∧
    decodesTo [0b11111111#8, 0xFF#8, 0xFF#8] (.refl 264 8192) [] = true ∧
    decodesTo [0b11111111#8, 0x00#8, 0x00#8] (.refl 9 7937) [] = true := by decide
theorem test_decode_compress : decodeTableWord 8 0b0 = some .compress := by decide
theorem test_decode_decompress : decodeTableWord 8 0b1 = some .decompress := by decide
theorem test_decode_truncated :
    isTruncated [0x00#8] = true ∧ isTruncated [0x01#8, 0x61#8] = true ∧ isTruncated [0x80#8] = true ∧
    isTruncated [0xE0#8, 0x16#8] = true ∧ isTruncated (0x1F#8 :: List.replicate 31 0#8) = true := by decide
theorem test_table_word_refl : decodeTableWord 24 0x0016E0 = some (.refl 31 1) := by decide

/-! ## The default hash (spec vectors H2, H4, H5, H8, H9 and those of other `HLOG`) -/

theorem test_hash_16 :
    defaultHash 16 0x61#8 0x62#8 0x63#8 = 0xFEFF ∧ defaultHash 16 0x62#8 0x63#8 0x61#8 = 0xFF02 ∧
    defaultHash 16 0x63#8 0x61#8 0x62#8 = 0x01FF ∧ defaultHash 16 0#8 0#8 1#8 = 0xFFFF ∧
    defaultHash 16 1#8 0#8 0#8 = 0x0100 := by decide
theorem test_hash_other :
    defaultHash 8 0x61#8 0x62#8 0x63#8 = 254 ∧ defaultHash 1 0x61#8 0x62#8 0x63#8 = 1 ∧
    defaultHash 1 0x62#8 0x63#8 0x64#8 = 0 ∧ defaultHash 24 0xFF#8 0#8 1#8 = 0 := by decide

/-! ## Small states -/

/-- A command on the input region at 16 and the output region at 64, both present. -/
def regsOf (c : Cmd) (inLen outCap : Nat) : Operands :=
  { cmd := c, inPresent := true, inBase := 16, inLen := BitVec.ofNat 32 inLen
    outPresent := true, outBase := 64, outCap := BitVec.ofNat 32 outCap }

/-- The command is written and started, on these input bytes. -/
def started (c : Cmd) (input : List Byte) (cap : Nat) : State :=
  { State.reset with
    regs := regsOf c input.length cap, start := true, mem := State.reset.mem.writeAll 16 input }

/-- The command is running on these input bytes, at these cursors. -/
def running (c : Cmd) (input : List Byte) (cap ip wp : Nat) (mode : Mode) : State :=
  { State.reset with
    regs := regsOf c input.length cap, op := regsOf c input.length cap, phase := .busy, ip := ip, wp := wp, mode := mode
    mem := State.reset.mem.writeAll 16 input }

/-- A running DECOMPRESS whose first `wp` output bytes are `out`. -/
def decodingFrom (input out : List Byte) (cap ip : Nat) (mode : Mode) : State :=
  let s := running .decompress input cap ip out.length mode
  { s with mem := s.mem.writeAll 64 out }

/-- The outcome is a next state with the property. -/
def nextHas (o : Host.Outcome State Fault Refusal) (p : State → Bool) : Bool :=
  match o with
  | .next t => p t
  | .fault _ => false
  | .refused _ => false

theorem exists_next {o : Host.Outcome State Fault Refusal} {p : State → Bool} (h : nextHas o p = true) :
    ∃ t, o = .next t ∧ p t = true := by
  cases o with
  | next t => exact ⟨t, rfl, h⟩
  | fault f => cases h
  | refused r => cases h

/-- The command ends, in a state with the property. -/
def endsWith (C : Config) (s : State) (p : State → Bool) : Bool :=
  nextHas (runWith C (stepBound s.regs.inLen.toNat) s) fun t => decide (t.phase = .done) && p t

theorem exists_ends {C : Config} {s : State} {p : State → Bool} (h : endsWith C s p = true) :
    ∃ t, Ends C s t ∧ p t = true := by
  obtain ⟨t, ht, hp⟩ := exists_next h
  simp only [Bool.and_eq_true, decide_eq_true_eq] at hp
  exact ⟨t, ⟨ht, hp.1⟩, hp.2⟩

/-- The response OK with these output bytes. -/
def okWith (out : List Byte) (t : State) : Bool :=
  decide (t.status = 0x00#8 ∧ t.rlenWr = true ∧ t.rlen.toNat = out.length ∧ outputOf t.op t.mem out.length = out)

/-- The response ESIZE with a length. -/
def shortWith (n : Nat) (t : State) : Bool := decide (t.status = 0xFF#8 ∧ t.rlenWr = true ∧ t.rlen.toNat = n)

/-- A failure that stores no length. -/
def badWith (code : Byte) (t : State) : Bool := decide (t.status = code ∧ t.rlenWr = false)

/-! ## Single steps and short commands, from the spec's vectors -/

/-- PR1 step 1: LIT "ab" at `IP = 0`, `WP = 0`. -/
theorem test_lit_step :
    nextHas (step (running .decompress [0x01#8, 0x61#8, 0x62#8, 0x60#8, 0x01#8] 16 0 0 .write)) (fun t =>
      decide (t.ip = 3 ∧ t.wp = 2 ∧ t.cb = 0x01#8 ∧ t.mem.read 64 = 0x61#8 ∧ t.mem.read 65 = 0x62#8)) = true := by decide

/-- W2: `REFS 3, 1` after one byte. -/
theorem test_refs3_step : nextHas (step (decodingFrom [0x00#8, 0x61#8, 0x20#8, 0x00#8] [0x61#8] 4 2 .write)) (fun t =>
    decide (t.ip = 4 ∧ t.wp = 4 ∧ outputOf t.op t.mem 4 = [0x61#8, 0x61#8, 0x61#8, 0x61#8])) = true := by decide

/-- `REFS 4, 2`: each byte read after the one before is written (R200). -/
theorem test_refs4_step : nextHas (exec (.refs4 2) (decodingFrom [0x40#8, 0x01#8] [1#8, 2#8] 6 0 .write)) (fun t =>
    decide (t.wp = 6 ∧ outputOf t.op t.mem 6 = [1#8, 2#8, 1#8, 2#8, 1#8, 2#8])) = true := by decide

/-- PR1 step 2: `REFS 5, 2` after "ab" gives "abababa". -/
theorem test_refs5_step :
    nextHas (step (decodingFrom [0x01#8, 0x61#8, 0x62#8, 0x60#8, 0x01#8, 0xE0#8, 0x00#8, 0x06#8] [0x61#8, 0x62#8] 16 3 .write))
      (fun t => decide (t.ip = 5 ∧ t.wp = 7 ∧ t.mlen = 5 ∧ t.moff = 2 ∧
        outputOf t.op t.mem 7 = [0x61#8, 0x62#8, 0x61#8, 0x62#8, 0x61#8, 0x62#8, 0x61#8])) = true := by decide

/-- W4: `REFS 6, 3` at `WP = 3`, copy from index 0. -/
theorem test_refs6_step :
    nextHas (step (decodingFrom [0x02#8, 0x61#8, 0x62#8, 0x63#8, 0x80#8, 0x02#8] [0x61#8, 0x62#8, 0x63#8] 9 4 .write))
      (fun t => decide (t.ip = 6 ∧ t.wp = 9 ∧
        outputOf t.op t.mem 9 = [0x61#8, 0x62#8, 0x63#8, 0x61#8, 0x62#8, 0x63#8, 0x61#8, 0x62#8, 0x63#8])) = true := by
  decide

/-- `REFS 7, 2` with `WP = 1` is a bad offset (R199). -/
theorem test_refs7_bad_offset : nextHas (exec (.refs7 2) (decodingFrom [0xA0#8, 0x01#8] [1#8] 8 0 .write)) (fun t =>
    decide (t.phase = .done) && badWith 0xFE#8 t) = true := by decide

/-- W4b: `REFS 8, 1`. -/
theorem test_refs8_step : nextHas (step (decodingFrom [0x00#8, 0x61#8, 0xC0#8, 0x00#8] [0x61#8] 9 2 .write)) (fun t =>
    decide (t.ip = 4 ∧ t.wp = 9 ∧ outputOf t.op t.mem 9 = List.replicate 9 0x61#8)) = true := by decide

/-- PR1 step 3: `REFL 9, 7` after "abababa". -/
theorem test_refl_step :
    nextHas (step (decodingFrom [0x01#8, 0x61#8, 0x62#8, 0x60#8, 0x01#8, 0xE0#8, 0x00#8, 0x06#8]
        [0x61#8, 0x62#8, 0x61#8, 0x62#8, 0x61#8, 0x62#8, 0x61#8] 16 5 .write))
      (fun t => decide (t.ip = 8 ∧ t.wp = 16 ∧
        outputOf t.op t.mem 16 = [0x61#8, 0x62#8, 0x61#8, 0x62#8, 0x61#8, 0x62#8, 0x61#8, 0x61#8,
          0x62#8, 0x61#8, 0x62#8, 0x61#8, 0x62#8, 0x61#8, 0x61#8, 0x62#8])) = true := by decide

/-- PR1 with `OUT_CAP = 15`: the third token does not fit and is counted. -/
theorem test_refl_short :
    nextHas (step (decodingFrom [0x01#8, 0x61#8, 0x62#8, 0x60#8, 0x01#8, 0xE0#8, 0x00#8, 0x06#8]
        [0x61#8, 0x62#8, 0x61#8, 0x62#8, 0x61#8, 0x62#8, 0x61#8] 15 5 .write))
      (fun t => decide (t.ip = 8 ∧ t.wp = 16 ∧ t.mode = .count)) = true := by decide

/-- R236: the sum saturates. -/
theorem test_count_saturates :
    nextHas (step (running .decompress [0xE0#8, 0xFF#8, 0x00#8] 0 0 4294967200 .count))
      (fun t => decide (t.wp = 4294967295 ∧ t.ip = 3)) = true := by decide

/-- A placed word runs as the next step: `REFL 9, 1` (counted, the capacity after reset being the model's 0), and COMPRESS. -/
theorem test_fetch_word :
    nextHas (step (State.reset.withFetchWord 24 0x0000E0)) (fun t => decide (t.ip = 3 ∧ t.wp = 9 ∧ t.mode = .count)) = true ∧
    nextHas (step (State.reset.withFetchWord 8 0x0)) (fun t => decide (t.phase = .done ∧ t.op.cmd = .compress)) = true ∧
    nextHas (step (State.reset.withFetchWord 8 0x1)) (fun t => decide (t.phase = .done ∧ t.op.cmd = .decompress)) = true := by
  decide

/-- K5: "aaaa". -/
theorem test_compress_aaaa : endsWith hardware (started .compress (List.replicate 4 0x61#8) 4)
    (okWith [0x00#8, 0x61#8, 0x20#8, 0x00#8]) = true := by decide

/-- K21: one byte short. -/
theorem test_compress_short :
    endsWith hardware (started .compress (List.replicate 4 0x61#8) 3) (badWith 0xFF#8) = true := by decide

/-- W2 as a command. -/
theorem test_decompress_aaaa : endsWith hardware (started .decompress [0x00#8, 0x61#8, 0x20#8, 0x00#8] 4)
    (okWith (List.replicate 4 0x61#8)) = true := by decide

/-- W25: COUNT mode never checks an offset. -/
theorem test_decompress_count :
    endsWith hardware (started .decompress [0x00#8, 0x61#8, 0x20#8, 0x05#8, 0x00#8, 0x62#8] 1) (shortWith 5) = true := by
  decide

/-! ## Witnesses: for each statement, a state and operands that meet all its hypotheses -/

/-- A running engine in WRITE mode that is in order. -/
def inOrder (s : State) : Bool :=
  decide (s.start = false ∧ s.op.inLen ≠ 0#32 ∧ badArguments s.op = false ∧ overlap s.op = false ∧
    s.ip ≤ s.op.inLen.toNat ∧ s.wp ≤ lenMax ∧ s.wp ≤ s.op.outCap.toNat ∧ s.ls + s.ll = s.ip ∧ s.ll ≤ 31 ∧
    (∀ e ∈ s.ht, e.2 < s.ip ∧ e.2 + 3 ≤ s.op.inLen.toNat) ∧ s.countFirst = false)

theorem runInv_of_inOrder {s : State} (h : inOrder s = true) : s.RunInv := by
  obtain ⟨h1, h2, h3, h4, h5, h6, h7, h8, h9, h10, h11⟩ := of_decide_eq_true h
  exact ⟨fun _ => h1, fun _ => ⟨h2, h3, (overlap_eq_false_iff _).1 h4⟩, fun _ => h5, fun _ => h6, fun _ _ => h7,
    fun _ _ => ⟨h8, h9⟩, fun _ _ => h10, fun _ hc => absurd hc (by simp [h11])⟩

/-- A command is issued, on operands that keep the host's obligations. -/
def issuable (s : State) : Bool := decide (s.phase ≠ .busy ∧ s.start = true ∧ overlap s.regs = false)

theorem issued_of_issuable {s : State} (h : issuable s = true) : Issued hardware s := by
  obtain ⟨h1, h2, h3⟩ := of_decide_eq_true h
  exact ⟨h1, h2, fun w hw => absurd hw (by simp [hardware]), (overlap_eq_false_iff _).1 h3⟩

/-- COMPRESS is ready to go. -/
theorem readyCompress_of {s : State} (h : issuable s = true) (hc : s.regs.cmd = .compress)
    (ha : s.regs.inPresent = true) (hb : s.regs.outPresent = true) : ReadyCompress hardware s :=
  ⟨issued_of_issuable h, hc, fun _ => ⟨ha, fun _ => hb⟩⟩

/-- DECOMPRESS is ready to go. -/
theorem readyDecompress_of {s : State} (h : issuable s = true) (hc : s.regs.cmd = .decompress)
    (ha : s.regs.inPresent = true) (hb : s.regs.outPresent = true) : ReadyDecompress hardware s :=
  ⟨issued_of_issuable h, hc, fun _ => ha, fun _ => hb⟩

theorem notAccepted_of {s : State} (h : s.ht = []) (p : Nat) : ¬s.Accepted hardware p := by
  simp [State.Accepted, h, slot]

theorem endsShort_of {n : Nat} {t : State} (h : shortWith n t = true) : t.EndsShort n := by
  simpa [shortWith, State.EndsShort] using h

/-- "aaaa", compressed into ample room. -/
def sample4 : State := started .compress (List.replicate 4 0x61#8) 4
/-- Its stream, decompressed with the capacity `cap`. -/
def stream4 (cap : Nat) : State := started .decompress [0x00#8, 0x61#8, 0x20#8, 0x00#8] cap
/-- COMPRESS of "aaaa" after its first turn. -/
def turn1 (cap : Nat) : State :=
  { running .compress (List.replicate 4 0x61#8) cap 1 0 .write with ll := 1, ht := [(0, 0)] }
/-- COMPRESS of `00 01 .. n-1` before its 32nd literal. -/
def turn31 (n cap : Nat) : State :=
  { running .compress ((List.range n).map (BitVec.ofNat 8)) cap 31 0 .write with ll := 31 }
/-- COMPRESS of "ab" before its end. -/
def lastTurn (cap : Nat) : State := { running .compress [0x61#8, 0x62#8] cap 2 0 .write with ll := 2 }
/-- COMPRESS of "aaaa" before its end, its stream written. -/
def lastTurn4 : State :=
  let s := running .compress (List.replicate 4 0x61#8) 4 4 4 .write
  { s with ls := 4, mem := s.mem.writeAll 64 [0x00#8, 0x61#8, 0x20#8, 0x00#8] }

theorem ready_sample4 : ReadyCompress hardware sample4 := readyCompress_of (by decide) rfl rfl rfl
theorem ready_stream4 : ReadyDecompress hardware (stream4 4) := readyDecompress_of (by decide) rfl rfl rfl

theorem witness_TokenFormatIsBijection :
    (∀ i ∈ [Instr.lit [1#8], .lit (List.replicate 32 1#8), .refs3 1, .refs8 8192, .refl 9 1, .refl 264 8192],
      i.wellFormed = true ∧ i.isToken = true) ∧
    decodesTo [0xFF#8, 0xFF#8, 0xFF#8, 0x00#8] (.refl 264 8192) [0x00#8] = true := by decide

theorem witness_EveryControlByteSelectsAFormat :
    ((0x00#8).toNat < 0x20 ∧ [5#8].length = (0x00#8).toNat + 1) ∧
    ((0x1F#8).toNat < 0x20 ∧ (List.replicate 32 5#8).length = (0x1F#8).toNat + 1) ∧
    (0x20 ≤ (0x20#8).toNat ∧ (0x20#8).toNat < 0xE0) ∧ (0x20 ≤ (0xDF#8).toNat ∧ (0xDF#8).toNat < 0xE0) ∧
    0xE0 ≤ (0xE0#8).toNat ∧ 0xE0 ≤ (0xFF#8).toNat := by decide

theorem witness_TokenSizesFollowFromTheControlByte :
    (([] : List Byte).length + 1 < (0x00#8).toNat + 2) ∧ ((List.replicate 31 0#8).length + 1 < (0x1F#8).toNat + 2) ∧
    (([] : List Byte).length + 1 < 2) ∧ ([0#8].length + 1 < 3) ∧ decodesTo [0x00#8, 7#8] (.lit [7#8]) [] = true ∧
    decodesTo [0xDF#8, 0#8] (.refs8 7937) [] = true ∧ decodesTo [0xE0#8, 0xFF#8, 0#8, 1#8] (.refl 264 1) [1#8] = true := by
  decide

theorem witness_DefaultHashIsTheRulesFormula : ∃ hlog : Nat, 1 ≤ hlog ∧ hlog ≤ 24 := ⟨24, by decide⟩

theorem witness_EngineWaitsForStart :
    (State.reset.phase ≠ .busy ∧ State.reset.start = false) ∧
    ∃ s : State, s.phase = .done ∧ s.phase ≠ .busy ∧ s.start = false :=
  ⟨by decide, { State.reset with phase := .done }, by decide⟩

theorem witness_StepRunsTheDecodedInstruction :
    (let s := running .decompress [0x01#8, 0x61#8, 0x62#8] 16 0 0 .write
     s.phase = .busy ∧ s.start = false ∧ s.op.cmd = .decompress ∧
       decodesTo (s.inputBytes s.ip (s.op.inLen.toNat - s.ip)) (.lit [0x61#8, 0x62#8]) [] = true) ∧
    (let s := running .decompress [0x01#8, 0x61#8] 16 0 0 .write
     s.phase = .busy ∧ s.start = false ∧ s.op.cmd = .decompress ∧
       isTruncated (s.inputBytes s.ip (s.op.inLen.toNat - s.ip)) = true) ∧
    ((turn1 4).phase = .busy ∧ (turn1 4).start = false ∧ (turn1 4).op.cmd = .compress) ∧
    (sample4.phase ≠ .busy ∧ sample4.start = true ∧ commandOfBit sample4.regs.cmd.bit = .compress) ∧
    ((stream4 4).phase ≠ .busy ∧ (stream4 4).start = true ∧ commandOfBit (stream4 4).regs.cmd.bit = .decompress) := by
  decide

theorem witness_LitWritesItsBytes :
    let s := running .decompress [0x01#8, 0x61#8, 0x62#8] 2 0 0 .write
    s.phase = .busy ∧ s.op.cmd = .decompress ∧ s.mode = .write ∧ [0x61#8, 0x62#8].length ≤ s.op.outCap.toNat - s.wp := by
  decide

theorem witness_BackReferenceCopiesForward :
    (let s := decodingFrom [0x20#8, 0x01#8] [1#8, 2#8] 5 0 .write
     (Instr.refs3 2).backRef? = some (3, 2) ∧ (Instr.refs3 2).wellFormed = true ∧ s.phase = .busy ∧
       s.op.cmd = .decompress ∧ s.mode = .write ∧ 3 ≤ s.op.outCap.toNat - s.wp ∧ 2 ≤ s.wp) ∧
    (let s := decodingFrom [0xE0#8, 0x00#8, 0x01#8] [1#8, 2#8] 11 0 .write
     (Instr.refl 9 2).backRef? = some (9, 2) ∧ (Instr.refl 9 2).wellFormed = true ∧ s.phase = .busy ∧
       s.op.cmd = .decompress ∧ s.mode = .write ∧ 9 ≤ s.op.outCap.toNat - s.wp ∧ 2 ≤ s.wp) := by decide

theorem witness_BadOffsetIsCorrupt :
    let s := decodingFrom [0x20#8, 0x02#8] [1#8, 2#8] 5 0 .write
    (Instr.refs3 3).backRef? = some (3, 3) ∧ s.phase = .busy ∧ s.op.cmd = .decompress ∧ s.mode = .write ∧
      3 ≤ s.op.outCap.toNat - s.wp ∧ s.wp < 3 := by decide

theorem witness_CountModeOnlyAddsLengths :
    let s := running .decompress [0xE0#8, 0xFF#8, 0x00#8] 0 0 4294967200 .count
    (Instr.refl 264 1).isToken = true ∧ s.phase = .busy ∧ s.op.cmd = .decompress ∧ s.mode = .count := by decide

theorem witness_TokenThatDoesNotFitEntersCountMode :
    let s := decodingFrom [0x00#8, 0x61#8, 0x20#8, 0x00#8] [0x61#8] 3 2 .write
    (Instr.refs3 1).isToken = true ∧ s.phase = .busy ∧ s.op.cmd = .decompress ∧ s.mode = .write ∧
      s.op.outCap.toNat - s.wp < (Instr.refs3 1).outSize := by decide

theorem witness_CountModeReadsOnlyControlAndLengthBytes :
    (let s := running .decompress [0xE0#8, 0x16#8, 0x00#8] 0 0 0 .count
     let m := s.mem.write 18 0x55#8
     s.phase = .busy ∧ s.start = false ∧ s.op.cmd = .decompress ∧ s.mode = .count ∧ s.ip < s.op.inLen.toNat ∧
       tokenSize (s.inByte s.ip) ≤ s.op.inLen.toNat - s.ip ∧ m.read (s.op.inBase + s.ip) = s.inByte s.ip ∧
       m.read (s.op.inBase + (s.ip + 1)) = s.inByte (s.ip + 1) ∧ m ≠ s.mem) ∧
    (let s := running .decompress [0x01#8, 0x61#8, 0x62#8] 0 0 0 .count
     let m := s.mem.writeAll 17 [0x55#8, 0x66#8]
     s.phase = .busy ∧ s.start = false ∧ s.op.cmd = .decompress ∧ s.mode = .count ∧ s.ip < s.op.inLen.toNat ∧
       tokenSize (s.inByte s.ip) ≤ s.op.inLen.toNat - s.ip ∧ m.read (s.op.inBase + s.ip) = s.inByte s.ip ∧
       (s.inByte s.ip).toNat < 0xE0 ∧ m ≠ s.mem) := by decide

theorem witness_TokenOutsideDecompressIsRefused :
    (Instr.refs3 1).isToken = true ∧ ¬(State.reset.phase = .busy ∧ State.reset.op.cmd = .decompress) ∧
    ¬((turn1 4).phase = .busy ∧ (turn1 4).op.cmd = .decompress) := by decide

theorem witness_TruncatedTokenIsCorrupt :
    ∀ mode ∈ [Mode.write, Mode.count],
      let s := running .decompress [0x01#8, 0x61#8] 8 0 0 mode
      s.phase = .busy ∧ s.start = false ∧ s.op.cmd = .decompress ∧ s.ip < s.op.inLen.toNat ∧
        s.op.inLen.toNat - s.ip < tokenSize (s.inByte s.ip) := by decide

theorem witness_DecompressEndsOk :
    let s := decodingFrom [0x00#8, 0x61#8] [0x61#8] 1 2 .write
    s.phase = .busy ∧ s.op.cmd = .decompress ∧ s.op.inLen.toNat ≤ s.ip ∧ s.mode = .write := by decide

theorem witness_DecompressEndsShort :
    ∀ first ∈ [true, false],
      let s := { running .decompress [0x00#8, 0x61#8] 0 2 1 .count with countFirst := first }
      s.phase = .busy ∧ s.op.cmd = .decompress ∧ s.op.inLen.toNat ≤ s.ip ∧ s.mode = .count := by decide

theorem witness_CompressIsIssued :
    sample4.phase ≠ .busy ∧ sample4.regs.Disjoint ∧ sample4.regs.CompressArgs ∧ sample4.regs.inLen ≠ 0#32 :=
  ⟨by decide, ready_sample4.issued.disjoint, ready_sample4.args, by decide⟩

theorem witness_DecompressIsIssued :
    (stream4 4).phase ≠ .busy ∧ (stream4 4).regs.Disjoint ∧ (stream4 4).regs.DecompressArgs ∧
      (stream4 4).regs.inLen ≠ 0#32 :=
  ⟨by decide, ready_stream4.issued.disjoint, ready_stream4.args, by decide⟩

/-- A1: COMPRESS of 5 bytes, no input region. A2: DECOMPRESS of 5 bytes, no output region, capacity 1. -/
theorem witness_MissingRegionIsEargs :
    (∃ s : State, s.phase ≠ .busy ∧ s.regs.Disjoint ∧ ¬s.regs.CompressArgs) ∧
    ∃ s : State, s.phase ≠ .busy ∧ s.regs.Disjoint ∧ ¬s.regs.DecompressArgs := by
  refine ⟨⟨{ State.reset with regs := { regsOf .compress 5 9 with inPresent := false } }, by decide, ?_, ?_⟩,
    ⟨{ State.reset with regs := { regsOf .decompress 5 1 with outPresent := false } }, by decide, ?_, ?_⟩⟩
  · exact fun h => absurd h (by decide)
  · exact fun h => absurd (h (by decide)).1 (by decide)
  · exact fun _ h => absurd h (by decide)
  · exact fun h => absurd (h.2 (by decide)) (by decide)

theorem witness_EmptyInputSucceeds :
    ∃ s : State, s.phase ≠ .busy ∧ s.regs.inLen = 0#32 ∧ s.regs.DecompressArgs ∧ s.regs.inPresent = false :=
  ⟨{ State.reset with regs := { regsOf .decompress 0 7 with inPresent := false } }, by decide, by decide,
    ⟨fun h => absurd rfl h, fun _ => rfl⟩, rfl⟩

/-- The output region starts at the last input byte. -/
theorem witness_BrokenObligationsAreRefused :
    (∃ s : State, s.phase ≠ .busy ∧ ¬s.regs.Disjoint) ∧
    ((stream4 4).phase ≠ .busy ∧ { stream4 4 with phase := .busy, op := (stream4 4).regs }.op.cmd = .decompress) ∧
    ((turn1 4).phase = .busy ∧ (turn1 4).op.cmd = .compress) ∧
    ({ turn1 4 with start := true }.phase = .busy ∧ { turn1 4 with start := true }.start = true) := by
  refine ⟨⟨{ State.reset with regs := { regsOf .compress 5 9 with outBase := 20 } }, by decide, ?_⟩, by decide, by decide,
    by decide⟩
  exact fun h => h rfl rfl 4 (by decide) 0 (by decide) rfl

theorem witness_CompressPassesALiteral :
    (let s := running .compress [0x61#8, 0x62#8, 0x63#8] 9 0 0 .write
     s.RunInv ∧ s.phase = .busy ∧ s.op.cmd = .compress ∧ s.ip < s.op.inLen.toNat ∧
       (∀ p, ¬s.Accepted hardware p) ∧ s.ll < 31 ∧ s.ip + 3 ≤ s.op.inLen.toNat) ∧
    (let s := { running .compress [0x61#8, 0x62#8, 0x63#8] 9 1 0 .write with ll := 1 }
     s.RunInv ∧ s.phase = .busy ∧ s.op.cmd = .compress ∧ s.ip < s.op.inLen.toNat ∧
       (∀ p, ¬s.Accepted hardware p) ∧ s.ll < 31 ∧ s.op.inLen.toNat < s.ip + 3) :=
  ⟨⟨runInv_of_inOrder (by decide), by decide, by decide, by decide, notAccepted_of rfl, by decide, by decide⟩,
    ⟨runInv_of_inOrder (by decide), by decide, by decide, by decide, notAccepted_of rfl, by decide, by decide⟩⟩

/-- With room and without; with three bytes left (of 34) and without (of 33). -/
theorem witness_CompressFlushesAFullRun :
    ∀ n ∈ [33, 34], ∀ cap ∈ [33, 32],
      (turn31 n cap).RunInv ∧ (turn31 n cap).phase = .busy ∧ (turn31 n cap).op.cmd = .compress ∧
        (turn31 n cap).ip < (turn31 n cap).op.inLen.toNat ∧ (∀ p, ¬(turn31 n cap).Accepted hardware p) ∧
        (turn31 n cap).ll = 31 ∧ ((turn31 n cap).ip + 3 ≤ (turn31 n cap).op.inLen.toNat ↔ n = 34) := by
  intro n hn cap hc
  have h1 : ∀ n ∈ [33, 34], ∀ cap ∈ [33, 32], inOrder (turn31 n cap) = true ∧
      (turn31 n cap).ip < (turn31 n cap).op.inLen.toNat ∧
      ((turn31 n cap).ip + 3 ≤ (turn31 n cap).op.inLen.toNat ↔ n = 34) := by decide
  obtain ⟨h2, h3, h4⟩ := h1 n hn cap hc
  exact ⟨runInv_of_inOrder h2, rfl, rfl, h3, notAccepted_of rfl, rfl, h4⟩

/-- With room and without, for either cadence. -/
theorem witness_CompressCommitsAMatch :
    ∀ hupd ∈ [HashUpdate.all, HashUpdate.start], ∀ cap ∈ [4, 3],
      (turn1 cap).RunInv ∧ (turn1 cap).phase = .busy ∧ (turn1 cap).op.cmd = .compress ∧
        (turn1 cap).Accepted { hardware with hupd := hupd } 0 := by
  intro hupd _ cap hc
  have h1 : ∀ cap ∈ [4, 3], inOrder (turn1 cap) = true := by decide
  have h2 : ∀ cap ∈ [4, 3], (turn1 cap).ip + 3 ≤ (turn1 cap).op.inLen.toNat ∧
      slot (turn1 cap).ht ((turn1 cap).hashOf hardware (turn1 cap).ip) = some 0 ∧ (turn1 cap).ip - 0 ≤ 8192 ∧
      ∀ k < 3, (turn1 cap).inByte (0 + k) = (turn1 cap).inByte ((turn1 cap).ip + k) := by decide
  exact ⟨runInv_of_inOrder (h1 cap hc), rfl, rfl, h2 cap hc⟩

theorem witness_CompressEndsTheStream :
    ∀ cap ∈ [3, 2], (lastTurn cap).RunInv ∧ (lastTurn cap).phase = .busy ∧ (lastTurn cap).op.cmd = .compress ∧
      (lastTurn cap).ip = (lastTurn cap).op.inLen.toNat ∧ (lastTurn cap).pendingToken.length = 3 := by
  intro cap hc
  have h1 : ∀ cap ∈ [3, 2], inOrder (lastTurn cap) = true := by decide
  exact ⟨runInv_of_inOrder (h1 cap hc), rfl, rfl, by simp [lastTurn, running, regsOf], by decide +revert⟩

theorem witness_EveryStepKeepsTheInvariant : (turn1 4).Inv ∧ ∃ t, step (turn1 4) = .next t ∧ t.wp = 4 := by
  obtain ⟨t, ht, hp⟩ := exists_next (o := step (turn1 4)) (p := fun t => decide (t.wp = 4)) (by decide)
  exact ⟨⟨by decide, by decide, runInv_of_inOrder (by decide), fun h => absurd h (by decide)⟩, t, ht, of_decide_eq_true hp⟩

theorem witness_TableSlotsHoldTheirOwnHash :
    (turn1 4).RunInv ∧ (turn1 4).TableInv hardware ∧ (turn1 4).ht = [(0, 0)] ∧ ∃ t, stepWith hardware (turn1 4) = .next t := by
  obtain ⟨t, ht, -⟩ := exists_next (o := stepWith hardware (turn1 4)) (p := fun _ => true) (by decide)
  exact ⟨runInv_of_inOrder (by decide), fun _ _ => by decide, rfl, t, ht⟩

/-- A turn of the encoder, and a fetched token that ends where the input does. -/
theorem witness_NoAccessIsOutOfBounds :
    (turn31 33 33).RunInv ∧
    fetchToken (running .decompress [0x00#8, 0x61#8, 0xE0#8, 0x16#8, 0x00#8] 9 2 0 .write) = some (.refl 31 1) :=
  ⟨runInv_of_inOrder (by decide), by decide⟩

/-- A copy in WRITE mode over a memory that differs elsewhere, and a turn of the encoder over another output region. -/
theorem witness_StepsReadOnlyTheirRegions :
    (let s := decodingFrom [0x20#8, 0x00#8] [0x61#8] 4 0 .write
     let m := s.mem.write 65 0x55#8
     s.RunInv ∧ (∃ t, stepWith hardware s = .next t) ∧ s.phase = .busy ∧ s.op.cmd = .decompress ∧ s.mode = .write ∧
       (∀ k < s.op.inLen.toNat, m.read (s.op.inBase + k) = s.inByte k) ∧
       (∀ k < s.wp, m.read (s.op.outBase + k) = s.outByte k) ∧ m ≠ s.mem) ∧
    (let s := turn1 4
     let m := s.mem.write 64 0x55#8
     s.RunInv ∧ (∃ t, stepWith hardware s = .next t) ∧ s.phase = .busy ∧
       (∀ k < s.op.inLen.toNat, m.read (s.op.inBase + k) = s.inByte k) ∧ m ≠ s.mem) := by
  obtain ⟨t, ht, -⟩ := exists_next (p := fun _ => true)
    (o := stepWith hardware (decodingFrom [0x20#8, 0x00#8] [0x61#8] 4 0 .write)) (by decide)
  obtain ⟨u, hu, -⟩ := exists_next (p := fun _ => true) (o := stepWith hardware (turn1 4)) (by decide)
  refine ⟨⟨?_, ⟨t, ht⟩, by decide, by decide, by decide, by decide, by decide, by decide⟩,
    runInv_of_inOrder (by decide), ⟨u, hu⟩, by decide, by decide, by decide⟩
  refine ⟨fun _ => rfl, fun _ => ⟨by decide, by decide, (overlap_eq_false_iff _).1 (by decide)⟩, fun _ => by decide,
    fun _ => by decide, fun _ _ => by decide, fun _ h => ?_, fun _ h => ?_, fun _ h => ?_⟩
  · exact absurd h (by decide)
  · exact absurd h (by decide)
  · exact absurd h (by decide)

/-- Regions that share an address; and a region that wraps, with 6-bit addresses, of a COMPRESS whose missing input region
would be EARGS. -/
theorem witness_OnlyBrokenObligationsAreRefused :
    (∃ s : State, s.RunInv ∧ s.phase ≠ .busy ∧ s.start = true ∧ ¬(s.regs.NoWrap hardware ∧ s.regs.Disjoint)) ∧
    ∃ s : State, s.RunInv ∧ s.phase ≠ .busy ∧ s.start = true ∧ badArguments s.regs = true ∧
      ¬(s.regs.NoWrap { hardware with addrW := some 6 } ∧ s.regs.Disjoint) := by
  have hrun : ∀ r : Operands, State.RunInv { State.reset with start := true, regs := r } := fun r => by
    constructor <;> intro h <;> exact Phase.noConfusion h
  refine ⟨⟨{ State.reset with start := true, regs := { regsOf .compress 5 9 with outBase := 20 } }, hrun _, by decide, rfl,
    fun h => h.2 rfl rfl 4 (by decide) 0 (by decide) rfl⟩,
    { State.reset with start := true, regs := { regsOf .compress 5 9 with inPresent := false } }, hrun _, by decide, rfl,
    by decide, fun h => ?_⟩
  exact absurd ((h.1 6 rfl).2 rfl (by decide)) (by decide)

theorem witness_StateAndModeOnlyMoveForward :
    (∃ t, step (turn1 4) = .next t ∧ (turn1 4).phase = .busy) ∧
    (∃ t, step sample4 = .next t ∧ sample4.phase ≠ .busy ∧ sample4.start = true) ∧
    (∃ t, step State.reset = .next t ∧ State.reset.phase ≠ .busy ∧ State.reset.start = false) ∧
    ∃ s t : State, step s = .next t ∧ s.phase = .busy ∧ s.mode = .count := by
  refine ⟨?_, ?_, ?_, running .decompress [0x20#8, 0x00#8] 0 0 0 .count, ?_⟩
  · obtain ⟨t, ht, -⟩ := exists_next (o := step (turn1 4)) (p := fun _ => true) (by decide)
    exact ⟨t, ht, rfl⟩
  · obtain ⟨t, ht, -⟩ := exists_next (o := step sample4) (p := fun _ => true) (by decide)
    exact ⟨t, ht, by decide, rfl⟩
  · exact ⟨_, rfl, by decide, rfl⟩
  · obtain ⟨t, ht, -⟩ := exists_next
      (o := step (running .decompress [0x20#8, 0x00#8] 0 0 0 .count)) (p := fun _ => true) (by decide)
    exact ⟨t, ht, rfl, rfl⟩

theorem witness_EngineKeepsRegistersAndTable :
    ∃ s t : State, step s = .next t ∧ s.phase = .busy ∧ s.op.cmd = .decompress ∧ s.ht = [(0, 0)] := by
  obtain ⟨t, ht, -⟩ := exists_next (p := fun _ => true)
    (o := step { running .decompress [0x20#8, 0x00#8] 0 0 0 .count with ht := [(0, 0)] }) (by decide)
  exact ⟨_, t, ht, rfl, rfl, rfl⟩

/-- Every row of the response table is reached by one step. -/
theorem witness_ResponseTable :
    nextHas (step (lastTurn 3)) (fun t => decide (t.phase = .done ∧ t.op.cmd = .compress ∧ t.status = 0x00#8)) = true ∧
    nextHas (step (lastTurn 2)) (fun t => decide (t.phase = .done ∧ t.op.cmd = .compress ∧ t.status = 0xFF#8)) = true ∧
    nextHas (step { sample4 with regs := { sample4.regs with inPresent := false } })
      (fun t => decide (t.phase = .done ∧ t.op.cmd = .compress ∧ t.status = 0xFD#8)) = true ∧
    nextHas (step (decodingFrom [0x00#8, 0x61#8] [0x61#8] 1 2 .write))
      (fun t => decide (t.phase = .done ∧ t.op.cmd = .decompress ∧ t.status = 0x00#8)) = true ∧
    nextHas (step (running .decompress [0x00#8, 0x61#8] 0 2 1 .count))
      (fun t => decide (t.phase = .done ∧ t.op.cmd = .decompress ∧ t.status = 0xFF#8)) = true ∧
    nextHas (step (running .decompress [0x20#8, 0x00#8] 3 0 0 .write))
      (fun t => decide (t.phase = .done ∧ t.op.cmd = .decompress ∧ t.status = 0xFE#8)) = true ∧
    nextHas (step { stream4 4 with regs := { (stream4 4).regs with outPresent := false } })
      (fun t => decide (t.phase = .done ∧ t.op.cmd = .decompress ∧ t.status = 0xFD#8)) = true := by decide

theorem witness_EncoderOutputAlwaysDecodes :
    lastTurn4.RunInv ∧ lastTurn4.StreamInv ∧ lastTurn4.phase = .busy ∧ lastTurn4.op.cmd = .compress ∧
    ∃ t, step lastTurn4 = .next t ∧ t.phase = .done ∧ t.status = 0x00#8 := by
  obtain ⟨t, ht, hp⟩ := exists_next (o := step lastTurn4)
    (p := fun t => decide (t.phase = .done ∧ t.status = 0x00#8)) (by decide)
  exact ⟨runInv_of_inOrder (by decide), fun _ _ => ⟨[.lit [0x61#8], .refs3 1], by decide, by decide⟩, rfl, rfl, t, ht,
    of_decide_eq_true hp⟩

theorem witness_EveryCommandReachesDone :
    Issued hardware sample4 ∧ Issued hardware (stream4 4) ∧ (turn1 4).RunInv ∧ (turn1 4).phase = .busy :=
  ⟨ready_sample4.issued, ready_stream4.issued, runInv_of_inOrder (by decide), rfl⟩

theorem witness_InputRegionIsNeverChanged : Issued hardware sample4 ∧ ∃ t, Ends hardware sample4 t := by
  obtain ⟨t, ht, -⟩ := exists_ends (C := hardware) (s := sample4) (p := fun _ => true) (by decide)
  exact ⟨ready_sample4.issued, t, ht⟩

/-- A command of each kind of end: OK, a failure, and EARGS. -/
theorem witness_OnlyTheOutputRegionChanges :
    (Issued hardware sample4 ∧ ∃ t, Ends hardware sample4 t ∧ t.status = 0x00#8) ∧
    (Issued hardware (stream4 3) ∧ ∃ t, Ends hardware (stream4 3) t ∧ t.status = 0xFF#8) ∧
    ∃ s t : State, Issued hardware s ∧ Ends hardware s t ∧ t.status = 0xFD#8 := by
  obtain ⟨t, ht, hp⟩ := exists_ends (C := hardware) (s := sample4) (p := fun t => decide (t.status = 0x00#8)) (by decide)
  obtain ⟨u, hu, hq⟩ := exists_ends (C := hardware) (s := stream4 3) (p := fun t => decide (t.status = 0xFF#8)) (by decide)
  obtain ⟨v, hv, hr⟩ := exists_ends (C := hardware) (p := fun t => decide (t.status = 0xFD#8))
    (s := { sample4 with regs := { sample4.regs with inPresent := false } }) (by decide)
  exact ⟨⟨ready_sample4.issued, t, ht, of_decide_eq_true hp⟩,
    ⟨issued_of_issuable (by decide), u, hu, of_decide_eq_true hq⟩, _, v, issued_of_issuable (by decide), hv,
    of_decide_eq_true hr⟩

theorem witness_SizeQueryLeavesMemory :
    ReadyDecompress hardware (stream4 0) ∧
    decodesTo (inputOf (stream4 0).regs (stream4 0).mem) (.lit [0x61#8]) [0x20#8, 0x00#8] = true ∧
    (stream4 0).regs.outCap.toNat < (Instr.lit [0x61#8]).outSize ∧ ∃ t, Ends hardware (stream4 0) t := by
  obtain ⟨t, ht, -⟩ := exists_ends (C := hardware) (s := stream4 0) (p := fun _ => true) (by decide)
  exact ⟨readyDecompress_of (by decide) rfl rfl rfl, by decide, by decide, t, ht⟩

/-- Each answer of the reference decoder is met: truncated, bad offset, decoded, too long. -/
theorem witness_DecompressComputesTheReferenceDecoder :
    (∀ stream ∈ [[0x00#8], [0x20#8, 0x00#8], [0x00#8, 0x61#8], [0xE0#8, 0xFF#8, 0x00#8]],
      ReadyDecompress hardware (started .decompress stream 3)) ∧
    parse [0x00#8] = none ∧ badOffsetBelow 3 0 [.refs3 1] = true ∧ totalOut [.lit [0x61#8]] ≤ 3 ∧
    (badOffsetBelow 3 0 [.refl 264 1] = false ∧ 3 < totalOut [.refl 264 1]) := by
  refine ⟨fun stream hs => readyDecompress_of ?_ rfl rfl rfl, by decide, by decide, by decide, by decide⟩
  revert stream
  decide

theorem witness_DecompressCapacityBoundary :
    ∀ cap ∈ [4, 3], ReadyDecompress hardware (stream4 cap) ∧
      parse (inputOf (stream4 cap).regs (stream4 cap).mem) = some [.lit [0x61#8], .refs3 1] ∧
      runTokens [] [.lit [0x61#8], .refs3 1] = some (List.replicate 4 0x61#8) := by
  intro cap hc
  have h1 : ∀ cap ∈ [4, 3], issuable (stream4 cap) = true := by decide
  have h2 : ∀ cap ∈ [4, 3],
      parse (inputOf (stream4 cap).regs (stream4 cap).mem) = some [.lit [0x61#8], .refs3 1] := by decide
  exact ⟨readyDecompress_of (h1 cap hc) rfl rfl rfl, h2 cap hc, by decide⟩

theorem witness_SizeQueryMeasures :
    ReadyDecompress hardware (stream4 0) ∧ (stream4 0).regs.inLen ≠ 0#32 ∧ (stream4 0).regs.outCap = 0#32 :=
  ⟨readyDecompress_of (by decide) rfl rfl rfl, by decide, by decide⟩

/-- The stream of "aaaa" cut to 3 bytes (inside a token) and to 2 (on a boundary). -/
theorem witness_TruncationIsDetectedInsideTokens :
    (∀ i ∈ [Instr.lit [0x61#8], .refs3 1], i.wellFormed = true ∧ i.isToken = true) ∧
    runTokens [] [.lit [0x61#8], .refs3 1] = some (List.replicate 4 0x61#8) ∧
    (∀ cut ∈ [(3, [0x00#8, 0x61#8, 0x20#8]), (2, [0x00#8, 0x61#8])],
      ReadyDecompress hardware (started .decompress cut.2 4) ∧
      inputOf (started .decompress cut.2 4).regs (started .decompress cut.2 4).mem =
        ([Instr.lit [0x61#8], .refs3 1].flatMap Instr.bytes).take cut.1) ∧
    ([Instr.lit [0x61#8], .refs3 1].take 1).flatMap Instr.bytes = [0x00#8, 0x61#8] ∧
    ∀ j, ([Instr.lit [0x61#8], .refs3 1].take j).flatMap Instr.bytes ≠ [0x00#8, 0x61#8, 0x20#8] := by
  refine ⟨by decide, by decide, fun cut hc => ⟨readyDecompress_of ?_ rfl rfl rfl, ?_⟩, by decide, fun j => ?_⟩
  · revert cut; decide
  · revert cut; decide
  · rcases j with _ | _ | _ | j
    · decide
    · decide
    · decide
    · simp [Instr.bytes, encode, encRef, refControl, encLit]

theorem witness_RetryAfterEsizeDoesNotFailOnSize :
    ReadyDecompress hardware (stream4 3) ∧ (∃ t, Ends hardware (stream4 3) t ∧ t.EndsShort 4) ∧ 4 < 4294967295 ∧
    ReadyDecompress hardware (stream4 4) ∧
    inputOf (stream4 4).regs (stream4 4).mem = inputOf (stream4 3).regs (stream4 3).mem ∧
    4 ≤ (stream4 4).regs.outCap.toNat := by
  obtain ⟨t, ht, hp⟩ := exists_ends (C := hardware) (s := stream4 3) (p := shortWith 4) (by decide)
  exact ⟨readyDecompress_of (by decide) rfl rfl rfl, ⟨t, ht, endsShort_of hp⟩, by decide, ready_stream4, by decide,
    by decide⟩

theorem witness_RoundTripGivesTheInputBack :
    ReadyCompress hardware sample4 ∧ ReadyDecompress hardware (stream4 4) ∧
    (∃ t, Ends hardware sample4 t ∧ t.EndsOk 4 ∧
      inputOf (stream4 4).regs (stream4 4).mem = outputOf sample4.regs t.mem 4) ∧
    sample4.regs.inLen.toNat ≤ (stream4 4).regs.outCap.toNat := by
  obtain ⟨t, ht, hp⟩ := exists_ends (C := hardware) (s := sample4)
    (p := fun t => decide ((t.status = 0x00#8 ∧ t.rlenWr = true ∧ t.rlen.toNat = 4) ∧
      inputOf (stream4 4).regs (stream4 4).mem = outputOf sample4.regs t.mem 4)) (by decide)
  exact ⟨ready_sample4, ready_stream4, ⟨t, ht, (of_decide_eq_true hp).1, (of_decide_eq_true hp).2⟩, by decide⟩

/-- For "aaaa" and for no input at all. -/
theorem witness_SizeQueryOfCompressedGivesTheLength :
    (ReadyCompress hardware sample4 ∧ sample4.regs.inLen ≠ 0#32 ∧ ReadyDecompress hardware (stream4 0) ∧
      (stream4 0).regs.outCap = 0#32 ∧
      ∃ t, Ends hardware sample4 t ∧ t.EndsOk 4 ∧
        inputOf (stream4 0).regs (stream4 0).mem = outputOf sample4.regs t.mem 4) ∧
    ReadyCompress hardware (started .compress [] 0) ∧ ReadyDecompress hardware (started .decompress [] 0) ∧
    ∃ t, Ends hardware (started .compress [] 0) t ∧ t.EndsOk 0 ∧
      inputOf (started .decompress [] 0).regs (started .decompress [] 0).mem =
        outputOf (started .compress [] 0).regs t.mem 0 := by
  obtain ⟨t, ht, hp⟩ := exists_ends (C := hardware) (s := sample4)
    (p := fun t => decide ((t.status = 0x00#8 ∧ t.rlenWr = true ∧ t.rlen.toNat = 4) ∧
      inputOf (stream4 0).regs (stream4 0).mem = outputOf sample4.regs t.mem 4)) (by decide)
  obtain ⟨u, hu, hq⟩ := exists_ends (C := hardware) (s := started .compress [] 0)
    (p := fun t => decide (t.status = 0x00#8 ∧ t.rlenWr = true ∧ t.rlen.toNat = 0)) (by decide)
  exact ⟨⟨ready_sample4, by decide, readyDecompress_of (by decide) rfl rfl rfl, by decide, t, ht,
    (of_decide_eq_true hp).1, (of_decide_eq_true hp).2⟩, readyCompress_of (by decide) rfl rfl rfl,
    readyDecompress_of (by decide) rfl rfl rfl, u, hu, by simpa [State.EndsOk] using hq, rfl⟩

/-- A capacity that suffices and one that does not. -/
theorem witness_CompressCapacityBoundary :
    (∃ t, Ends hardware sample4 t ∧ t.EndsOk 4) ∧
    ∀ cap ∈ [4, 3],
      let u := started .compress (List.replicate 4 0x61#8) cap
      ReadyCompress hardware u ∧ inputOf u.regs u.mem = List.replicate 4 0x61#8 := by
  obtain ⟨t, ht, hp⟩ := exists_ends (C := hardware) (s := sample4)
    (p := fun t => decide (t.status = 0x00#8 ∧ t.rlenWr = true ∧ t.rlen.toNat = 4)) (by decide)
  refine ⟨⟨t, ht, by simpa [State.EndsOk] using hp⟩, fun cap hc => ⟨readyCompress_of ?_ rfl rfl rfl, ?_⟩⟩
  · revert cap; decide
  · revert cap; decide

theorem witness_CompressSizeBound :
    ∃ s : State, ReadyCompress hardware s ∧ s.regs.inLen ≠ 0#32 ∧
      s.regs.inLen.toNat + (s.regs.inLen.toNat + 31) / 32 = s.regs.outCap.toNat :=
  ⟨started .compress (List.replicate 4 0x61#8) 5, readyCompress_of (by decide) rfl rfl rfl, by decide, by decide⟩

theorem witness_EncoderOutputShape : ReadyCompress hardware sample4 ∧ ∃ t, Ends hardware sample4 t ∧ t.EndsOk 4 :=
  ⟨ready_sample4, witness_CompressCapacityBoundary.1⟩

/-- The same input at another address, and other memory around it. -/
theorem witness_CommandsAreIndependentOfTheRest :
    ∃ u : State, u ≠ sample4 ∧ sample4.regs.inLen = u.regs.inLen ∧ sample4.regs.outCap = u.regs.outCap ∧
      inputOf sample4.regs sample4.mem = inputOf u.regs u.mem ∧ ReadyCompress hardware sample4 ∧ ReadyCompress hardware u :=
  ⟨{ sample4 with
      regs := { sample4.regs with inBase := 200, outBase := 300 }
      mem := sample4.mem.writeAll 200 (List.replicate 4 0x61#8), ht := [(7, 9)] },
    by decide, by decide, by decide, by decide, ready_sample4, readyCompress_of (by decide) rfl rfl rfl⟩

theorem witness_HostWritesAreReadBack :
    State.reset.busyToHost = false ∧
    ∀ r ∈ [Reg.cmd, .inPresent, .inBase, .inLen, .outPresent, .outBase, .outCap], r.access = .readWrite := by decide

/-- Operands whose regions keep R296 and R297 on this hardware. -/
theorem obligations_of {r : Operands} (h : overlap r = false) : r.NoWrap hardware ∧ r.Disjoint :=
  ⟨fun w hw => absurd hw (by simp [hardware]), (overlap_eq_false_iff _).1 h⟩

/-- The two bytes at 16 and the output region at 17 share address 17. -/
def overlapping : Operands :=
  { cmd := .compress, inPresent := true, inBase := 16, inLen := 2#32, outPresent := true, outBase := 17, outCap := 1#32 }

theorem overlapping_not_disjoint : ¬overlapping.Disjoint := fun h => h rfl rfl 1 (by decide) 0 (by decide) rfl

/-- An engine at rest, with regions that keep the obligations and with regions that share address 17 (and wrap, where
addresses have 4 bits); a started command and a running one. -/
theorem witness_StartAndTheRegisterLock :
    (State.reset.busyToHost = false ∧ State.reset.regs.NoWrap hardware ∧ State.reset.regs.Disjoint) ∧
    (let s := { State.reset with regs := overlapping }
     s.busyToHost = false ∧ ¬(s.regs.NoWrap hardware ∧ s.regs.Disjoint) ∧
     hostWrite hardware .start 1 s = .refused .regionsOverlap ∧
     hostWrite { hardware with addrW := some 4 } .start 1 s = .refused .regionWraps) ∧
    sample4.busyToHost = true ∧ (turn1 4).busyToHost = true ∧ Reg.start.index ≤ 7 ∧ 8 ≤ Reg.state.index :=
  ⟨⟨by decide, obligations_of (by decide)⟩, ⟨by decide, fun h => overlapping_not_disjoint h.2, rfl, rfl⟩, by decide,
    by decide, by decide, by decide⟩

/-- Each clause: at rest; started and running, with and without an output region; the same with regions that overlap; a
second `START`. -/
theorem witness_ResetEventAbandonsTheCommand :
    State.reset.busyToHost = false ∧
    (∀ present : Bool,
      let s := { sample4 with regs := { sample4.regs with outPresent := present } }
      s.phase ≠ .busy ∧ s.start = true ∧ s.regs.NoWrap hardware ∧ s.regs.Disjoint ∧ s.regs.outPresent = present) ∧
    (∀ present : Bool,
      let s := { turn1 4 with op := { (turn1 4).op with outPresent := present } }
      s.phase = .busy ∧ s.start = false ∧ s.op.NoWrap hardware ∧ s.op.Disjoint ∧ s.op.outPresent = present) ∧
    (let s := { sample4 with regs := overlapping }
     s.phase ≠ .busy ∧ s.start = true ∧ ¬(s.regs.NoWrap hardware ∧ s.regs.Disjoint) ∧
     resetEvent hardware s = .refused .regionsOverlap) ∧
    (let s := { turn1 4 with op := overlapping }
     s.phase = .busy ∧ s.start = false ∧ ¬(s.op.NoWrap hardware ∧ s.op.Disjoint) ∧
     resetEvent hardware s = .refused .regionsOverlap) ∧
    ({ turn1 4 with start := true }.phase = .busy ∧ { turn1 4 with start := true }.start = true) := by
  refine ⟨by decide, fun present => ?_, fun present => ?_, ?_, ?_, by decide⟩
  · cases present <;> exact ⟨by decide, rfl, (obligations_of (by decide)).1, (obligations_of (by decide)).2, rfl⟩
  · cases present <;> exact ⟨rfl, rfl, (obligations_of (by decide)).1, (obligations_of (by decide)).2, rfl⟩
  · exact ⟨by decide, rfl, fun h => overlapping_not_disjoint h.2, rfl⟩
  · exact ⟨rfl, rfl, fun h => overlapping_not_disjoint h.2, rfl⟩

/-- An engine at rest, with the bytes "aaaa" at 16. -/
def resting4 : State := { sample4 with start := false }

/-- Each code with the slot afterwards: 0, -1 of COMPRESS (slot kept), -1 of DECOMPRESS (slot written), -2, -3; and a call
while a `START` is pending. -/
theorem witness_SoftwareCallResults :
    (∀ call ∈ [(Cmd.compress, some 16, 4#32, some 64, 9#32, (0 : Int), 4#32),
        (.compress, some 16, 4#32, some 64, 3#32, -1, 3#32), (.decompress, some 16, 4#32, some 64, 0#32, -1, 10#32),
        (.decompress, some 16, 4#32, some 64, 9#32, -2, 9#32), (.decompress, none, 4#32, some 64, 9#32, -3, 9#32)],
      resting4.busyToHost = false ∧
      ((softwareCall hardware call.1 call.2.1 call.2.2.1 call.2.2.2.1 call.2.2.2.2.1 resting4).map fun r =>
        (r.code, r.olen)) = some call.2.2.2.2.2) ∧
    sample4.busyToHost = true := by decide

theorem witness_SoftwareCallResults_obligations :
    (callOperands hardware .compress (some 16) 4#32 (some 64) 9#32).NoWrap hardware ∧
    (callOperands hardware .compress (some 16) 4#32 (some 64) 9#32).Disjoint :=
  ⟨fun w hw => absurd hw (by simp [hardware]), (overlap_eq_false_iff _).1 (by decide)⟩

end Sys2Proof.Tests
end

section
/-! SUPPORT. The scope's statements about one turn and one machine: the hash's formula (R7), the hardware as one of the
parametric machines (U7), and a turn of COMPRESS with a match (R158 to R167). -/

namespace Sys2Proof.Machine

open Sys2Proof

/-! ## The default hash -/

/-- The default hash is below `2^HLOG`, whatever `HLOG` (R7). -/
theorem defaultHash_lt (hlog : Nat) (b0 b1 b2 : Byte) : defaultHash hlog b0 b1 b2 < 2 ^ hlog := by
  have hpos : (0 : Int) < (2 ^ hlog : Nat) := by exact_mod_cast Nat.two_pow_pos hlog
  have h : ∀ x : Int, (x.emod (2 ^ hlog : Nat)).toNat < 2 ^ hlog := fun x => by
    have hlo := Int.emod_nonneg x hpos.ne'
    have hhi := Int.emod_lt_of_pos x hpos
    exact (Int.toNat_lt hlo).2 hhi
  exact h _

/-- With `HLOG = 16` the shift leaves the upper two bytes, and only the lower two count in the subtrahend (R7). -/
theorem defaultHash_sixteen (b0 b1 b2 : Byte) : (defaultHash 16 b0 b1 b2 : Int) =
    ((b0.toNat * 256 + b1.toNat : Int) - (b1.toNat * 256 + b2.toNat)) % 65536 := by
  have h2 := b2.isLt
  have hshift : tripleValue b0 b1 b2 / 2 ^ (24 - 16) = b0.toNat * 256 + b1.toNat := by
    unfold tripleValue; omega
  have hmod : ∀ x : Int, x.emod (2 ^ 16 : Nat) = x % 65536 := fun _ => rfl
  rw [defaultHash, hshift, hmod, Int.toNat_of_nonneg (Int.emod_nonneg _ (by decide))]
  unfold tripleValue
  omega

/-- Settles O6: the formula at `HLOG = 16` and the range for every `HLOG`. -/
theorem defaultHashIsTheRulesFormula : Obligations.DefaultHashIsTheRulesFormula :=
  ⟨defaultHash_sixteen, fun hlog hpos hle =>
    { addrW_pos := fun _ hw => (nomatch hw), hlog_pos := hpos, hlog_le := hle, hash_lt := defaultHash_lt hlog }⟩

/-! ## This hardware among the parametric machines -/

theorem core_run_next {M : Host.Core} (k : Nat) {s t : M.State} (h : M.step s = .next t) :
    M.run (k + 1) s = M.run k t := by simp [Host.Core.run, h]

theorem core_run_fault {M : Host.Core} (k : Nat) {s : M.State} {f : M.Fault} (h : M.step s = .fault f) :
    M.run (k + 1) s = .fault f := by simp [Host.Core.run, h]

theorem core_run_refused {M : Host.Core} (k : Nat) {s : M.State} {r : M.Refusal} (h : M.step s = .refused r) :
    M.run (k + 1) s = .refused r := by simp [Host.Core.run, h]

theorem runWith_fault {C : Config} (k : Nat) {s : State} {f : Fault} (h : stepWith C s = .fault f) :
    runWith C (k + 1) s = .fault f := by simp [runWith, h]

theorem runWith_refused {C : Config} (k : Nat) {s : State} {r : Refusal} (h : stepWith C s = .refused r) :
    runWith C (k + 1) s = .refused r := by simp [runWith, h]

/-- Settles O9: by induction on the number of steps, each a step of the parametric machine. -/
theorem hardwareIsOneOfTheParametricMachines : Obligations.HardwareIsOneOfTheParametricMachines := by
  intro k
  induction k with
  | zero => exact fun _ => rfl
  | succ k ih =>
    intro s
    have hstep : Sys2Proof.core.step s = stepWith hardware s := step_eq_stepWith s
    cases h : stepWith hardware s with
    | next t => rw [core_run_next k (hstep.trans h), runWith_succ hardware k h, ih t]
    | fault f => exact (core_run_fault k (hstep.trans h)).trans (runWith_fault k h).symm
    | refused r => exact (core_run_refused k (hstep.trans h)).trans (runWith_refused k h).symm

/-! ## A turn of COMPRESS with a match -/

/-- A turn of a running COMPRESS is what `execWith` runs. -/
theorem execWith_compress_busy (C : Config) {s : State} (hb : s.phase = .busy) (hc : s.op.cmd = .compress) :
    execWith C .compress s = (encoderTurn C s).outcome := by
  simp [execWith, execCompressWith, hb, hc]

/-- At most one position is accepted: the one the slot holds (R156). -/
theorem State.Accepted.unique {C : Config} {s : State} {p q : Nat} (hp : s.Accepted C p) (hq : s.Accepted C q) : p = q := by
  obtain ⟨_, hslot, _, _⟩ := hp
  obtain ⟨_, hslot', _, _⟩ := hq
  exact Option.some.inj (hslot.symm.trans hslot')

/-- What a turn comes to where a candidate is accepted: the match committed, or ESIZE (R160, R162). -/
theorem EncoderTurn.of_accepted {C : Config} {s : State} {x : Flow} {p : Nat} (h : EncoderTurn C s x)
    (hp : s.Accepted C p) : ∃ len, Matched C s p len ∧
      ((s.wp + (matchTokens s p len).length ≤ s.op.outCap.toNat ∧
        ∃ ht, (C.hupd = .all → EnteredAll C s len ht) ∧ (C.hupd = .start → EnteredAll C s 1 ht) ∧
          x = .go { s with
            ip := s.ip + len, ll := 0, ls := s.ip + len, wp := s.wp + (matchTokens s p len).length
            cb := refControl len (s.ip - p), mlen := len, moff := s.ip - p, cand := some p, ht := ht
            mem := s.mem.writeAll (s.op.outBase + s.wp) (matchTokens s p len) }) ∨
       (s.op.outCap.toNat < s.wp + (matchTokens s p len).length ∧
        ∃ u : State, u.op = s.op ∧ unchangedOutside s.op.outBase s.op.outCap.toNat s.mem u.mem ∧
          x = .ended (raise .esize u))) := by
  have hroom : s.ip + 3 ≤ s.op.inLen.toNat := hp.1
  cases h with
  | literal _ _ _ none => exact absurd hp (none p)
  | filled _ _ _ none => exact absurd hp (none p)
  | ended atEnd => omega
  | matched q len ht found entered all start fits =>
    obtain rfl := hp.unique found.accepted
    exact ⟨len, found, .inl ⟨fits, ht, all, start, rfl⟩⟩
  | short u same _ _ mem why =>
    rcases why with ⟨_, none, _⟩ | ⟨q, len, found, big⟩ | ⟨atEnd, _⟩
    · exact absurd hp (none p)
    · obtain rfl := hp.unique found.accepted
      exact ⟨len, found, .inr ⟨big, u, same.1, mem, rfl⟩⟩
    · omega

/-- ESIZE of a COMPRESS stores no length (R256, R257). -/
theorem raise_esize_endsBad {s : State} (hc : s.op.cmd = .compress) : (raise .esize s).EndsBad 0xFF#8 :=
  ⟨rfl, by simp [storesLength, hc]⟩

/-- `raise` changes no byte outside the output region (R81). -/
theorem unchangedOutside_raise (f : Failure) {s t : State} (hop : t.op = s.op)
    (h : unchangedOutside s.op.outBase s.op.outCap.toNat s.mem t.mem) :
    unchangedOutside s.op.outBase s.op.outCap.toNat s.mem (raise f t).mem := fun a ha => by
  rw [raise_mem_outside f t (hop ▸ ha), h a ha]

/-- Entering the position at `IP` alone changes its slot alone (R157). -/
theorem EnteredAll.slot_one {C : Config} {s : State} {ht : List (Nat × Nat)} (h : EnteredAll C s 1 ht)
    (hroom : s.ip + 3 ≤ s.op.inLen.toNat) (j : Nat) :
    slot ht j = if j = s.hashOf C s.ip then some s.ip else slot s.ht j := by
  by_cases hj : j = s.hashOf C s.ip
  · rw [if_pos hj, hj]
    exact h.last s.ip (Nat.le_refl _) (by omega) hroom fun q' _ _ _ => by omega
  · rw [if_neg hj]
    refine h.rest j fun q _ _ _ => ?_
    obtain rfl : q = s.ip := by omega
    exact Ne.symm hj

/-- Settles O27: the two ways a turn with an accepted candidate goes, as `EncoderTurn.of_accepted` has them. -/
theorem compressCommitsAMatch : Obligations.CompressCommitsAMatch := by
  refine ⟨exec_eq_execWith .compress, fun C s p hr hb hc hp => ?_⟩
  obtain ⟨len, found, hturn⟩ := (encoderTurn_spec C hr hb hc).of_accepted hp
  refine ⟨len, found.len_ge, found.len_le, found.inside, found.agree, found.maximal, ?_⟩
  rw [execWith_compress_busy C hb hc]
  rcases hturn with ⟨fits, ht, hall, hstart, hx⟩ | ⟨big, u, hop, hmem, hx⟩
  · refine ⟨fun _ => ⟨_, by rw [hx, go_outcome], ?_, holdsAt_writeAll _ _ _, unchangedOutside_writeAll _ _ _,
      fun hu => ⟨(hall hu).last, (hall hu).rest⟩, fun hu => (hstart hu).slot_one hp.1⟩, fun hbig => ?_⟩
    · simp only [matchTokens, encRef_headD]
    · exact absurd fits (Nat.not_le.2 hbig)
  · refine ⟨fun hfits => absurd big (Nat.not_lt.2 hfits), fun _ => ⟨_, by rw [hx, ended_outcome], rfl,
      raise_esize_endsBad (hop ▸ hc), unchangedOutside_raise .esize hop hmem⟩⟩

end Sys2Proof.Machine
end

section
/-! SUPPORT. What each step of a command leads to, and that every command ends (R302): an issued command that keeps the
host's obligations starts in the invariant, a step of a running one keeps it and moves `IP`, or ends the command. -/

namespace Sys2Proof.Machine

open Sys2Proof

variable {C : Config} {s : State}

/-! ## The step of each kind of state -/

theorem stepWith_issue (hb : s.phase ≠ .busy) (hs : s.start = true) : stepWith C s = issue C s.regs.cmd s := by
  cases hp : s.phase with
  | busy => exact absurd hp hb
  | idle | done =>
    cases hc : s.regs.cmd <;>
      simp [stepWith, nextInstr, hp, hs, hc, Cmd.instr, execWith, execCompressWith, execDecompressWith]

theorem stepWith_compress (hb : s.phase = .busy) (hs : s.start = false) (hc : s.op.cmd = .compress) :
    stepWith C s = (encoderTurn C s).outcome := by
  simp [stepWith, nextInstr, hb, hs, hc, execWith_compress_busy]

theorem stepWith_token (hb : s.phase = .busy) (hs : s.start = false) (hc : s.op.cmd = .decompress) {i : Instr}
    (hf : fetchToken s = some i) : stepWith C s = execToken i s := by
  simp [stepWith, nextInstr, hb, hs, hc, hf, execWith_token C (fetchToken_isToken hf)]

theorem stepWith_streamEnd (hb : s.phase = .busy) (hs : s.start = false) (hc : s.op.cmd = .decompress)
    (hi : s.op.inLen.toNat ≤ s.ip) : stepWith C s = .next (decoderEnd s) := by
  simp [stepWith, nextInstr, hb, hs, hc, fetchToken_end hi, execWith, execDecompressWith, hi]

theorem stepWith_truncated (hb : s.phase = .busy) (hs : s.start = false) (hc : s.op.cmd = .decompress)
    (hi : s.ip < s.op.inLen.toNat) (hf : fetchToken s = none) : stepWith C s = .next (truncatedToken s) := by
  simp [stepWith, nextInstr, hb, hs, hc, hf, execWith, execDecompressWith, Nat.not_le.2 hi]

theorem decoderEnd_write (hm : s.mode = .write) : decoderEnd s = finish s.wp s := by simp [decoderEnd, hm]

theorem decoderEnd_count (hm : s.mode = .count) : decoderEnd s = raise .esize s := by simp [decoderEnd, hm]

/-! ## The invariant along a command -/

/-- The invariant asks nothing of an engine at rest. -/
theorem State.RunInv.of_not_busy (h : s.phase ≠ .busy) : s.RunInv where
  startTaken hb := absurd hb h
  operands hb := absurd hb h
  cursor hb := absurd hb h
  wpWidth hb := absurd hb h
  wpCap hb := absurd hb h
  literalRun hb := absurd hb h
  table hb := absurd hb h
  countFirst hb := absurd hb h

/-- A command that passes its argument check and has input starts in the invariant (R126). -/
theorem runInv_initialise {c : Cmd} (hargs : badArguments (sampled c s.regs) = false) (hlen : s.regs.inLen ≠ 0#32)
    (hd : s.regs.Disjoint) : (initialise (sample c s)).RunInv where
  startTaken _ := rfl
  operands _ := ⟨hlen, hargs, hd⟩
  cursor _ := Nat.zero_le _
  wpWidth _ := Nat.zero_le _
  wpCap _ _ := Nat.zero_le _
  literalRun _ _ := ⟨rfl, Nat.zero_le _⟩
  table _ hc := by
    have hcompress : c = .compress := hc
    simp [hcompress]
  countFirst _ h := absurd h (by simp)

/-- A turn of COMPRESS that goes on keeps the invariant, if it keeps the cursors in their bounds and enters in `HT`
only positions it has passed. -/
theorem State.RunInv.of_encoder_turn {t : State} {n : Nat} (hr : s.RunInv) (hb : s.phase = .busy)
    (hc : s.op.cmd = .compress) (hop : t.op = s.op) (hstart : t.start = s.start) (hfirst : t.countFirst = s.countFirst)
    (hip : t.ip ≤ s.op.inLen.toNat) (hwp : t.wp ≤ s.op.outCap.toNat) (hrun : t.ls + t.ll = t.ip ∧ t.ll ≤ 31)
    (hht : Entered C s n t.ht) (hn : s.ip + n ≤ t.ip) (hpos : 0 < n) : t.RunInv where
  startTaken _ := hstart.trans (hr.startTaken hb)
  operands _ := by rw [hop]; exact hr.operands hb
  cursor _ := by rw [hop]; exact hip
  wpWidth _ := by have := s.op.outCap.isLt; simp only [lenMax]; omega
  wpCap _ _ := by rw [hop]; exact hwp
  literalRun _ _ := hrun
  table _ _ e he := by
    rw [hop]
    rcases hht.slots e he with hold | ⟨_, hlt, hroom, _⟩
    · have := hr.table hb hc e hold
      omega
    · omega
  countFirst _ h := by
    have := (hr.countFirst hb (hfirst ▸ h)).1
    rw [hc] at this
    cases this

/-- A token that goes on keeps the invariant, if it keeps the cursors in their bounds. -/
theorem State.RunInv.of_token {t : State} (hr : s.RunInv) (hb : s.phase = .busy) (hc : s.op.cmd = .decompress)
    (hop : t.op = s.op) (hstart : t.start = s.start) (hip : t.ip ≤ s.op.inLen.toNat) (hwidth : t.wp ≤ lenMax)
    (hwp : t.mode = .write → t.wp ≤ s.op.outCap.toNat) (hfirst : t.countFirst = true → t.mode = .count) : t.RunInv := by
  have hnot : t.op.cmd ≠ .compress := by rw [hop, hc]; decide
  exact {
    startTaken := fun _ => hstart.trans (hr.startTaken hb)
    operands := fun _ => by rw [hop]; exact hr.operands hb
    cursor := fun _ => by rw [hop]; exact hip
    wpWidth := fun _ => hwidth
    wpCap := fun _ h => by rw [hop]; exact hwp (h.resolve_left hnot)
    literalRun := fun _ h => absurd h hnot
    table := fun _ h => absurd h hnot
    countFirst := fun _ h => ⟨hop ▸ hc, hfirst h⟩ }

/-! ## Progress -/

/-- What a step of a running command leads to. -/
inductive Onward (s : State) : Host.Outcome State Fault Refusal → Prop
  /-- the command goes on, with `IP` moved -/
  | goesOn (t : State) (busy : t.phase = .busy) (op : t.op = s.op) (moves : s.ip < t.ip) (inv : t.RunInv) :
      Onward s (.next t)
  /-- the command has ended -/
  | ends (t : State) (done : t.phase = .done) (taken : t.start = false) (op : t.op = s.op) : Onward s (.next t)

theorem EncoderTurn.onward {x : Flow} (h : EncoderTurn C s x) (hr : s.RunInv) (hb : s.phase = .busy)
    (hc : s.op.cmd = .compress) : Onward s x.outcome := by
  have hrun := hr.literalRun hb hc
  have hcap := hr.wpCap hb (.inl hc)
  cases h with
  | literal cand ht inside none room entered =>
    exact .goesOn _ hb rfl (Nat.lt_succ_self _)
      (hr.of_encoder_turn hb hc rfl rfl rfl inside hcap ⟨by simp only; omega, room⟩ entered (Nat.le_refl _) (by omega))
  | filled cand ht inside none full entered all look noLook fits =>
    exact .goesOn _ hb rfl (Nat.lt_succ_self _)
      (hr.of_encoder_turn hb hc rfl rfl rfl inside fits ⟨rfl, Nat.zero_le _⟩ entered (Nat.le_refl _) (by omega))
  | matched p len ht found entered all start fits =>
    have hlen := found.len_ge
    exact .goesOn _ hb rfl (by simp only; omega)
      (hr.of_encoder_turn hb hc rfl rfl rfl found.inside fits ⟨rfl, Nat.zero_le _⟩ entered (Nat.le_refl _) (by omega))
  | ended => exact .ends _ rfl (hr.startTaken hb) rfl
  | short u same =>
    obtain ⟨hop, _, hstart, _⟩ := same
    exact .ends _ rfl (hstart.trans (hr.startTaken hb)) hop

theorem TokenTurn.onward {i : Instr} {x : Host.Outcome State Fault Refusal} (h : TokenTurn i s x) (hr : s.RunInv)
    (hb : s.phase = .busy) (hc : s.op.cmd = .decompress) (hsize : 2 ≤ i.size)
    (hin : s.ip + i.size ≤ s.op.inLen.toNat) : Onward s x := by
  have hsat : ∀ n, sat n ≤ lenMax := fun n => Nat.min_le_right _ _
  have hcap := s.op.outCap.isLt
  have hmoves : s.ip < s.ip + i.size := by omega
  have hfirst := fun h => (hr.countFirst hb h).2
  cases h with
  | counted mode =>
    exact .goesOn _ hb rfl hmoves
      (hr.of_token hb hc rfl rfl hin (hsat _) (fun h => by simp [mode] at h) fun _ => mode)
  | short mode tooLong =>
    exact .goesOn _ hb rfl hmoves (hr.of_token hb hc rfl rfl hin (hsat _) (fun h => by simp at h) fun _ => rfl)
  | literal data is mode fits =>
    exact .goesOn _ hb rfl hmoves
      (hr.of_token hb hc rfl rfl hin (by simp only [lenMax]; omega) (fun _ => fits) hfirst)
  | copied n off is mode fits back =>
    exact .goesOn _ hb rfl hmoves
      (hr.of_token hb hc rfl rfl hin (by simp only [lenMax]; omega) (fun _ => fits) hfirst)
  | bad => exact .ends _ rfl (hr.startTaken hb) rfl

theorem decoderEnd_onward (hs : s.start = false) : Onward s (.next (decoderEnd s)) := by
  cases hm : s.mode with
  | write => rw [decoderEnd_write hm]; exact .ends _ rfl hs rfl
  | count => rw [decoderEnd_count hm]; exact .ends _ rfl hs rfl

/-- A step of a running command goes on or ends it, and comes to no fault and no refusal. -/
theorem stepWith_onward (C : Config) (hr : s.RunInv) (hb : s.phase = .busy) : Onward s (stepWith C s) := by
  have hs := hr.startTaken hb
  cases hc : s.op.cmd with
  | compress =>
    rw [stepWith_compress hb hs hc]
    exact (encoderTurn_spec C hr hb hc).onward hr hb hc
  | decompress =>
    cases hf : fetchToken s with
    | some i =>
      obtain ⟨htoken, hwf, hsize, hin⟩ := fetchToken_spec hf
      rw [stepWith_token hb hs hc hf]
      exact (execToken_spec htoken hwf hb hc).onward hr hb hc hsize hin
    | none =>
      by_cases hi : s.op.inLen.toNat ≤ s.ip
      · rw [stepWith_streamEnd hb hs hc hi]
        exact decoderEnd_onward hs
      · rw [stepWith_truncated hb hs hc (by omega) hf]
        exact .ends _ rfl hs rfl

/-- A running command ends within a step for each input byte left and one for the end (R302). -/
theorem runWith_busy_ends (C : Config) {n : Nat} (hr : s.RunInv) (hb : s.phase = .busy)
    (hn : s.op.inLen.toNat - s.ip < n) : ∃ t, runWith C n s = .next t ∧ t.phase = .done ∧ t.op = s.op := by
  induction n generalizing s with
  | zero => omega
  | succ n ih =>
    generalize hx : stepWith C s = x
    have honward := stepWith_onward C hr hb
    rw [hx] at honward
    cases honward with
    | ends t done taken op =>
      exact ⟨t, by rw [runWith_succ C n hx, runWith_rest C (by simp [done]) taken], done, op⟩
    | goesOn t busy op moves inv =>
      have hcursor := inv.cursor busy
      obtain ⟨v, hv, hdone, hop⟩ := ih inv busy (by rw [op] at hcursor ⊢; omega)
      exact ⟨v, by rw [runWith_succ C n hx, hv], hdone, hop.trans op⟩

/-- What the issue of a command that keeps the host's obligations comes to (R124 to R128). -/
theorem Issued.first_step (h : Issued C s) :
    (∃ t, stepWith C s = .next t ∧ t.phase = .done ∧ t.start = false ∧ t.op = s.regs) ∨
    (stepWith C s = .next (initialise (sample s.regs.cmd s)) ∧ (initialise (sample s.regs.cmd s)).RunInv) := by
  rw [stepWith_issue h.notBusy h.started]
  have hnone := (brokenObligation_eq_none_iff C s.regs).2 ⟨h.noWrap, h.disjoint⟩
  rcases issue_cases C s.regs.cmd s with ⟨r, hr, _⟩ | ⟨_, ⟨_, hx⟩ | ⟨_, _, hx⟩ | ⟨hargs, hlen, hx⟩⟩
  · rw [hnone] at hr
    cases hr
  · exact .inl ⟨_, hx, rfl, rfl, rfl⟩
  · exact .inl ⟨_, hx, rfl, rfl, rfl⟩
  · exact .inr ⟨hx, runInv_initialise hargs hlen h.disjoint⟩

/-- Every command that keeps the host's obligations ends, with the operands it was issued on (R302). -/
theorem Issued.ends (h : Issued C s) : ∃ t, Ends C s t ∧ t.op = s.regs := by
  rcases h.first_step with ⟨t, hx, hdone, htaken, hop⟩ | ⟨hx, hinv⟩
  · refine ⟨t, ⟨?_, hdone⟩, hop⟩
    rw [stepBound, runWith_succ C _ hx, runWith_rest C (by simp [hdone]) htaken]
  · obtain ⟨t, ht, hdone, hop⟩ := runWith_busy_ends C (n := s.regs.inLen.toNat + 1) hinv rfl
      (Nat.lt_succ_of_le (Nat.sub_le _ _))
    exact ⟨t, ⟨by rw [stepBound, runWith_succ C _ hx, ht], hdone⟩, hop⟩

end Sys2Proof.Machine
end

section
/-! SUPPORT. Noninterference (R15, R40). Two engines are twins when they run the same command, with the same cursors, on
input of the same content, and have written the same output; where the regions lie, what else memory holds and what earlier
commands left behind may differ. Each operation takes twins to twins, so a step does, so a run does. -/

namespace Sys2Proof.Machine

open Sys2Proof

variable {C : Config} {c : Cmd} {L : Prop} {s u : State}

/-! ## The relations -/

/-- The command `c` runs, and its regions share no address. -/
def State.Runs (c : Cmd) (s : State) : Prop :=
  s.phase = .busy ∧ s.start = false ∧ s.op.cmd = c ∧
    ∀ j < s.op.inLen.toNat, ∀ w < s.op.outCap.toNat, s.op.inBase + j ≠ s.op.outBase + w

/-- The command has the output bytes below `WP` in memory: COMPRESS always, DECOMPRESS in WRITE mode. -/
def State.Writing (c : Cmd) (s : State) : Prop := c = .compress ∨ s.mode = .write

/-- The two engines run the command `c`, at the same point, on the same input. `L` says that the latches `MLEN` and `MOFF`
agree too: they matter inside a step only (R26). -/
structure Twin (c : Cmd) (L : Prop) (s u : State) : Prop where
  left : s.Runs c
  right : u.Runs c
  inLen : u.op.inLen = s.op.inLen
  outCap : u.op.outCap = s.op.outCap
  ip : u.ip = s.ip
  wp : u.wp = s.wp
  ls : u.ls = s.ls
  ll : u.ll = s.ll
  mode : u.mode = s.mode
  table : c = .compress → u.ht = s.ht
  latches : L → u.mlen = s.mlen ∧ u.moff = s.moff
  input : ∀ k < s.op.inLen.toNat, u.inByte k = s.inByte k
  output : s.Writing c → ∀ k < s.wp, u.outByte k = s.outByte k

/-- The engine has ended its command, and none is pending. -/
def State.Rests (s : State) : Prop := s.phase = .done ∧ s.start = false

/-- The two engines have ended with the same response and, after OK, the same output. -/
structure SameEnd (s u : State) : Prop where
  left : s.Rests
  right : u.Rests
  status : u.status = s.status
  rlenWr : u.rlenWr = s.rlenWr
  rlen : s.rlenWr = true → u.rlen = s.rlen
  output : s.status = okCode → ∀ k < s.rlen.toNat, u.outByte k = s.outByte k

/-- Parts of two commands that come to the same: twins again, the same end, or the same fault. -/
inductive TwinFlow (c : Cmd) (L : Prop) : Flow → Flow → Prop
  | go {s u : State} (h : Twin c L s u) : TwinFlow c L (.go s) (.go u)
  | ended {s u : State} (h : SameEnd s u) : TwinFlow c L (.ended s) (.ended u)
  | stop (f : Fault) : TwinFlow c L (.stop f) (.stop f)

/-- Steps and runs of two engines that come to the same. -/
inductive TwinOutcome (c : Cmd) : Host.Outcome State Fault Refusal → Host.Outcome State Fault Refusal → Prop
  | running {s u : State} (h : Twin c False s u) : TwinOutcome c (.next s) (.next u)
  | ended {s u : State} (h : SameEnd s u) : TwinOutcome c (.next s) (.next u)
  | fault (f : Fault) : TwinOutcome c (.fault f) (.fault f)

theorem State.Runs.busy (h : s.Runs c) : s.phase = .busy := h.1
theorem State.Runs.taken (h : s.Runs c) : s.start = false := h.2.1
theorem State.Runs.cmd (h : s.Runs c) : s.op.cmd = c := h.2.2.1
theorem State.Runs.apart (h : s.Runs c) :
    ∀ j < s.op.inLen.toNat, ∀ w < s.op.outCap.toNat, s.op.inBase + j ≠ s.op.outBase + w := h.2.2.2

theorem Twin.anyLatches (h : Twin c L s u) : Twin c False s u := { h with latches := False.elim }

/-- The latch `CB` never matters. -/
theorem Twin.latchCb (h : Twin c L s u) (cb cb' : Byte) : Twin c L { s with cb := cb } { u with cb := cb' } :=
  { h with left := h.left }

/-- A flow goes on with `k`, its twin with `k'`. -/
theorem TwinFlow.andThen {L' : Prop} {x y : Flow} {k k' : State → Flow} (h : TwinFlow c L x y)
    (hk : ∀ {s u : State}, Twin c L s u → TwinFlow c L' (k s) (k' u)) : TwinFlow c L' (x.andThen k) (y.andThen k') := by
  cases h with
  | go h => exact hk h
  | ended h => exact .ended h
  | stop f => exact .stop f

theorem TwinFlow.outcome {x y : Flow} (h : TwinFlow c L x y) : TwinOutcome c x.outcome y.outcome := by
  cases h with
  | go h => exact .running h.anyLatches
  | ended h => exact .ended h
  | stop f => exact .fault f

/-! ## The ends of a command -/

theorem Failure.code_ne_okCode (f : Failure) : f.code ≠ okCode := by cases f <;> decide

theorem Twin.raise (h : Twin c L s u) (f : Failure) : SameEnd (raise f s) (raise f u) := by
  have hstores : storesLength f u = storesLength f s := by simp only [storesLength, h.left.cmd, h.right.cmd]
  exact {
    left := ⟨rfl, h.left.taken⟩
    right := ⟨rfl, h.right.taken⟩
    status := rfl
    rlenWr := hstores
    rlen := fun hlen => by
      have hlen' : storesLength f s = true := hlen
      simp [hstores, hlen', h.wp]
    output := fun hok => absurd hok f.code_ne_okCode }

theorem Twin.finish (h : Twin c L s u) (hw : s.Writing c) : SameEnd (finish s.wp s) (finish u.wp u) where
  left := ⟨rfl, h.left.taken⟩
  right := ⟨rfl, h.right.taken⟩
  status := rfl
  rlenWr := rfl
  rlen _ := by simp only [finish_rlen, h.wp]
  output _ k hk := by
    have hle : (BitVec.ofNat 32 s.wp).toNat ≤ s.wp := by
      rw [BitVec.toNat_ofNat]
      exact Nat.mod_le _ _
    exact h.output hw k (Nat.lt_of_lt_of_le hk hle)

/-! ## Reads -/

theorem Twin.readIn (h : Twin c L s u) (i : Nat) : u.readIn i = s.readIn i := by
  unfold State.readIn
  rw [h.inLen]
  split
  · exact congrArg Except.ok (h.input i ‹_›)
  · rfl

theorem Twin.readOut (h : Twin c L s u) (hw : s.Writing c) (i : Nat) : u.readOut i = s.readOut i := by
  unfold State.readOut
  rw [h.outCap, h.wp]
  split
  · next hi => exact congrArg Except.ok (h.output hw i hi.1)
  · rfl

theorem Twin.triple (h : Twin c L s u) (i : Nat) : triple u i = triple s i := by
  simp only [Machine.triple, h.readIn]

theorem Twin.hashAt (h : Twin c L s u) (i : Nat) : hashAt C u i = hashAt C s i := by
  simp only [Machine.hashAt, h.triple]

theorem Twin.acceptCandidate (h : Twin c L s u) (hcand : u.cand = s.cand) : acceptCandidate u = acceptCandidate s := by
  simp only [Machine.acceptCandidate, hcand, h.ip, h.triple]

theorem Twin.extend (h : Twin c L s u) (p fuel len : Nat) : extend u p fuel len = extend s p fuel len := by
  induction fuel generalizing len with
  | zero => rfl
  | succ fuel ih => simp only [Machine.extend, h.readIn, h.ip, ih]

theorem Twin.matchLength (h : Twin c L s u) (p : Nat) : matchLength u p = matchLength s p := by
  simp only [Machine.matchLength, h.extend, h.inLen, h.ip]

theorem Twin.inputBytes (h : Twin c L s u) {i n : Nat} (hi : i + n ≤ s.op.inLen.toNat) :
    u.inputBytes i n = s.inputBytes i n :=
  List.map_congr_left fun k hk => h.input (i + k) (by have := List.mem_range.1 hk; omega)

/-- The fetch reads input bytes only. -/
theorem Twin.fetchToken (h : Twin c L s u) : fetchToken u = fetchToken s := by
  have hleft : u.op.inLen.toNat - u.ip = s.op.inLen.toNat - s.ip := by rw [h.inLen, h.ip]
  unfold Machine.fetchToken
  rw [hleft, h.ip, h.readIn]
  cases s.readIn s.ip with
  | error f => rfl
  | ok cb =>
    dsimp only
    split
    · rfl
    · next hfits =>
      have hpos := tokenSize_pos cb
      rw [h.inputBytes (by omega)]

/-! ## Writes -/

/-- The same byte written at `WP`, inside the output regions, changes no input (R64). -/
theorem Twin.write (h : Twin c L s u) (v : Byte) (hfit : s.wp < s.op.outCap.toNat) :
    Twin c L { s with mem := s.mem.write (s.op.outBase + s.wp) v, wp := s.wp + 1 }
      { u with mem := u.mem.write (u.op.outBase + u.wp) v, wp := u.wp + 1 } :=
  { h with
    wp := congrArg (· + 1) h.wp
    input := fun k hk => by
      have hs := h.left.apart k hk s.wp hfit
      have hu := h.right.apart k (by rwa [h.inLen]) u.wp (by rwa [h.wp, h.outCap])
      exact (Memory.read_write_other hu).trans ((h.input k hk).trans (Memory.read_write_other hs).symm)
    output := fun hw k hk => by
      simp only [State.outByte, Memory.read_write, Nat.add_left_cancel_iff, h.wp]
      split
      · rfl
      · exact h.output hw k (by simp only at hk; omega) }

theorem Twin.emitByte (h : Twin c L s u) (v : Byte) : TwinFlow c L (emitByte v s) (emitByte v u) := by
  by_cases hfit : s.wp < s.op.outCap.toNat
  · rw [emitByte_go hfit, emitByte_go (by rwa [h.wp, h.outCap])]
    exact .go (h.write v hfit)
  · rw [Machine.emitByte, Machine.emitByte, if_neg hfit, if_neg (by rwa [h.wp, h.outCap])]
    exact .stop _

theorem Twin.emit (h : Twin c L s u) (bytes : List Byte) : TwinFlow c L (emit bytes s) (emit bytes u) := by
  induction bytes generalizing s u with
  | nil => exact .go h
  | cons b rest ih => exact (h.emitByte b).andThen ih

theorem Twin.copyIn (h : Twin c L s u) (n i : Nat) : TwinFlow c L (copyIn n i s) (copyIn n i u) := by
  induction n generalizing i s u with
  | zero => exact .go h
  | succ n ih =>
    rw [Machine.copyIn, Machine.copyIn, h.readIn]
    cases s.readIn i with
    | error f => exact .stop f
    | ok b => exact (h.emitByte b).andThen (ih · (i + 1))

/-! ## COMPRESS -/

theorem Twin.flushLit (h : Twin c L s u) : TwinFlow c L (flushLit s) (flushLit u) := by
  by_cases hnone : s.ll = 0
  · rw [flushLit_none hnone, flushLit_none (h.ll.trans hnone)]
    exact .go { h with ls := h.ip }
  by_cases hshort : s.op.outCap.toNat - s.wp < 1 + s.ll
  · rw [flushLit_short hnone hshort, flushLit_short (by rwa [h.ll]) (by rwa [h.outCap, h.wp, h.ll])]
    exact .ended (h.raise .esize)
  have hlatched := h.latchCb (encLit s.ll) (encLit u.ll)
  rw [Machine.flushLit, Machine.flushLit, if_neg hnone, if_neg hshort, if_neg (by rwa [h.ll]),
    if_neg (by rwa [h.outCap, h.wp, h.ll])]
  rw [h.ll, h.ls] at hlatched ⊢
  refine (hlatched.emitByte _).andThen fun h => (h.copyIn _ _).andThen fun h => ?_
  exact .go { h with ll := rfl, ls := h.ip }

theorem Twin.emitRef (h : Twin c True s u) : TwinFlow c True (emitRef s) (emitRef u) := by
  obtain ⟨hmlen, hmoff⟩ := h.latches trivial
  by_cases hshort : s.op.outCap.toNat - s.wp < refSize s.mlen
  · rw [emitRef_short hshort, emitRef_short (by rwa [h.outCap, h.wp, hmlen])]
    exact .ended (h.raise .esize)
  · have hlatched := h.latchCb (refControl s.mlen s.moff) (refControl u.mlen u.moff)
    rw [Machine.emitRef, Machine.emitRef, if_neg hshort, if_neg (by rwa [h.outCap, h.wp, hmlen])]
    rw [hmlen, hmoff] at hlatched ⊢
    exact hlatched.emit _

theorem Twin.enterAll (h : Twin c L s u) (n p : Nat) : TwinFlow c L (enterAll C n p s) (enterAll C n p u) := by
  induction n generalizing p s u with
  | zero => exact .go h
  | succ n ih =>
    rw [Machine.enterAll, Machine.enterAll, h.inLen, h.hashAt]
    split
    · cases Machine.hashAt C s p with
      | error f => exact .stop f
      | ok j =>
        have hset : Twin c L { s with ht := setSlot s.ht j p } { u with ht := setSlot u.ht j p } :=
          { h with table := fun hc => congrArg (setSlot · j p) (h.table hc) }
        exact ih hset (p + 1)
    · exact ih h (p + 1)

theorem Twin.enterSkipped (h : Twin c True s u) : TwinFlow c True (enterSkipped C s) (enterSkipped C u) := by
  unfold Machine.enterSkipped
  rw [(h.latches trivial).1, h.ip]
  split
  · exact h.enterAll _ _
  · exact .go h

theorem Twin.literalTurn (h : Twin c L s u) : TwinFlow c L (literalTurn s) (literalTurn u) := by
  have hpassed : Twin c L { s with ll := s.ll + 1, ip := s.ip + 1 } { u with ll := u.ll + 1, ip := u.ip + 1 } :=
    { h with ll := congrArg (· + 1) h.ll, ip := congrArg (· + 1) h.ip }
  by_cases hfull : s.ll + 1 = litMax
  · rw [Machine.literalTurn, Machine.literalTurn, if_pos hfull, if_pos (by rwa [h.ll])]
    exact hpassed.flushLit
  · rw [Machine.literalTurn, Machine.literalTurn, if_neg hfull, if_neg (by rwa [h.ll])]
    exact .go hpassed

theorem Twin.matchTurn (h : Twin c L s u) (p : Nat) : TwinFlow c True (matchTurn C p s) (matchTurn C p u) := by
  rw [Machine.matchTurn, Machine.matchTurn, h.matchLength]
  cases Machine.matchLength s p with
  | error f => exact .stop f
  | ok len =>
    have hlatched : Twin c True { s with mlen := len, moff := s.ip - p } { u with mlen := len, moff := u.ip - p } :=
      { h with latches := fun _ => ⟨rfl, congrArg (· - p) h.ip⟩ }
    refine hlatched.flushLit.andThen fun h => h.emitRef.andThen fun h => h.enterSkipped.andThen fun h => ?_
    have hmoved := congrArg₂ (· + ·) h.ip (h.latches trivial).1
    exact .go { h with ip := hmoved, ls := hmoved }

/-- The lookup finds the same candidate and enters the same position. -/
theorem Twin.probe (h : Twin .compress L s u) :
    (∃ f, probe C s = .error f ∧ probe C u = .error f) ∨
    (∃ s' u', probe C s = .ok s' ∧ probe C u = .ok u' ∧ Twin .compress L s' u' ∧ u'.cand = s'.cand) := by
  have htable := h.table rfl
  have hhash : Machine.hashAt C u u.ip = Machine.hashAt C s s.ip := by rw [h.ip, h.hashAt]
  rw [Machine.probe, Machine.probe, hhash]
  cases Machine.hashAt C s s.ip with
  | error f => exact .inl ⟨f, rfl, rfl⟩
  | ok j =>
    refine .inr ⟨_, _, rfl, rfl, ?_, congrArg (slot · j) htable⟩
    exact { h with table := fun _ => congrArg₂ (setSlot · j ·) htable h.ip }

theorem Twin.encoderTurn (h : Twin .compress False s u) :
    TwinOutcome .compress (encoderTurn C s).outcome (encoderTurn C u).outcome := by
  unfold Machine.encoderTurn
  rw [h.ip, h.inLen]
  split
  · split
    · rcases h.probe (C := C) with ⟨f, hs, hu⟩ | ⟨s', u', hs, hu, h', hcand⟩
      · rw [hs, hu]
        exact .fault f
      · rw [hs, hu]
        dsimp only
        rw [h'.acceptCandidate hcand]
        cases Machine.acceptCandidate s' with
        | error f => exact .fault f
        | ok found =>
          cases found with
          | none => exact h'.literalTurn.outcome
          | some p => exact (h'.matchTurn p).outcome
    · exact h.literalTurn.outcome
  · exact (h.flushLit.andThen fun h => .ended (L := False) (h.finish (.inl rfl))).outcome

/-! ## DECOMPRESS -/

theorem Twin.copyBack (h : Twin c True s u) (hw : s.Writing c) (n : Nat) :
    TwinFlow c True (copyBack n s) (copyBack n u) := by
  induction n generalizing s u with
  | zero => exact .go h
  | succ n ih =>
    have hread : u.readOut (u.wp - u.moff) = s.readOut (s.wp - s.moff) := by
      rw [h.readOut hw, h.wp, (h.latches trivial).2]
    rw [Machine.copyBack, Machine.copyBack, hread]
    cases s.readOut (s.wp - s.moff) with
    | error f => exact .stop f
    | ok b =>
      by_cases hfit : s.wp < s.op.outCap.toNat
      · simp only [emitByte_go hfit, emitByte_go (s := u) (v := b) (by rwa [h.wp, h.outCap]), go_andThen]
        exact ih (h.write b hfit) hw
      · simp only [Machine.emitByte, h.wp, h.outCap, if_neg hfit]
        exact .stop _

theorem Twin.copyReference (h : Twin c L s u) (hw : s.Writing c) (n off : Nat) :
    TwinFlow c True (copyReference n off s) (copyReference n off u) := by
  have hlatched : Twin c True { s with mlen := n, moff := off } { u with mlen := n, moff := off } :=
    { h with latches := fun _ => ⟨rfl, rfl⟩ }
  by_cases hbad : off > s.wp
  · simp only [Machine.copyReference, if_pos hbad, if_pos (h.wp ▸ hbad : off > u.wp)]
    exact .ended (hlatched.raise .ecorrupt)
  · simp only [Machine.copyReference, if_neg hbad, if_neg (h.wp ▸ hbad : ¬off > u.wp)]
    exact hlatched.copyBack hw n

/-- A token is counted alike in COUNT mode, and where it does not fit; where it fits, its write decides. -/
theorem Twin.runToken (h : Twin .decompress False s u) (cb : Byte) (n size : Nat) {write : State → Flow}
    (hwrite : ∀ {s u : State}, Twin .decompress False s u → s.mode = .write →
      TwinFlow .decompress L (write s) (write u)) :
    TwinOutcome .decompress (runToken cb n size write s).outcome (runToken cb n size write u).outcome := by
  have hsum := congrArg (fun w => sat (w + n)) h.wp
  have hmoved := congrArg (· + size) h.ip
  cases hm : s.mode with
  | count =>
    rw [runToken_count hm, runToken_count (h.mode.trans hm)]
    refine .running { h with wp := hsum, ip := hmoved, output := fun hw => ?_ }
    simp [State.Writing, hm] at hw
  | write =>
    by_cases hshort : s.op.outCap.toNat - s.wp < n
    · rw [runToken_short hm hshort, runToken_short (h.mode.trans hm) (by rwa [h.outCap, h.wp])]
      refine .running { h with wp := hsum, ip := hmoved, mode := rfl, output := fun hw => ?_ }
      simp [State.Writing] at hw
    · rw [runToken_write hm (by omega), runToken_write (h.mode.trans hm) (by rw [h.outCap, h.wp]; omega)]
      refine ((hwrite (h.latchCb cb cb) hm).andThen (L' := L) fun h => ?_).outcome
      exact .go { h with ip := congrArg (· + size) h.ip }

theorem Twin.execToken (h : Twin .decompress False s u) {i : Instr} (ht : i.isToken = true) :
    TwinOutcome .decompress (execToken i s) (execToken i u) := by
  have hs := whenDecoding_of h.left.busy h.left.cmd
  have hu := whenDecoding_of h.right.busy h.right.cmd
  rcases token_kind ht with ⟨data, rfl, _⟩ | ⟨n, off, hi, _⟩
  · rw [execToken_lit, execToken_lit, hs, hu]
    exact h.runToken _ _ _ fun h _ => h.emit data
  · rw [execToken_ref hi, execToken_ref hi, runReference, runReference, hs, hu]
    exact h.runToken _ _ _ fun h hm => h.copyReference (.inr hm) n off

theorem Twin.decoderEnd (h : Twin c L s u) : SameEnd (decoderEnd s) (decoderEnd u) := by
  cases hm : s.mode with
  | write =>
    rw [decoderEnd_write hm, decoderEnd_write (h.mode.trans hm)]
    exact h.finish (.inr hm)
  | count =>
    rw [decoderEnd_count hm, decoderEnd_count (h.mode.trans hm)]
    exact h.raise .esize

/-! ## Steps and runs -/

theorem Twin.stepWith (h : Twin c False s u) : TwinOutcome c (stepWith C s) (stepWith C u) := by
  cases c with
  | compress =>
    rw [stepWith_compress h.left.busy h.left.taken h.left.cmd, stepWith_compress h.right.busy h.right.taken h.right.cmd]
    exact h.encoderTurn
  | decompress =>
    have hs := h.left
    have hu := h.right
    cases hf : Machine.fetchToken s with
    | some i =>
      rw [stepWith_token hs.busy hs.taken hs.cmd hf, stepWith_token hu.busy hu.taken hu.cmd (h.fetchToken.trans hf)]
      exact h.execToken (fetchToken_isToken hf)
    | none =>
      by_cases hi : s.op.inLen.toNat ≤ s.ip
      · rw [stepWith_streamEnd hs.busy hs.taken hs.cmd hi,
          stepWith_streamEnd hu.busy hu.taken hu.cmd (by rwa [h.inLen, h.ip])]
        exact .ended h.decoderEnd
      · rw [stepWith_truncated hs.busy hs.taken hs.cmd (by omega) hf,
          stepWith_truncated hu.busy hu.taken hu.cmd (by rw [h.inLen, h.ip]; omega) (h.fetchToken.trans hf)]
        exact .ended ((h.latchCb _ _).raise .ecorrupt)

theorem State.Rests.runWith (h : s.Rests) (C : Config) (k : Nat) : runWith C k s = .next s :=
  runWith_rest C (by rw [h.1]; decide) h.2 k

theorem Twin.runWith (h : Twin c False s u) (k : Nat) : TwinOutcome c (runWith C k s) (runWith C k u) := by
  induction k generalizing s u with
  | zero => exact .running h
  | succ k ih =>
    have hstep := h.stepWith (C := C)
    generalize hx : Machine.stepWith C s = x at hstep
    generalize hy : Machine.stepWith C u = y at hstep
    cases hstep with
    | running h' =>
      rw [runWith_succ C k hx, runWith_succ C k hy]
      exact ih h'
    | ended h' =>
      rw [runWith_succ C k hx, runWith_succ C k hy, h'.left.runWith, h'.right.runWith]
      exact .ended h'
    | fault f =>
      rw [runWith_fault k hx, runWith_fault k hy]
      exact .fault f

/-! ## Whole commands -/

/-- The command `c` is issued, keeps the host's obligations, and passes its argument check. -/
structure Accepts (C : Config) (c : Cmd) (s : State) : Prop where
  issued : Issued C s
  cmd : s.regs.cmd = c
  args : badArguments (sampled c s.regs) = false

theorem ReadyCompress.accepts (h : ReadyCompress C s) : Accepts C .compress s :=
  ⟨h.issued, h.cmd, (badArguments_compress s.regs).2 h.args⟩

theorem ReadyDecompress.accepts (h : ReadyDecompress C s) : Accepts C .decompress s :=
  ⟨h.issued, h.cmd, (badArguments_decompress s.regs).2 h.args⟩

/-- The first step of such a command (R127, R128). -/
theorem Accepts.first_step (h : Accepts C c s) : stepWith C s =
    .next (if s.regs.inLen = 0#32 then finish 0 (sample c s) else initialise (sample c s)) := by
  have hnone := (brokenObligation_eq_none_iff C s.regs).2 ⟨h.issued.noWrap, h.issued.disjoint⟩
  rw [stepWith_issue h.issued.notBusy h.issued.started, h.cmd, issue, hnone]
  simp only [h.args, Bool.false_eq_true, if_false]
  exact (apply_ite Host.Outcome.next _ _ _).symm

theorem Accepts.runs (h : Accepts C c s) (hlen : s.regs.inLen ≠ 0#32) : (initialise (sample c s)).Runs c :=
  ⟨rfl, rfl, rfl, (runInv_initialise h.args hlen h.issued.disjoint).apart rfl⟩

/-- Two commands on the same lengths and the same input come to the same. -/
theorem Accepts.twinOutcome (hs : Accepts C c s) (hu : Accepts C c u) (hlen : s.regs.inLen = u.regs.inLen)
    (hcap : s.regs.outCap = u.regs.outCap) (hin : inputOf s.regs s.mem = inputOf u.regs u.mem) (k : Nat) :
    TwinOutcome c (runWith C (k + 1) s) (runWith C (k + 1) u) := by
  rw [runWith_succ C k hs.first_step, runWith_succ C k hu.first_step, ← hlen]
  by_cases hempty : s.regs.inLen = 0#32
  · have hend : SameEnd (finish 0 (sample c s)) (finish 0 (sample c u)) :=
      ⟨⟨rfl, rfl⟩, ⟨rfl, rfl⟩, rfl, rfl, fun _ => rfl, fun _ k hk => absurd hk (Nat.not_lt_zero k)⟩
    simp only [if_pos hempty, hend.left.runWith, hend.right.runWith]
    exact .ended hend
  · simp only [if_neg hempty]
    rw [inputOf, inputOf, ← hlen] at hin
    refine Twin.runWith ?_ k
    exact {
      left := hs.runs hempty
      right := hu.runs (hlen ▸ hempty)
      inLen := hlen.symm
      outCap := hcap.symm
      ip := rfl
      wp := rfl
      ls := rfl
      ll := rfl
      mode := rfl
      table := fun hc => by simp only [initialise_ht, sample_op, sampled_cmd, hc]
      latches := False.elim
      input := fun j hj => (List.map_inj_left.1 hin j (List.mem_range.2 hj)).symm
      output := fun _ j hj => absurd hj (Nat.not_lt_zero j) }

/-- The two commands end, with the same response and, after OK, the same output. -/
theorem Accepts.same_end (hs : Accepts C c s) (hu : Accepts C c u) (hlen : s.regs.inLen = u.regs.inLen)
    (hcap : s.regs.outCap = u.regs.outCap) (hin : inputOf s.regs s.mem = inputOf u.regs u.mem) :
    ∃ t v, Ends C s t ∧ Ends C u v ∧ t.op = s.regs ∧ v.op = u.regs ∧ SameEnd t v := by
  obtain ⟨t, ht, htop⟩ := hs.issued.ends
  obtain ⟨v, hv, hvop⟩ := hu.issued.ends
  refine ⟨t, v, ht, hv, htop, hvop, ?_⟩
  have hsame := hs.twinOutcome hu hlen hcap hin (s.regs.inLen.toNat + 1)
  have htrun : runWith C (s.regs.inLen.toNat + 1 + 1) s = .next t := ht.1
  have hvrun : runWith C (s.regs.inLen.toNat + 1 + 1) u = .next v := by rw [hlen]; exact hv.1
  rw [htrun, hvrun] at hsame
  cases hsame with
  | running h => exact absurd (h.left.busy.symm.trans ht.2) (by decide)
  | ended h => exact h

/-- Settles O52: both commands of a pair are twins from their issue to their end. -/
theorem commandsAreIndependentOfTheRest : Obligations.CommandsAreIndependentOfTheRest := by
  intro C s u hlen hcap hin hready
  obtain ⟨c, hs, hu⟩ : ∃ c, Accepts C c s ∧ Accepts C c u :=
    hready.elim (fun h => ⟨_, h.1.accepts, h.2.accepts⟩) fun h => ⟨_, h.1.accepts, h.2.accepts⟩
  obtain ⟨t, v, ht, hv, htop, hvop, hend⟩ := hs.same_end hu hlen hcap hin
  refine ⟨t, v, ht, hv, hend.status, hend.rlenWr, hend.rlen, fun hok => List.map_congr_left fun k hk => ?_⟩
  rw [← htop, ← hvop]
  exact hend.output hok k (List.mem_range.1 hk)

end Sys2Proof.Machine
end

section
/-! SUPPORT. What a step keeps whether or not the engine is in order: its frame (R39, R40, R27), the order of `STATE` and
`MODE` (R35, R29), and the form of its plain data. Each is a relation of the state before to the state after that holds of
every operation and is kept in sequence, so it is shown of one operation at a time. -/

namespace Sys2Proof.Machine

open Sys2Proof

variable {C : Config} {c : Cmd} {s t u : State}

/-! ## The relations -/

/-- `STATUS` holds one of the four codes (R36). -/
def State.HasCode (s : State) : Prop :=
  s.status = 0x00#8 ∨ s.status = 0xFF#8 ∨ s.status = 0xFE#8 ∨ s.status = 0xFD#8

/-- What every step of the command `c` keeps, its issue included. A field left out of a proof is kept as it stands. -/
structure Framed (c : Cmd) (s t : State) : Prop where
  regs : t.regs = s.regs := by rfl
  table : c = .decompress → t.ht = s.ht := by exact fun _ => rfl
  memWf : s.mem.wf = true → t.mem.wf = true := by exact id
  htRising : risingFrom 0 s.ht = true → risingFrom 0 t.ht = true := by exact id
  statusCode : (s.phase = .done → s.HasCode) → t.phase = .done → t.HasCode := by exact id

/-- What every step of the command `c` keeps while it runs. -/
structure Kept (c : Cmd) (s t : State) : Prop extends Framed c s t where
  op : t.op = s.op := by rfl
  count : s.mode = .count → t.mode = .count := by exact id
  notIdle : s.phase ≠ .idle → t.phase ≠ .idle := by exact id

/-- Wherever this part of the command `c`, begun in `s`, goes on or ends, `Kept` holds. -/
inductive Keeps (c : Cmd) (s : State) : Flow → Prop
  | go {t : State} (h : Kept c s t) : Keeps c s (.go t)
  | ended {t : State} (h : Kept c s t) : Keeps c s (.ended t)
  | stop (f : Fault) : Keeps c s (.stop f)

theorem Framed.trans (h : Framed c s t) (h' : Framed c t u) : Framed c s u where
  regs := h'.regs.trans h.regs
  table hc := (h'.table hc).trans (h.table hc)
  memWf := h'.memWf ∘ h.memWf
  htRising := h'.htRising ∘ h.htRising
  statusCode := h'.statusCode ∘ h.statusCode

theorem Kept.refl (c : Cmd) (s : State) : Kept c s s := {}

theorem Kept.trans (h : Kept c s t) (h' : Kept c t u) : Kept c s u where
  toFramed := h.toFramed.trans h'.toFramed
  op := h'.op.trans h.op
  count := h'.count ∘ h.count
  notIdle := h'.notIdle ∘ h.notIdle

theorem Kept.keeps {x : Flow} (h : Kept c s t) (hx : Keeps c t x) : Keeps c s x := by
  cases hx with
  | go h' => exact .go (h.trans h')
  | ended h' => exact .ended (h.trans h')
  | stop f => exact .stop f

theorem Keeps.andThen {x : Flow} {k : State → Flow} (h : Keeps c s x) (hk : ∀ t, Keeps c t (k t)) :
    Keeps c s (x.andThen k) := by
  cases h with
  | go h => exact h.keeps (hk _)
  | ended h => exact .ended h
  | stop f => exact .stop f

theorem Keeps.kept {x : Flow} (h : Keeps c s x) (hx : x.outcome = .next t) : Kept c s t := by
  cases h with
  | go h => cases hx; exact h
  | ended h => cases hx; exact h
  | stop f => cases hx

/-! ## The ends of a command -/

theorem raise_hasCode (f : Failure) (s : State) : (raise f s).HasCode := by
  cases f with
  | esize => exact .inr (.inl rfl)
  | ecorrupt => exact .inr (.inr (.inl rfl))
  | eargs => exact .inr (.inr (.inr rfl))

theorem finish_hasCode (n : Nat) (s : State) : (finish n s).HasCode := .inl rfl

theorem raise_kept (f : Failure) (s : State) : Kept c s (raise f s) :=
  { memWf := raise_mem_wf f, statusCode := fun _ _ => raise_hasCode f s, notIdle := fun _ => by simp }

theorem finish_kept (n : Nat) (s : State) : Kept c s (finish n s) :=
  { statusCode := fun _ _ => finish_hasCode n s, notIdle := fun _ => by simp }

theorem decoderEnd_kept (s : State) : Kept c s (decoderEnd s) := by
  cases hm : s.mode with
  | write => rw [decoderEnd_write hm]; exact finish_kept _ s
  | count => rw [decoderEnd_count hm]; exact raise_kept .esize s

theorem truncatedToken_kept (s : State) : Kept c s (truncatedToken s) :=
  Kept.trans {} (raise_kept .ecorrupt { s with cb := s.mem.read (s.op.inBase + s.ip) })

/-! ## Writes to the output -/

theorem emitByte_keeps (v : Byte) (s : State) : Keeps c s (emitByte v s) := by
  unfold emitByte
  split
  · exact .go { memWf := Memory.write_wf _ _ }
  · exact .stop _

theorem emit_keeps (bytes : List Byte) (s : State) : Keeps c s (emit bytes s) := by
  induction bytes generalizing s with
  | nil => exact .go (.refl c s)
  | cons b rest ih => exact (emitByte_keeps b s).andThen ih

theorem copyIn_keeps (n i : Nat) (s : State) : Keeps c s (copyIn n i s) := by
  induction n generalizing i s with
  | zero => exact .go (.refl c s)
  | succ n ih =>
    rw [copyIn]
    cases s.readIn i with
    | error f => exact .stop f
    | ok b => exact (emitByte_keeps b s).andThen (ih (i + 1))

theorem copyBack_keeps (n : Nat) (s : State) : Keeps c s (copyBack n s) := by
  induction n generalizing s with
  | zero => exact .go (.refl c s)
  | succ n ih =>
    rw [copyBack]
    cases s.readOut (s.wp - s.moff) with
    | error f => exact .stop f
    | ok b => exact (emitByte_keeps b s).andThen ih

/-! ## COMPRESS, which alone writes `HT` -/

theorem setSlot_kept (h p : Nat) (s : State) : Kept .compress s { s with ht := setSlot s.ht h p } :=
  { table := nofun, htRising := setSlot_rising h p }

theorem flushLit_keeps (s : State) : Keeps c s (flushLit s) := by
  unfold flushLit
  split
  · exact .go {}
  · split
    · exact .ended (raise_kept .esize s)
    · exact Kept.keeps {} ((emitByte_keeps _ _).andThen fun t => (copyIn_keeps _ _ t).andThen fun u => .go {})

theorem emitRef_keeps (s : State) : Keeps c s (emitRef s) := by
  unfold emitRef
  split
  · exact .ended (raise_kept .esize s)
  · exact Kept.keeps {} (emit_keeps _ _)

theorem enterAll_keeps (n p : Nat) (s : State) : Keeps .compress s (enterAll C n p s) := by
  obtain ⟨ht, hx, hrising, _⟩ := enterAll_ok C (n := n) (p := p) (s := s)
  rw [hx]
  exact .go { table := nofun, htRising := hrising }

theorem enterSkipped_keeps (s : State) : Keeps .compress s (enterSkipped C s) := by
  unfold enterSkipped
  cases C.hupd with
  | all => exact enterAll_keeps _ _ s
  | start => exact .go (.refl _ s)

theorem literalTurn_keeps (s : State) : Keeps c s (literalTurn s) := by
  unfold literalTurn
  split
  · exact Kept.keeps {} (flushLit_keeps _)
  · exact .go {}

theorem matchTurn_keeps (p : Nat) (s : State) : Keeps .compress s (matchTurn C p s) := by
  unfold matchTurn
  cases matchLength s p with
  | error f => exact .stop f
  | ok len =>
    exact Kept.keeps {} ((flushLit_keeps _).andThen fun t => (emitRef_keeps t).andThen fun u =>
      (enterSkipped_keeps u).andThen fun v => .go {})

theorem probe_kept (h : probe C s = .ok t) : Kept .compress s t := by
  unfold probe at h
  cases hh : hashAt C s s.ip with
  | error f => simp [hh] at h
  | ok k =>
    simp only [hh, Except.ok.injEq] at h
    exact h ▸ (setSlot_kept k s.ip s).trans {}

theorem encoderTurn_keeps (s : State) : Keeps .compress s (encoderTurn C s) := by
  unfold encoderTurn
  split
  · split
    · cases hp : probe C s with
      | error f => exact .stop f
      | ok t =>
        refine (probe_kept hp).keeps ?_
        simp only
        cases acceptCandidate t with
        | error f => exact .stop f
        | ok a =>
          cases a with
          | none => exact literalTurn_keeps t
          | some p => exact matchTurn_keeps p t
    · exact literalTurn_keeps s
  · exact (flushLit_keeps s).andThen fun t => .ended (finish_kept t.wp t)

/-! ## DECOMPRESS -/

theorem checkCapacity_kept (n : Nat) (s : State) : Kept c s (checkCapacity n s) := by
  cases hm : s.mode with
  | count => rw [checkCapacity_count hm]; exact .refl c s
  | write =>
    by_cases hfit : n ≤ s.op.outCap.toNat - s.wp
    · rw [checkCapacity_fits hm hfit]; exact .refl c s
    · rw [checkCapacity_short hm (by omega)]; exact { count := fun _ => rfl }

theorem copyReference_keeps (n off : Nat) (s : State) : Keeps c s (copyReference n off s) := by
  unfold copyReference
  refine Kept.keeps (t := { s with mlen := n, moff := off }) {} ?_
  simp only
  split
  · exact .ended (raise_kept .ecorrupt _)
  · exact copyBack_keeps n _

theorem runToken_keeps (cb : Byte) (n size : Nat) {write : State → Flow} (hw : ∀ t, Keeps c t (write t)) (s : State) :
    Keeps c s (runToken cb n size write s) := by
  unfold runToken
  refine Kept.keeps (Kept.trans (t := { s with cb := cb }) {} (checkCapacity_kept n _)) ?_
  simp only
  split
  · exact .go {}
  · exact (hw _).andThen fun u => .go {}

/-- The write of a token, LIT or back-reference, is a flow that keeps the frame. -/
theorem execToken_kept {i : Instr} (hi : i.isToken = true) (h : execToken i s = .next t) : Kept c s t := by
  obtain ⟨write, hx, hlit, href⟩ := execToken_shape hi s
  have hw : ∀ u, Keeps c u (write u) := by
    rcases token_kind hi with ⟨data, hdata, _⟩ | ⟨n, off, hback, _⟩
    · rw [hlit data hdata]; exact emit_keeps data
    · rw [href n off hback]; exact copyReference_keeps n off
  rw [hx, whenDecoding] at h
  split at h
  · exact (runToken_keeps _ _ _ hw s).kept h
  · cases h

/-! ## Steps -/

/-- What the issue of a command leads to, where it is not refused (R124 to R128). -/
theorem issue_next (h : issue C c s = .next t) :
    t = raise .eargs (sample c s) ∨ t = finish 0 (sample c s) ∨
      (t = initialise (sample c s) ∧ badArguments (sampled c s.regs) = false ∧ s.regs.inLen ≠ 0#32 ∧
        s.regs.Disjoint) := by
  rcases issue_cases C c s with ⟨r, _, hx⟩ | ⟨hnone, ⟨_, hx⟩ | ⟨_, _, hx⟩ | ⟨hargs, hlen, hx⟩⟩ <;>
    rw [hx] at h <;> cases h
  · exact .inl rfl
  · exact .inr (.inl rfl)
  · exact .inr (.inr ⟨rfl, hargs, hlen, ((brokenObligation_eq_none_iff C s.regs).1 hnone).2⟩)

theorem sample_framed (c : Cmd) (s : State) : Framed c s (sample c s) :=
  { statusCode := fun _ h => by simp at h }

theorem initialise_framed (h : s.op.cmd = c) : Framed c s (initialise s) := by
  subst h
  cases hc : s.op.cmd with
  | compress => exact { table := nofun, htRising := fun _ => by simp [hc, risingFrom] }
  | decompress => exact { table := fun _ => by simp [hc], htRising := fun h => by simpa [hc] using h }

theorem issue_framed (h : issue C c s = .next t) : Framed c s t := by
  refine (sample_framed c s).trans ?_
  rcases issue_next h with rfl | rfl | ⟨rfl, _⟩
  · exact (raise_kept .eargs _).toFramed
  · exact (finish_kept 0 _).toFramed
  · exact initialise_framed rfl

theorem issue_notIdle (h : issue C c s = .next t) : t.phase ≠ .idle := by
  rcases issue_next h with rfl | rfl | ⟨rfl, _⟩ <;> simp

/-- All that a step can lead to. -/
inductive StepTo (C : Config) (s t : State) : Prop
  /-- the engine at rest -/
  | rest (notBusy : s.phase ≠ .busy) (start : s.start = false) (same : t = s)
  /-- the issue of a command -/
  | issued (notBusy : s.phase ≠ .busy) (start : s.start = true) (is : issue C s.regs.cmd s = .next t)
  /-- a turn of a running command -/
  | ran (busy : s.phase = .busy) (kept : Kept s.op.cmd s t)

theorem stepWith_next (h : stepWith C s = .next t) : StepTo C s t := by
  rcases stepWith_cases C s with ⟨hb, hs, hx⟩ | ⟨hb, hs, hx⟩ | ⟨_, _, hx⟩ | ⟨hb, _, hc, hx⟩ | ⟨hb, _, _, _, hx⟩ |
    ⟨hb, _, _, _, i, _, hi, hx⟩ | ⟨hb, _, _, _, _, hx⟩ <;> rw [hx] at h
  · cases h; exact .rest hb hs rfl
  · exact .issued hb hs h
  · cases h
  · exact .ran hb (hc ▸ (encoderTurn_keeps s).kept h)
  · cases h; exact .ran hb (decoderEnd_kept s)
  · exact .ran hb (execToken_kept hi h)
  · cases h; exact .ran hb (truncatedToken_kept s)

/-- The command that the next step of `s` belongs to: the running one, else the one that `CMD` selects (R34). -/
def State.command (s : State) : Cmd := if s.phase = .busy then s.op.cmd else s.regs.cmd

theorem State.command_busy (h : s.phase = .busy) : s.command = s.op.cmd := if_pos h
theorem State.command_notBusy (h : s.phase ≠ .busy) : s.command = s.regs.cmd := if_neg h

theorem StepTo.framed (h : StepTo C s t) : Framed s.command s t := by
  cases h with
  | rest _ _ same => subst same; exact (Kept.refl _ _).toFramed
  | issued notBusy _ is => rw [State.command_notBusy notBusy]; exact issue_framed is
  | ran busy kept => rw [State.command_busy busy]; exact kept.toFramed

theorem StepTo.kept (h : StepTo C s t) (hb : s.phase = .busy) : Kept s.op.cmd s t := by
  cases h with
  | rest notBusy => exact absurd hb notBusy
  | issued notBusy => exact absurd hb notBusy
  | ran _ kept => exact kept

/-- Settles O34: a running command's turn is `Kept`, a started one is issued, and an engine at rest stays. -/
theorem stateAndModeOnlyMoveForward : Obligations.StateAndModeOnlyMoveForward := by
  intro C s t h
  have hstep := stepWith_next h
  refine ⟨fun hb => (hstep.kept hb).notIdle (by simp [hb]), fun hb hs => ?_, fun hb hs => ?_,
    fun hb => (hstep.kept hb).count⟩
  · rw [stepWith_issue hb hs] at h
    exact issue_notIdle h
  · cases hstep with
    | rest _ _ same => exact same
    | issued _ start => simp [hs] at start
    | ran busy => exact absurd busy hb

/-- Settles O35: the frame of every step, and of a running command's. -/
theorem engineKeepsRegistersAndTable : Obligations.EngineKeepsRegistersAndTable := by
  intro C s t h
  have hstep := stepWith_next h
  exact ⟨hstep.framed.regs, fun hb => (hstep.kept hb).op, fun hb => (hstep.kept hb).table,
    fun hb hc => hstep.framed.table ((State.command_notBusy hb).trans hc)⟩

end Sys2Proof.Machine
end

section
/-! SUPPORT. The invariant of the engine, at reset and along every step (R22, R24, R25, R28, R36, R168). -/

namespace Sys2Proof.Machine

open Sys2Proof

variable {C : Config} {s t : State}

/-! ## The invariant of the engine -/

/-- Settles O29: memory and table are empty at reset, and no command runs or has ended. -/
theorem invariantHoldsAtReset : Obligations.InvariantHoldsAtReset where
  memWf := reset_memory_wf
  htRising := rfl
  run := .of_not_busy (by decide)
  statusCode := nofun

/-- Every step keeps the invariant of the running command. -/
theorem stepWith_runInv (hr : s.RunInv) (h : stepWith C s = .next t) : t.RunInv := by
  cases stepWith_next h with
  | rest _ _ same => exact same ▸ hr
  | issued _ _ is =>
    rcases issue_next is with rfl | rfl | ⟨rfl, hargs, hlen, hdisjoint⟩
    · exact .of_not_busy (by simp)
    · exact .of_not_busy (by simp)
    · exact runInv_initialise hargs hlen hdisjoint
  | ran busy =>
    have honward := stepWith_onward C hr busy
    rw [h] at honward
    cases honward with
    | goesOn _ _ _ _ inv => exact inv
    | ends _ done => exact .of_not_busy (by simp [done])

/-- Every step keeps the invariant: its command in order, its plain data in form. -/
theorem stepWith_inv (hi : s.Inv) (h : stepWith C s = .next t) : t.Inv where
  memWf := (stepWith_next h).framed.memWf hi.memWf
  htRising := (stepWith_next h).framed.htRising hi.htRising
  run := stepWith_runInv hi.run h
  statusCode := (stepWith_next h).framed.statusCode hi.statusCode

/-- Settles O30: `step` is the step of this hardware, and every step keeps both invariants. -/
theorem everyStepKeepsTheInvariant : Obligations.EveryStepKeepsTheInvariant :=
  ⟨fun s _ hi h => stepWith_inv hi (step_eq_stepWith s ▸ h), fun _ _ _ => stepWith_inv, fun _ _ _ => stepWith_runInv⟩

/-! ## The slots of the hash table -/

/-- The slots claim nothing of an engine that runs no COMPRESS. -/
theorem State.TableInv.of_not_compressing (h : s.phase ≠ .busy ∨ s.op.cmd ≠ .compress) : s.TableInv C :=
  fun hb hc => h.elim (absurd hb) (absurd hc)

/-- Entering positions under their own hash keeps the slots in order: output that fits leaves the input bytes, and so
the hashes of earlier entries, as they are (R64). -/
theorem State.TableInv.of_entered {n : Nat} {bytes : List Byte} (h : s.TableInv C) (hr : s.RunInv)
    (hb : s.phase = .busy) (hc : s.op.cmd = .compress) (entered : Entered C s n t.ht) (hop : t.op = s.op)
    (hmem : t.mem = s.mem.writeAll (s.op.outBase + s.wp) bytes) (fits : s.wp + bytes.length ≤ s.op.outCap.toNat) :
    t.TableInv C := by
  have hash : ∀ q, q + 3 ≤ s.op.inLen.toNat → t.hashOf C q = s.hashOf C q := fun q hq =>
    hashOf_writeAll (hr.apart hb) fits hop hmem hq
  intro _ _ e he
  rcases entered.slots e he with hold | ⟨_, _, hroom, hnew⟩
  · rw [hash e.2 (hr.table hb hc e hold).2]
    exact h hb hc e hold
  · rw [hash e.2 hroom, hnew]

theorem EncoderTurn.tableInv {x : Flow} (h : EncoderTurn C s x) (hx : x.outcome = .next t) (hi : s.TableInv C)
    (hr : s.RunInv) (hb : s.phase = .busy) (hc : s.op.cmd = .compress) : t.TableInv C := by
  cases h with
  | literal cand ht inside none room entered =>
    cases hx
    exact hi.of_entered (bytes := []) hr hb hc entered rfl rfl (hr.wpCap hb (.inl hc))
  | filled cand ht inside none full entered all look noLook fits =>
    cases hx
    exact hi.of_entered hr hb hc entered rfl rfl (by rwa [fullToken_length full])
  | matched p len ht found entered all start fits =>
    cases hx
    exact hi.of_entered hr hb hc entered rfl rfl fits
  | ended => cases hx; exact .of_not_compressing (.inl (by simp))
  | short => cases hx; exact .of_not_compressing (.inl (by simp))

theorem stepWith_tableInv (hr : s.RunInv) (hi : s.TableInv C) (h : stepWith C s = .next t) : t.TableInv C := by
  cases stepWith_next h with
  | rest _ _ same => exact same ▸ hi
  | issued _ _ is =>
    rcases issue_next is with rfl | rfl | ⟨rfl, _⟩
    · exact .of_not_compressing (.inl (by simp))
    · exact .of_not_compressing (.inl (by simp))
    · intro _ hc e he
      have hcompress : s.regs.cmd = .compress := hc
      simp [hcompress] at he
  | ran busy kept =>
    cases hc : s.op.cmd with
    | compress =>
      rw [stepWith_compress busy (hr.startTaken busy) hc] at h
      exact (encoderTurn_spec C hr busy hc).tableInv h hi hr busy hc
    | decompress => exact .of_not_compressing (.inr (by simp [kept.op, hc]))

/-- Settles O31: a listed slot is below `IP` by the invariant, and of its own hash by the table's. -/
theorem tableSlotsHoldTheirOwnHash : Obligations.TableSlotsHoldTheirOwnHash := by
  intro C s t hr hi h
  have htable := stepWith_tableInv hr hi h
  refine ⟨htable, fun hb hc j p hslot => ?_⟩
  have hmem := slot_mem hslot
  obtain ⟨hbelow, hroom⟩ := (stepWith_runInv hr h).table hb hc _ hmem
  exact ⟨hbelow, hroom, htable hb hc _ hmem⟩

end Sys2Proof.Machine
end

section
/-! SUPPORT. What a step runs, in terms of the decoder (R191, R192), and what a host write and a host read come to (R30,
R34, R39). -/

namespace Sys2Proof.Machine

open Sys2Proof

variable {C : Config} {s : State}

/-! ## The fetch -/

theorem inputBytes_take (s : State) (i : Nat) {k n : Nat} (h : k ≤ n) :
    (s.inputBytes i n).take k = s.inputBytes i k := by
  simp [State.inputBytes, ← List.map_take, List.take_range, Nat.min_eq_left h]

/-- The fetch takes the token that the bytes from `IP` to the end of the input decode to, if any (R191 to R193). -/
theorem fetchToken_eq (s : State) : fetchToken s =
    (decodeToken (s.inputBytes s.ip (s.op.inLen.toNat - s.ip))).toOption.map Prod.fst := by
  cases hn : s.op.inLen.toNat - s.ip with
  | zero => rw [fetchToken_end (by omega)]; rfl
  | succ n =>
    rw [inputBytes_succ]
    by_cases ht : n + 1 < tokenSize (s.mem.read (s.op.inBase + s.ip))
    · rw [fetchToken_truncated (by omega) (hn ▸ ht)]
      simp [decodeToken, ht, Except.toOption]
    · rw [fetchToken_complete (by omega) (by omega)]
      simp [decodeToken, ht, Except.toOption, inputBytes_take s (s.ip + 1) (Nat.sub_le_of_le_add (Nat.not_lt.1 ht))]

theorem step_nextInstr {i : Instr} (hs : s.phase ≠ .busy ∨ s.start = false) (h : nextInstr s = some i) :
    step s = exec i s := by
  rcases hs with hs | hs <;> simp [step, hs, h]

theorem nextInstr_decompress (hb : s.phase = .busy) (hc : s.op.cmd = .decompress) :
    nextInstr s = some ((fetchToken s).getD .decompress) := by
  cases hf : fetchToken s <;> simp [nextInstr, hb, hc, hf]

theorem nextInstr_compress (hb : s.phase = .busy) (hc : s.op.cmd = .compress) : nextInstr s = some .compress := by
  simp [nextInstr, hb, hc]

theorem nextInstr_started (hb : s.phase ≠ .busy) (hs : s.start = true) : nextInstr s = some s.regs.cmd.instr := by
  cases hp : s.phase with
  | busy => exact absurd hp hb
  | idle | done => simp [nextInstr, hp, hs]

theorem commandOfBit_bit (c : Cmd) : commandOfBit c.bit = c := by cases c <;> rfl

theorem bit_commandOfBit (b : BitVec 1) : (commandOfBit b).bit = b := by revert b; decide

/-- Settles O8: `nextInstr` is the decoder's answer, whichever kind of unit it reads. -/
theorem stepRunsTheDecodedInstruction : Obligations.StepRunsTheDecodedInstruction := by
  refine ⟨fun s i rest hb hs hc hd => ?_, fun s e hb hs hc hd => ?_, fun s hb hs hc => ?_, fun s i hb hs hd => ?_⟩
  · refine step_nextInstr (.inr hs) ?_
    rw [nextInstr_decompress hb hc, fetchToken_eq, hd]
    rfl
  · refine step_nextInstr (.inr hs) ?_
    rw [nextInstr_decompress hb hc, fetchToken_eq, hd]
    rfl
  · exact step_nextInstr (.inr hs) (nextInstr_compress hb hc)
  · rw [decode, commandOfBit_bit] at hd
    cases hd
    exact step_nextInstr (.inl hb) (nextInstr_started hb hs)

/-! ## Host writes to registers 0 to 6 -/

/-- Registers 0 to 6 after the value `v` is written to one of them, in its width (R30, log 8). -/
def Operands.write (C : Config) (r : Reg) (v : Nat) (o : Operands) : Operands :=
  match r with
  | .cmd => { o with cmd := commandOfBit (BitVec.ofNat 1 v) }
  | .inPresent => { o with inPresent := lowBit v }
  | .inBase => { o with inBase := addressValue C v }
  | .inLen => { o with inLen := BitVec.ofNat 32 v }
  | .outPresent => { o with outPresent := lowBit v }
  | .outBase => { o with outBase := addressValue C v }
  | .outCap => { o with outCap := BitVec.ofNat 32 v }
  | .start | .state | .status | .rlen | .rlenWr => o

/-- A host write to one of registers 0 to 6 writes that register (R39). -/
theorem hostWrite_operand {r : Reg} (v : Nat) (hb : s.busyToHost = false) (hr : r.access = .readWrite) :
    hostWrite C r v s = .next { s with regs := s.regs.write C r v } := by
  cases r with
  | start | state | status | rlen | rlenWr => cases hr
  | _ => simp [hostWrite, Reg.access, hb, Operands.write]

theorem bitValue_lowBit (v : Nat) : bitValue (lowBit v) = v % 2 := by
  rcases Nat.mod_two_eq_zero_or_one v with h | h <;> simp [bitValue, lowBit, h]

/-- The register written reads back, in its width (R30). -/
theorem hostRead_write_same {r : Reg} (v : Nat) (hr : r.access = .readWrite) :
    hostRead r { s with regs := s.regs.write C r v } =
      some (match r.width C with | some w => v % 2 ^ w | none => v) := by
  cases r with
  | start | state | status | rlen | rlenWr => cases hr
  | cmd => simp [hostRead, Operands.write, Reg.width, bit_commandOfBit]
  | inPresent | outPresent => simp [hostRead, Operands.write, Reg.width, bitValue_lowBit]
  | inBase | outBase => cases hw : C.addrW <;> simp [hostRead, Operands.write, Reg.width, addressValue, hw]
  | inLen | outCap => simp [hostRead, Operands.write, Reg.width]

/-- Every other register reads as before: the write reaches the field of its own register alone. -/
theorem hostRead_write_other {r r' : Reg} (v : Nat) (hne : r' ≠ r) :
    hostRead r' { s with regs := s.regs.write C r v } = hostRead r' s := by
  cases r' with
  | start | state | status | rlen | rlenWr => rfl
  | _ => cases r <;> simp [hostRead, Operands.write] at hne ⊢

/-- Settles O53: the three laws of a write to an operand register. -/
theorem hostWritesAreReadBack : Obligations.HostWritesAreReadBack := fun _ _ v _ hb hr =>
  ⟨_, hostWrite_operand v hb hr, hostRead_write_same v hr, fun _ => hostRead_write_other v, rfl⟩

/-! ## `START`, and the lock -/

/-- Writing 1 to `START` pends the command, where its regions keep R296 and R297. -/
theorem hostWrite_start_one (hb : s.busyToHost = false) (hw : s.regs.NoWrap C) (hd : s.regs.Disjoint) :
    hostWrite C .start 1 s = .next { s with start := true } := by
  simp [hostWrite, Reg.access, hb, lowBit, (brokenObligation_eq_none_iff C s.regs).2 ⟨hw, hd⟩]

/-- Writing 1 to `START` is refused where the regions break R296 or R297 (R301, log 7). -/
theorem hostWrite_start_broken (hb : s.busyToHost = false) (h : ¬(s.regs.NoWrap C ∧ s.regs.Disjoint)) :
    ∃ f, hostWrite C .start 1 s = .refused f := by
  obtain ⟨f, hf⟩ := Option.ne_none_iff_exists'.1 (mt (brokenObligation_eq_none_iff C s.regs).1 h)
  exact ⟨f, by simp [hostWrite, Reg.access, hb, lowBit, hf]⟩

theorem hostWrite_start_zero (hb : s.busyToHost = false) : hostWrite C .start 0 s = .next s := by
  simp [hostWrite, Reg.access, hb, lowBit]

/-- While a command runs or is started, registers 0 to 7 are locked (R39, R299). -/
theorem hostWrite_locked {r : Reg} (v : Nat) (hb : s.busyToHost = true) (hr : r.index ≤ 7) :
    hostWrite C r v s = .refused .registerWriteWhileBusy := by
  cases r with
  | state | status | rlen | rlenWr => simp [Reg.index] at hr
  | _ => simp [hostWrite, Reg.access, hb]

/-- Registers 8 to 11 are read-only (R30, log 8). -/
theorem hostWrite_readOnly {r : Reg} (v : Nat) (hr : 8 ≤ r.index) : hostWrite C r v s = .refused .readOnlyRegister := by
  cases r with
  | state | status | rlen | rlenWr => rfl
  | _ => simp [Reg.index] at hr

theorem hostRead_state_started (s : State) : hostRead .state { s with start := true } = some 1 := by
  simp [hostRead, State.stateCode, State.busyToHost]

/-- Settles O54: a law for each kind of write. -/
theorem startAndTheRegisterLock : Obligations.StartAndTheRegisterLock := fun _ s =>
  ⟨rfl, fun hb hw hd => ⟨hostWrite_start_one hb hw hd, hostRead_state_started s⟩, hostWrite_start_broken,
    hostWrite_start_zero, fun hb _ v => hostWrite_locked v hb, fun _ v => hostWrite_readOnly v⟩

end Sys2Proof.Machine
end

section
/-! SUPPORT. What a step reads (R65, R68, R82). No access of it faults; and two memories that agree on the bytes it may read
lead to the same step, and agree after it wherever they did before. The latter is shown of one operation at a time, each run
on the state `s` and on `s` with another memory. -/

namespace Sys2Proof.Machine

open Sys2Proof

variable {C : Config} {c : Cmd} {A : Nat → Prop} {s : State} {m n : Memory}

/-! ## No access is out of bounds -/

theorem stepWith_rest (hb : s.phase ≠ .busy) (hs : s.start = false) : stepWith C s = .next s := by
  cases hp : s.phase with
  | busy => exact absurd hp hb
  | idle | done => simp [stepWith, nextInstr, hp, hs]

theorem issue_ne_fault (f : Fault) : issue C c s ≠ .fault f := by
  rcases issue_cases C c s with ⟨_, _, hx⟩ | ⟨_, ⟨_, hx⟩ | ⟨_, _, hx⟩ | ⟨_, _, hx⟩⟩ <;> simp [hx]

/-- A running command's step goes on or ends it; the issue and the rest access nothing. -/
theorem stepWith_ne_fault (hr : s.RunInv) (f : Fault) : stepWith C s ≠ .fault f := by
  intro hx
  by_cases hb : s.phase = .busy
  · have honward := stepWith_onward C hr hb
    rw [hx] at honward
    cases honward
  · cases hs : s.start with
    | false => simp [stepWith_rest hb hs] at hx
    | true =>
      rw [stepWith_issue hb hs] at hx
      exact issue_ne_fault f hx

/-- Settles O32: no step faults under the invariant, and a fetched token's bytes are input. -/
theorem noAccessIsOutOfBounds : Obligations.NoAccessIsOutOfBounds :=
  ⟨fun _ _ f hr => stepWith_ne_fault hr f, fun _ _ hf =>
    have ⟨_, _, _, hin⟩ := fetchToken_spec hf
    hin⟩

/-! ## Memories that agree -/

/-- The memories agree on the addresses in `A`. -/
def AgreeOn (A : Nat → Prop) (m n : Memory) : Prop := ∀ a, A a → n.read a = m.read a

/-- The same write keeps two memories in agreement. -/
theorem AgreeOn.write (h : AgreeOn A m n) (a : Nat) (v : Byte) : AgreeOn A (m.write a v) (n.write a v) := by
  intro b hb
  rw [Memory.read_write, Memory.read_write, h b hb]

/-- A byte that has become unspecified reads as the free value of its span (R81, U1). -/
theorem Memory.read_forget_inside (m : Memory) {base len : Nat} (stamp : Nat) {a : Nat} (hlo : base ≤ a)
    (hhi : a < base + len) : (m.forget base len stamp).read a = Config.freeByte stamp a := by
  have hlen : len ≠ 0 := by omega
  simp [Memory.forget, hlen, Memory.read, lookup_dropKeys, Memory.unlisted, Span.holds, hlo, hhi]

/-- Bytes that become unspecified at the same moment keep two memories in agreement. -/
theorem AgreeOn.forget (h : AgreeOn A m n) (base len stamp : Nat) :
    AgreeOn A (m.forget base len stamp) (n.forget base len stamp) := by
  intro a ha
  by_cases hin : base ≤ a ∧ a < base + len
  · rw [Memory.read_forget_inside m stamp hin.1 hin.2, Memory.read_forget_inside n stamp hin.1 hin.2]
  · rw [Memory.read_forget (by omega), Memory.read_forget (by omega), h a ha]

/-! ## States that differ in memory alone -/

/-- The state with another memory. -/
abbrev State.withMem (s : State) (m : Memory) : State := { s with mem := m }

/-- The memory `m` agrees with that of `s` on `A`, which holds the input of `s`. -/
structure Mirrors (A : Nat → Prop) (s : State) (m : Memory) : Prop where
  agree : AgreeOn A s.mem m
  input : ∀ k < s.op.inLen.toNat, A (s.op.inBase + k)

/-- Parts of a command on two memories that come to the same, in every field but memory. -/
inductive MirrorsFlow (A : Nat → Prop) : Flow → Flow → Prop
  | go {s : State} {m : Memory} (h : Mirrors A s m) : MirrorsFlow A (.go s) (.go (s.withMem m))
  | ended {s : State} {m : Memory} (h : AgreeOn A s.mem m) : MirrorsFlow A (.ended s) (.ended (s.withMem m))
  | stop (f : Fault) : MirrorsFlow A (.stop f) (.stop f)

/-- Steps on two memories that come to the same, in every field but memory. -/
inductive MirrorsOutcome (A : Nat → Prop) :
    Host.Outcome State Fault Refusal → Host.Outcome State Fault Refusal → Prop
  | next {s : State} {m : Memory} (h : AgreeOn A s.mem m) : MirrorsOutcome A (.next s) (.next (s.withMem m))
  | fault (f : Fault) : MirrorsOutcome A (.fault f) (.fault f)
  | refused (r : Refusal) : MirrorsOutcome A (.refused r) (.refused r)

theorem MirrorsFlow.andThen {x y : Flow} {k k' : State → Flow} (h : MirrorsFlow A x y)
    (hk : ∀ {s : State} {m : Memory}, Mirrors A s m → MirrorsFlow A (k s) (k' (s.withMem m))) :
    MirrorsFlow A (x.andThen k) (y.andThen k') := by
  cases h with
  | go h => exact hk h
  | ended h => exact .ended h
  | stop f => exact .stop f

theorem MirrorsFlow.outcome {x y : Flow} (h : MirrorsFlow A x y) : MirrorsOutcome A x.outcome y.outcome := by
  cases h with
  | go h => exact .next h.agree
  | ended h => exact .next h
  | stop f => exact .fault f

/-- A failure leaves the same region unspecified, at the same value of the free-value counter. -/
theorem AgreeOn.raise (h : AgreeOn A s.mem m) (f : Failure) : AgreeOn A (raise f s).mem (raise f (s.withMem m)).mem := by
  have hlost : losesOutput f (s.withMem m) = losesOutput f s := rfl
  rw [raise_mem, raise_mem, hlost]
  split
  · exact h.forget _ _ _
  · exact h

theorem Mirrors.latchCb (h : Mirrors A s m) (cb : Byte) : Mirrors A { s with cb := cb } m := ⟨h.agree, h.input⟩

/-! ## Reads -/

theorem Mirrors.inByte (h : Mirrors A s m) {k : Nat} (hk : k < s.op.inLen.toNat) :
    m.read (s.op.inBase + k) = s.mem.read (s.op.inBase + k) := h.agree _ (h.input k hk)

theorem Mirrors.readIn (h : Mirrors A s m) (i : Nat) : (s.withMem m).readIn i = s.readIn i := by
  unfold State.readIn
  split
  · exact congrArg Except.ok (h.inByte ‹_›)
  · rfl

theorem Mirrors.triple (h : Mirrors A s m) (i : Nat) : triple (s.withMem m) i = triple s i := by
  simp only [Machine.triple, h.readIn]

theorem Mirrors.hashAt (h : Mirrors A s m) (i : Nat) : hashAt C (s.withMem m) i = hashAt C s i := by
  simp only [Machine.hashAt, h.triple]

theorem Mirrors.acceptCandidate (h : Mirrors A s m) : acceptCandidate (s.withMem m) = acceptCandidate s := by
  simp only [Machine.acceptCandidate, h.triple]

theorem Mirrors.extend (h : Mirrors A s m) (p fuel len : Nat) :
    extend (s.withMem m) p fuel len = extend s p fuel len := by
  induction fuel generalizing len with
  | zero => rfl
  | succ fuel ih => simp only [Machine.extend, h.readIn, ih]

theorem Mirrors.matchLength (h : Mirrors A s m) (p : Nat) : matchLength (s.withMem m) p = matchLength s p := by
  simp only [Machine.matchLength, h.extend]

theorem Mirrors.inputBytes (h : Mirrors A s m) {i n : Nat} (hi : i + n ≤ s.op.inLen.toNat) :
    (s.withMem m).inputBytes i n = s.inputBytes i n :=
  List.map_congr_left fun k hk => h.inByte (by have := List.mem_range.1 hk; omega)

/-- The fetch reads input bytes only. -/
theorem Mirrors.fetchToken (h : Mirrors A s m) : fetchToken (s.withMem m) = fetchToken s := by
  unfold Machine.fetchToken
  rw [h.readIn]
  cases s.readIn s.ip with
  | error f => rfl
  | ok cb =>
    dsimp only
    split
    · rfl
    · have hpos := tokenSize_pos cb
      rw [h.inputBytes (by omega)]

/-! ## Writes -/

theorem Mirrors.emitByte (h : Mirrors A s m) (v : Byte) :
    MirrorsFlow A (emitByte v s) (emitByte v (s.withMem m)) := by
  unfold Machine.emitByte
  split
  · exact .go ⟨h.agree.write _ v, h.input⟩
  · exact .stop _

theorem Mirrors.emit (h : Mirrors A s m) (bytes : List Byte) :
    MirrorsFlow A (emit bytes s) (emit bytes (s.withMem m)) := by
  induction bytes generalizing s m with
  | nil => exact .go h
  | cons b rest ih => exact (h.emitByte b).andThen ih

theorem Mirrors.copyIn (h : Mirrors A s m) (n i : Nat) :
    MirrorsFlow A (copyIn n i s) (copyIn n i (s.withMem m)) := by
  induction n generalizing i s m with
  | zero => exact .go h
  | succ n ih =>
    rw [Machine.copyIn, Machine.copyIn, h.readIn]
    cases s.readIn i with
    | error f => exact .stop f
    | ok b => exact (h.emitByte b).andThen (ih · (i + 1))

/-- A copy reads the output bytes below `WP`: those there were when it began, and its own. -/
theorem Mirrors.copyBack (h : Mirrors A s m) (hout : ∀ k < s.wp, m.read (s.op.outBase + k) = s.outByte k) (n : Nat) :
    MirrorsFlow A (copyBack n s) (copyBack n (s.withMem m)) := by
  induction n generalizing s m with
  | zero => exact .go h
  | succ n ih =>
    have hread : (s.withMem m).readOut (s.wp - s.moff) = s.readOut (s.wp - s.moff) := by
      unfold State.readOut
      split
      · next hin => exact congrArg Except.ok (hout _ hin.1)
      · rfl
    rw [Machine.copyBack, Machine.copyBack, hread]
    cases s.readOut (s.wp - s.moff) with
    | error f => exact .stop f
    | ok b =>
      by_cases hfit : s.wp < s.op.outCap.toNat
      · simp only [emitByte_go hfit, emitByte_go (s := s.withMem m) hfit, go_andThen]
        refine ih ⟨h.agree.write _ b, h.input⟩ fun k hk => ?_
        simp only [State.outByte, Memory.read_write, Nat.add_left_cancel_iff]
        split
        · rfl
        · exact hout k (by simp only at hk; omega)
      · simp only [Machine.emitByte, if_neg hfit]
        exact .stop _

/-! ## COMPRESS -/

theorem Mirrors.flushLit (h : Mirrors A s m) : MirrorsFlow A (flushLit s) (flushLit (s.withMem m)) := by
  unfold Machine.flushLit
  split
  · exact .go ⟨h.agree, h.input⟩
  · split
    · exact .ended (h.agree.raise .esize)
    · exact ((h.latchCb (encLit s.ll)).emitByte _).andThen fun h => (h.copyIn _ _).andThen fun h =>
        .go ⟨h.agree, h.input⟩

theorem Mirrors.emitRef (h : Mirrors A s m) : MirrorsFlow A (emitRef s) (emitRef (s.withMem m)) := by
  unfold Machine.emitRef
  split
  · exact .ended (h.agree.raise .esize)
  · exact (h.latchCb (refControl s.mlen s.moff)).emit _

theorem Mirrors.enterAll (h : Mirrors A s m) (n p : Nat) :
    MirrorsFlow A (enterAll C n p s) (enterAll C n p (s.withMem m)) := by
  induction n generalizing p s m with
  | zero => exact .go h
  | succ n ih =>
    rw [Machine.enterAll, Machine.enterAll, h.hashAt]
    split
    · cases Machine.hashAt C s p with
      | error f => exact .stop f
      | ok j =>
        have hset : Mirrors A { s with ht := setSlot s.ht j p } m := ⟨h.agree, h.input⟩
        exact ih hset (p + 1)
    · exact ih h (p + 1)

theorem Mirrors.enterSkipped (h : Mirrors A s m) :
    MirrorsFlow A (enterSkipped C s) (enterSkipped C (s.withMem m)) := by
  unfold Machine.enterSkipped
  split
  · exact h.enterAll _ _
  · exact .go h

theorem Mirrors.literalTurn (h : Mirrors A s m) : MirrorsFlow A (literalTurn s) (literalTurn (s.withMem m)) := by
  have hpassed : Mirrors A { s with ll := s.ll + 1, ip := s.ip + 1 } m := ⟨h.agree, h.input⟩
  unfold Machine.literalTurn
  split
  · exact hpassed.flushLit
  · exact .go hpassed

theorem Mirrors.matchTurn (h : Mirrors A s m) (p : Nat) :
    MirrorsFlow A (matchTurn C p s) (matchTurn C p (s.withMem m)) := by
  rw [Machine.matchTurn, Machine.matchTurn, h.matchLength]
  cases Machine.matchLength s p with
  | error f => exact .stop f
  | ok len =>
    have hlatched : Mirrors A { s with mlen := len, moff := s.ip - p } m := ⟨h.agree, h.input⟩
    exact hlatched.flushLit.andThen fun h => h.emitRef.andThen fun h => h.enterSkipped.andThen fun h =>
      .go ⟨h.agree, h.input⟩

theorem Mirrors.encoderTurn (h : Mirrors A s m) :
    MirrorsFlow A (encoderTurn C s) (encoderTurn C (s.withMem m)) := by
  unfold Machine.encoderTurn
  split
  · split
    · rw [probe, probe, h.hashAt]
      cases Machine.hashAt C s s.ip with
      | error f => exact .stop f
      | ok j =>
        have hprobed : Mirrors A { s with cand := slot s.ht j, ht := setSlot s.ht j s.ip } m := ⟨h.agree, h.input⟩
        dsimp only
        rw [hprobed.acceptCandidate]
        cases Machine.acceptCandidate { s with cand := slot s.ht j, ht := setSlot s.ht j s.ip } with
        | error f => exact .stop f
        | ok found =>
          cases found with
          | none => exact hprobed.literalTurn
          | some p => exact hprobed.matchTurn p
    · exact h.literalTurn
  · exact h.flushLit.andThen fun h => .ended h.agree

/-! ## DECOMPRESS -/

theorem Mirrors.copyReference (h : Mirrors A s m)
    (hout : ∀ k < s.wp, m.read (s.op.outBase + k) = s.outByte k) (n off : Nat) :
    MirrorsFlow A (copyReference n off s) (copyReference n off (s.withMem m)) := by
  have hlatched : Mirrors A { s with mlen := n, moff := off } m := ⟨h.agree, h.input⟩
  unfold Machine.copyReference
  dsimp only
  split
  · exact .ended (hlatched.agree.raise .ecorrupt)
  · exact hlatched.copyBack hout n

/-- A token is counted alike in COUNT mode, and where it does not fit; where it fits, its write decides. -/
theorem Mirrors.runToken (h : Mirrors A s m) (cb : Byte) (n size : Nat) {write : State → Flow}
    (hwrite : s.mode = .write → Mirrors A { s with cb := cb } m →
      MirrorsFlow A (write { s with cb := cb }) (write { s with cb := cb, mem := m })) :
    MirrorsFlow A (runToken cb n size write s) (runToken cb n size write (s.withMem m)) := by
  cases hm : s.mode with
  | count =>
    rw [runToken_count hm, runToken_count (s := s.withMem m) hm]
    exact .go ⟨h.agree, h.input⟩
  | write =>
    by_cases hshort : s.op.outCap.toNat - s.wp < n
    · rw [runToken_short hm hshort, runToken_short (s := s.withMem m) hm hshort]
      exact .go ⟨h.agree, h.input⟩
    · rw [runToken_write hm (Nat.not_lt.1 hshort), runToken_write (s := s.withMem m) hm (Nat.not_lt.1 hshort)]
      exact (hwrite hm (h.latchCb cb)).andThen fun h => .go ⟨h.agree, h.input⟩

theorem Mirrors.execToken (h : Mirrors A s m) (hb : s.phase = .busy) (hc : s.op.cmd = .decompress)
    (hout : s.mode = .write → ∀ k < s.wp, m.read (s.op.outBase + k) = s.outByte k) {i : Instr}
    (hi : i.isToken = true) : MirrorsOutcome A (execToken i s) (execToken i (s.withMem m)) := by
  have hs := whenDecoding_of hb hc
  have hu := whenDecoding_of (s := s.withMem m) hb hc
  rcases token_kind hi with ⟨data, rfl, _⟩ | ⟨n, off, hback, _⟩
  · rw [execToken_lit, execToken_lit, hs, hu]
    exact (h.runToken (encLit data.length) _ _ fun _ h => h.emit data).outcome
  · rw [execToken_ref hback, execToken_ref hback, runReference, runReference, hs, hu]
    exact (h.runToken (refControl n off) _ _ fun hm h => h.copyReference (hout hm) n off).outcome

theorem Mirrors.decoderEnd (h : Mirrors A s m) :
    MirrorsOutcome A (.next (decoderEnd s)) (.next (decoderEnd (s.withMem m))) := by
  cases hm : s.mode with
  | write =>
    rw [decoderEnd_write hm, decoderEnd_write (s := s.withMem m) hm]
    exact .next h.agree
  | count =>
    rw [decoderEnd_count hm, decoderEnd_count (s := s.withMem m) hm]
    exact .next (h.agree.raise .esize)

/-- The control byte that a truncated token latches is input (R192, R193). -/
theorem Mirrors.truncatedToken (h : Mirrors A s m) (hi : s.ip < s.op.inLen.toNat) :
    MirrorsOutcome A (.next (truncatedToken s)) (.next (truncatedToken (s.withMem m))) := by
  simp only [Machine.truncatedToken, h.inByte hi]
  exact .next ((h.latchCb (s.mem.read (s.op.inBase + s.ip))).agree.raise .ecorrupt)

/-! ## Steps -/

/-- The issue of a command reads no memory. -/
theorem AgreeOn.issue (h : AgreeOn A s.mem m) : MirrorsOutcome A (issue C c s) (issue C c (s.withMem m)) := by
  unfold Machine.issue
  cases brokenObligation C s.regs with
  | some r => exact .refused r
  | none =>
    dsimp only
    split
    · exact .next (AgreeOn.raise (s := sample c s) h .eargs)
    · split
      · exact .next h
      · exact .next h

/-- A step depends on the input of a running command, and on the output bytes below `WP` of a DECOMPRESS in WRITE mode. -/
theorem AgreeOn.stepWith (h : AgreeOn A s.mem m)
    (hin : s.phase = .busy → ∀ k < s.op.inLen.toNat, A (s.op.inBase + k))
    (hout : s.phase = .busy → s.op.cmd = .decompress → s.mode = .write →
      ∀ k < s.wp, m.read (s.op.outBase + k) = s.outByte k) :
    MirrorsOutcome A (stepWith C s) (stepWith C (s.withMem m)) := by
  rcases stepWith_cases C s with ⟨hb, hs, hx⟩ | ⟨hb, hs, hx⟩ | ⟨hb, hs, hx⟩ | ⟨hb, hs, hc, hx⟩ | ⟨hb, hs, hc, hi, hx⟩ |
    ⟨hb, hs, hc, _, i, hf, hi, hx⟩ | ⟨hb, hs, hc, hi, hf, hx⟩ <;> rw [hx]
  · rw [stepWith_rest (s := s.withMem m) hb hs]
    exact .next h
  · rw [stepWith_issue (s := s.withMem m) hb hs]
    exact h.issue
  · have hrefused : Machine.stepWith C (s.withMem m) = .refused .startWhileBusy := if_pos ⟨hb, hs⟩
    rw [hrefused]
    exact .refused _
  all_goals have hm : Mirrors A s m := ⟨h, hin hb⟩
  · rw [stepWith_compress (s := s.withMem m) hb hs hc]
    exact hm.encoderTurn.outcome
  · rw [stepWith_streamEnd (s := s.withMem m) hb hs hc hi]
    exact hm.decoderEnd
  · rw [stepWith_token (s := s.withMem m) hb hs hc (hm.fetchToken.trans hf)]
    exact hm.execToken hb hc (hout hb hc) hi
  · rw [stepWith_truncated (s := s.withMem m) hb hs hc hi (hm.fetchToken.trans hf)]
    exact hm.truncatedToken hi

/-- Settles O57: `AgreeOn.stepWith` for the addresses at which the two memories agree. -/
theorem stepsReadOnlyTheirRegions : Obligations.StepsReadOnlyTheirRegions := by
  intro C s t m _ hx hin hout
  have hmirror := AgreeOn.stepWith (C := C) (A := fun a => m.read a = s.mem.read a) (fun _ ha => ha) hin hout
  rw [hx] at hmirror
  generalize stepWith C (s.withMem m) = y at hmirror
  cases hmirror with
  | next hagree => exact ⟨_, rfl, hagree⟩

end Sys2Proof.Machine
end

section
/-! SUPPORT. What a command does to memory (R63, R65, R79 to R81): an invariant along its run says how memory differs from
that the command was issued on, and another that a size query leaves it alone. -/

namespace Sys2Proof.Machine

open Sys2Proof

variable {C : Config} {c : Cmd} {r : Operands} {m : Memory} {s t : State} {k : Nat}

/-! ## Runs -/

theorem runWith_succ_next (h : runWith C (k + 1) s = .next t) :
    ∃ u, stepWith C s = .next u ∧ runWith C k u = .next t := by
  cases hx : stepWith C s with
  | next u => exact ⟨u, rfl, by rwa [runWith_succ C k hx] at h⟩
  | fault f => simp [runWith_fault k hx] at h
  | refused f => simp [runWith_refused k hx] at h

/-- What every step keeps holds where a run leads. -/
theorem runWith_keeps {P : State → Prop} (hstep : ∀ {s t}, P s → stepWith C s = .next t → P t) (hs : P s)
    (h : runWith C k s = .next t) : P t := by
  induction k generalizing s with
  | zero => cases h; exact hs
  | succ k ih =>
    obtain ⟨u, hu, ht⟩ := runWith_succ_next h
    exact ih (hstep hs hu) ht

/-- How a command that keeps the host's obligations goes: it ends at its issue, or runs from its initial state (R124 to
R128). -/
theorem Issued.run (h : Issued C s) (ht : Ends C s t) :
    (t = raise .eargs (sample s.regs.cmd s) ∨ t = finish 0 (sample s.regs.cmd s)) ∨
    ((initialise (sample s.regs.cmd s)).RunInv ∧
      runWith C (s.regs.inLen.toNat + 1) (initialise (sample s.regs.cmd s)) = .next t) := by
  obtain ⟨u, hu, hrun⟩ := runWith_succ_next ht.1
  rw [stepWith_issue h.notBusy h.started] at hu
  rcases issue_next hu with rfl | rfl | ⟨rfl, hargs, hlen, hd⟩
  · rw [runWith_rest C (by simp) rfl] at hrun
    cases hrun
    exact .inl (.inl rfl)
  · rw [runWith_rest C (by simp) rfl] at hrun
    cases hrun
    exact .inl (.inr rfl)
  · exact .inr ⟨runInv_initialise hargs hlen hd, hrun⟩

/-! ## Bytes left unchanged -/

theorem unchangedOutside_trans {base len : Nat} {m m' m'' : Memory} (h : unchangedOutside base len m m')
    (h' : unchangedOutside base len m' m'') : unchangedOutside base len m m'' :=
  fun a ha => (h' a ha).trans (h a ha)

theorem unchangedOutside_mono {base len len' : Nat} {m m' : Memory} (h : unchangedOutside base len m m')
    (hle : len ≤ len') : unchangedOutside base len' m m' := fun a ha => h a (by omega)

/-- Bytes laid out inside a region change nothing outside it. -/
theorem unchangedOutside_writeAll_within {base len off : Nat} {bytes : List Byte} (m : Memory)
    (hin : off + bytes.length ≤ len) : unchangedOutside base len m (m.writeAll (base + off) bytes) :=
  fun a ha => unchangedOutside_writeAll m (base + off) bytes a (by omega)

/-! ## What is written -/

/-- A command on the operands `r`, issued on the memory `m`, has changed it within the output region and below `WP` only. -/
structure Wrote (r : Operands) (m : Memory) (s : State) : Prop where
  op : s.op = r
  outside : unchangedOutside r.outBase r.outCap.toNat m s.mem
  above : unchangedOutside r.outBase s.wp m s.mem

/-- What a command on the operands `r`, issued on the memory `m`, has left of it. -/
inductive Spares (r : Operands) (m : Memory) (s : State) : Prop
  /-- while it runs -/
  | runs (busy : s.phase = .busy) (wrote : Wrote r m s)
  /-- at its end: after OK the bytes from the reported length on, after EARGS all of them (R80, R81) -/
  | ends (rests : s.Rests) (outside : unchangedOutside r.outBase r.outCap.toNat m s.mem)
      (ok : s.status = okCode → unchangedOutside r.outBase s.rlen.toNat m s.mem)
      (eargs : s.status = Failure.eargs.code → unchanged m s.mem)

theorem Wrote.of_mem_eq (h : Wrote r m s) (hop : t.op = s.op) (hmem : t.mem = s.mem) (hwp : s.wp ≤ t.wp) :
    Wrote r m t where
  op := hop.trans h.op
  outside := hmem ▸ h.outside
  above := hmem ▸ unchangedOutside_mono h.above hwp

theorem Wrote.of_append (h : Wrote r m s) {bytes : List Byte} (hop : t.op = s.op)
    (hmem : t.mem = s.mem.writeAll (s.op.outBase + s.wp) bytes) (hwp : t.wp = s.wp + bytes.length)
    (fits : s.wp + bytes.length ≤ s.op.outCap.toNat) : Wrote r m t := by
  rw [h.op] at hmem fits
  exact {
    op := hop.trans h.op
    outside := by
      rw [hmem]
      exact unchangedOutside_trans h.outside (unchangedOutside_writeAll_within _ fits)
    above := by
      rw [hmem, hwp]
      exact unchangedOutside_trans (unchangedOutside_mono h.above (Nat.le_add_right _ _))
        (unchangedOutside_writeAll_within _ (Nat.le_refl _)) }

/-- OK reports `WP`, below which all that was written lies (R80, R129). -/
theorem Wrote.finish (h : Wrote r m s) (hs : s.start = false) (hwidth : s.wp ≤ lenMax) :
    Spares r m (finish s.wp s) := by
  have hrlen : (BitVec.ofNat 32 s.wp).toNat = s.wp := by
    simp only [lenMax] at hwidth
    exact Nat.mod_eq_of_lt (by omega)
  refine .ends ⟨rfl, hs⟩ h.outside (fun _ => ?_) fun hstatus =>
    absurd hstatus.symm (Failure.code_ne_okCode .eargs)
  rw [finish_rlen, hrlen]
  exact h.above

/-- ESIZE and ECORRUPT leave the output region unspecified, and nothing else (R81). -/
theorem spares_raise {f : Failure} (hf : f ≠ .eargs) (hs : s.start = false) (hop : s.op = r)
    (outside : unchangedOutside r.outBase r.outCap.toNat m s.mem) : Spares r m (raise f s) := by
  subst hop
  have hcode : f.code = Failure.eargs.code → f = .eargs := by cases f <;> decide
  exact .ends ⟨rfl, hs⟩ (unchangedOutside_raise (s := s.withMem m) f rfl outside)
    (fun hok => absurd hok f.code_ne_okCode) fun hstatus => absurd (hcode hstatus) hf

/-- A command that ends on the memory it was issued on spares it. -/
theorem spares_of_mem_eq (hs : s.Rests) (hmem : s.mem = m) : Spares r m s := by
  subst hmem
  exact .ends hs (fun _ _ => rfl) (fun _ _ _ => rfl) fun _ _ => rfl

/-! ## Steps -/

theorem EncoderTurn.spares {x : Flow} (h : EncoderTurn C s x) (hx : x.outcome = .next t) (hw : Wrote r m s)
    (hr : s.RunInv) (hb : s.phase = .busy) : Spares r m t := by
  have hs := hr.startTaken hb
  cases h with
  | literal => cases hx; exact .runs hb (hw.of_mem_eq rfl rfl (Nat.le_refl _))
  | filled cand ht inside none full entered all look noLook fits =>
    have hlen := fullToken_length full
    cases hx
    exact .runs hb (hw.of_append rfl rfl (by rw [hlen]) (by rwa [hlen]))
  | matched p len ht found entered all start fits =>
    cases hx
    exact .runs hb (hw.of_append rfl rfl rfl fits)
  | ended atEnd fits =>
    cases hx
    have hcap := s.op.outCap.isLt
    refine Wrote.finish (hw.of_append rfl rfl rfl fits) hs ?_
    simp only [lenMax]
    omega
  | short u same rising wf mem why =>
    obtain ⟨hop, _, hstart, _⟩ := same
    cases hx
    rw [hw.op] at mem
    exact spares_raise (by decide) (hstart.trans hs) (hop.trans hw.op) (unchangedOutside_trans hw.outside mem)

theorem le_sat_add {x : Nat} (n : Nat) (hx : x ≤ lenMax) : x ≤ sat (x + n) := Nat.le_min.2 ⟨Nat.le_add_right _ _, hx⟩

theorem TokenTurn.spares {i : Instr} {x : Host.Outcome State Fault Refusal} (h : TokenTurn i s x) (hx : x = .next t)
    (hw : Wrote r m s) (hr : s.RunInv) (hb : s.phase = .busy) : Spares r m t := by
  have hgrows := le_sat_add i.outSize (hr.wpWidth hb)
  cases h with
  | counted => cases hx; exact .runs hb (hw.of_mem_eq rfl rfl hgrows)
  | short => cases hx; exact .runs hb (hw.of_mem_eq rfl rfl hgrows)
  | literal data is mode fits => cases hx; exact .runs hb (hw.of_append rfl rfl rfl fits)
  | copied n off is mode fits =>
    cases hx
    exact .runs hb (hw.of_append rfl rfl (by rw [referenceBytes_length]) (by rwa [referenceBytes_length]))
  | bad => cases hx; exact spares_raise (by decide) (hr.startTaken hb) hw.op hw.outside

theorem Wrote.decoderEnd (hw : Wrote r m s) (hr : s.RunInv) (hb : s.phase = .busy) : Spares r m (decoderEnd s) := by
  have hs := hr.startTaken hb
  cases hm : s.mode with
  | write => rw [decoderEnd_write hm]; exact hw.finish hs (hr.wpWidth hb)
  | count => rw [decoderEnd_count hm]; exact spares_raise (by decide) hs hw.op hw.outside

theorem stepWith_spares (hr : s.RunInv) (h : Spares r m s) (hx : stepWith C s = .next t) : Spares r m t := by
  cases h with
  | ends rests outside ok eargs =>
    obtain ⟨hdone, hs⟩ := rests
    rw [stepWith_rest (by simp [hdone]) hs] at hx
    cases hx
    exact .ends ⟨hdone, hs⟩ outside ok eargs
  | runs hb hw =>
    have hs := hr.startTaken hb
    cases hc : s.op.cmd with
    | compress =>
      rw [stepWith_compress hb hs hc] at hx
      exact (encoderTurn_spec C hr hb hc).spares hx hw hr hb
    | decompress =>
      cases hf : fetchToken s with
      | some i =>
        obtain ⟨htoken, hwf, _⟩ := fetchToken_spec hf
        rw [stepWith_token hb hs hc hf] at hx
        exact (execToken_spec htoken hwf hb hc).spares hx hw hr hb
      | none =>
        by_cases hi : s.op.inLen.toNat ≤ s.ip
        · rw [stepWith_streamEnd hb hs hc hi] at hx
          cases hx
          exact hw.decoderEnd hr hb
        · rw [stepWith_truncated hb hs hc (by omega) hf] at hx
          cases hx
          exact spares_raise (by decide) hs hw.op hw.outside

/-! ## Whole commands -/

theorem Issued.spares (h : Issued C s) (ht : Ends C s t) : Spares s.regs s.mem t := by
  rcases h.run ht with (rfl | rfl) | ⟨hinv, hrun⟩
  · exact spares_of_mem_eq ⟨rfl, rfl⟩ rfl
  · exact spares_of_mem_eq ⟨rfl, rfl⟩ rfl
  · have hinit : Spares s.regs s.mem (initialise (sample s.regs.cmd s)) :=
      .runs rfl ⟨rfl, fun _ _ => rfl, fun _ _ => rfl⟩
    exact (runWith_keeps (P := fun u => u.RunInv ∧ Spares s.regs s.mem u)
      (fun hu hx => ⟨stepWith_runInv hu.1 hx, stepWith_spares hu.1 hu.2 hx⟩) ⟨hinv, hinit⟩ hrun).2

/-- Settles O40: what a command spares when it has ended. -/
theorem onlyTheOutputRegionChanges : Obligations.OnlyTheOutputRegionChanges := by
  intro C s t h ht
  cases h.spares ht with
  | runs busy => exact absurd (busy.symm.trans ht.2) (by decide)
  | ends _ outside ok eargs => exact ⟨outside, ok, eargs⟩

/-- Changes within an output region that shares no address with the input leave the input as it is (R64, R79). -/
theorem inputOf_eq_of_unchangedOutside {m' : Memory}
    (hd : ∀ j < r.inLen.toNat, ∀ w < r.outCap.toNat, r.inBase + j ≠ r.outBase + w)
    (h : unchangedOutside r.outBase r.outCap.toNat m m') : inputOf r m' = inputOf r m := by
  refine List.map_congr_left fun j hj => h _ ?_
  by_contra hin
  exact hd j (List.mem_range.1 hj) (r.inBase + j - r.outBase) (by omega) (by omega)

/-- Settles O39: a command that runs has disjoint regions, and one that ends at its issue leaves memory as it is. -/
theorem inputRegionIsNeverChanged : Obligations.InputRegionIsNeverChanged := by
  intro C s t h ht
  have ⟨outside, _⟩ := onlyTheOutputRegionChanges C s t h ht
  rcases h.run ht with (rfl | rfl) | ⟨hinv, _⟩
  · rfl
  · rfl
  · exact inputOf_eq_of_unchangedOutside (hinv.apart rfl) outside

/-! ## Size queries -/

/-- A DECOMPRESS in COUNT mode from its first token, or at its end, with the memory `m`. -/
structure Queries (m : Memory) (s : State) : Prop where
  mem : s.mem = m
  taken : s.start = false
  counting : s.phase = .busy → s.op.cmd = .decompress ∧ s.mode = .count ∧ s.countFirst = true

/-- A failure in COUNT mode from the first token leaves memory as it is (R81). -/
theorem raise_mem_of_countFirst (f : Failure) (h : s.countFirst = true) : (raise f s).mem = s.mem := by
  cases f <;> simp [losesOutput, h]

theorem execToken_count {i : Instr} (hi : i.isToken = true) (hb : s.phase = .busy) (hc : s.op.cmd = .decompress)
    (hm : s.mode = .count) : execToken i s =
      .next { s with cb := i.bytes.headD 0#8, wp := sat (s.wp + i.outSize), ip := s.ip + i.size } := by
  obtain ⟨write, hx, _⟩ := execToken_shape hi s
  rw [hx, whenDecoding_of hb hc, runToken_count hm, go_outcome]

theorem execToken_short {i : Instr} (hi : i.isToken = true) (hb : s.phase = .busy) (hc : s.op.cmd = .decompress)
    (hm : s.mode = .write) (hn : s.op.outCap.toNat - s.wp < i.outSize) : execToken i s =
      .next { s with
        cb := i.bytes.headD 0#8, mode := .count, countFirst := decide (s.ip = 0)
        wp := sat (s.wp + i.outSize), ip := s.ip + i.size } := by
  obtain ⟨write, hx, _⟩ := execToken_shape hi s
  rw [hx, whenDecoding_of hb hc, runToken_short hm hn, go_outcome]

theorem Queries.raise {f : Failure} (h : Queries m s) (hb : s.phase = .busy) : Queries m (raise f s) :=
  have ⟨_, _, hfirst⟩ := h.counting hb
  ⟨(raise_mem_of_countFirst f hfirst).trans h.mem, h.taken, fun hbusy => by simp at hbusy⟩

theorem stepWith_queries (h : Queries m s) (hx : stepWith C s = .next t) : Queries m t := by
  by_cases hb : s.phase = .busy
  swap
  · rw [stepWith_rest hb h.taken] at hx
    cases hx
    exact h
  obtain ⟨hc, hm, hfirst⟩ := h.counting hb
  cases hf : fetchToken s with
  | some i =>
    rw [stepWith_token hb h.taken hc hf, execToken_count (fetchToken_isToken hf) hb hc hm] at hx
    cases hx
    exact ⟨h.mem, h.taken, fun _ => ⟨hc, hm, hfirst⟩⟩
  | none =>
    by_cases hi : s.op.inLen.toNat ≤ s.ip
    · rw [stepWith_streamEnd hb h.taken hc hi, decoderEnd_count hm] at hx
      cases hx
      exact h.raise hb
    · rw [stepWith_truncated hb h.taken hc (by omega) hf] at hx
      cases hx
      have hlatched : Queries m { s with cb := s.mem.read (s.op.inBase + s.ip) } := ⟨h.mem, h.taken, h.counting⟩
      exact hlatched.raise hb

/-- The bytes from the start of the input to its end are the input. -/
theorem inputBytes_zero (s : State) : s.inputBytes 0 s.op.inLen.toNat = inputOf s.op s.mem := by
  simp [State.inputBytes, inputOf]

/-- A running DECOMPRESS whose first token does not fit becomes a size query (R122, R194). -/
theorem stepWith_first_token_short (hb : s.phase = .busy) (hs : s.start = false) (hc : s.op.cmd = .decompress)
    (hip : s.ip = 0) (hm : s.mode = .write) {i : Instr} {rest : List Byte}
    (hd : decodeToken (inputOf s.op s.mem) = .ok (i, rest)) (hn : s.op.outCap.toNat < i.outSize)
    (hx : stepWith C s = .next t) : Queries s.mem t := by
  have hf : fetchToken s = some i := by
    rw [fetchToken_eq, hip, Nat.sub_zero, inputBytes_zero, hd]
    rfl
  rw [stepWith_token hb hs hc hf, execToken_short (fetchToken_isToken hf) hb hc hm (by omega)] at hx
  cases hx
  exact ⟨rfl, hs, fun _ => ⟨hc, rfl, by simp [hip]⟩⟩

/-- Settles O41: the first token makes the command a size query, and every later step keeps it one. -/
theorem sizeQueryLeavesMemory : Obligations.SizeQueryLeavesMemory := by
  intro C s t i rest h hd hn ht
  suffices hmem : t.mem = s.mem from fun _ => by rw [hmem]
  rcases h.issued.run ht with (rfl | rfl) | ⟨_, hrun⟩
  · rfl
  · rfl
  · obtain ⟨u, hu, hrest⟩ := runWith_succ_next hrun
    have hquery : Queries s.mem u :=
      stepWith_first_token_short (s := initialise (sample s.regs.cmd s)) rfl rfl h.cmd rfl rfl hd hn hu
    exact (runWith_keeps stepWith_queries hquery hrest).mem

end Sys2Proof.Machine
end

section
/-! SUPPORT. The decoder and the encoder are inverse (R106): what the decoder's answer says about the bytes, the token
that each of the three ranges of control bytes stands for (R101), and the encoding of each token. -/

namespace Sys2Proof.Machine

open Sys2Proof

variable {cb : Byte} {bytes rest tail : List Byte} {i : Instr} {len off : Nat}

/-! ## The decoder's answer -/

/-- The decoder answers with a token exactly where the bytes begin with a control byte and as many more as it asks for. -/
theorem decodeToken_eq_ok_iff : decodeToken bytes = .ok (i, rest) ↔
    ∃ cb tail, tail.length + 1 = tokenSize cb ∧ bytes = cb :: (tail ++ rest) ∧ i = tokenOf cb tail := by
  constructor
  · intro h
    rcases decodeToken_cases bytes with ⟨_, h'⟩ | ⟨_, _, _, _, h'⟩ | ⟨cb, r, rfl, hlen, h'⟩ <;> rw [h'] at h <;> cases h
    have hpos := tokenSize_pos cb
    exact ⟨cb, r.take (tokenSize cb - 1), by rw [List.length_take]; omega, by rw [List.take_append_drop], rfl⟩
  · rintro ⟨cb, tail, hlen, rfl, rfl⟩
    have hsize : tokenSize cb - 1 = tail.length := by omega
    have hroom : ¬(tail ++ rest).length + 1 < tokenSize cb := by rw [List.length_append]; omega
    rw [decodeToken, if_neg hroom, hsize, List.take_left, List.drop_left]

theorem decodeToken_append (hlen : tail.length + 1 = tokenSize cb) (rest : List Byte) :
    decodeToken (cb :: (tail ++ rest)) = .ok (tokenOf cb tail, rest) :=
  decodeToken_eq_ok_iff.2 ⟨cb, tail, hlen, rfl, rfl⟩

/-! ## The three ranges of control bytes (R101) -/

theorem tokenSize_lit (h : cb.toNat < 0x20) : tokenSize cb = cb.toNat + 2 := by
  rw [tokenSize, if_pos h]; omega

theorem tokenSize_refs (hlo : 0x20 ≤ cb.toNat) (hhi : cb.toNat < 0xE0) : tokenSize cb = 2 := by
  rw [tokenSize, if_neg (by omega), if_pos hhi]

theorem tokenSize_refl (h : 0xE0 ≤ cb.toNat) : tokenSize cb = 3 := by
  rw [tokenSize, if_neg (by omega), if_neg (by omega)]

theorem tokenOf_lit (h : cb.toNat < 0x20) (data : List Byte) : tokenOf cb data = .lit data := by
  have hf : formatBits cb = 0 := by unfold formatBits; omega
  simp [tokenOf, hf]

theorem formatBits_refs (hlo : 0x20 ≤ cb.toNat) (hhi : cb.toNat < 0xE0) : 1 ≤ formatBits cb ∧ formatBits cb ≤ 6 := by
  unfold formatBits; omega

/-- The six REFS rows read as one: the length is the format bits plus 2 (R93, R95). -/
theorem tokenOf_refs (hlo : 0x20 ≤ cb.toNat) (hhi : cb.toNat < 0xE0) (b : Byte) :
    (tokenOf cb [b]).backRef? = some (formatBits cb + 2, assembleOffset cb b) := by
  obtain ⟨hmin, hmax⟩ := formatBits_refs hlo hhi
  interval_cases hf : formatBits cb <;> simp [tokenOf, hf, Instr.backRef?]

theorem tokenOf_refl (h : 0xE0 ≤ cb.toNat) (e b : Byte) :
    tokenOf cb [e, b] = .refl (e.toNat + 9) (assembleOffset cb b) := by
  have hf : formatBits cb = 7 := by
    have := cb.isLt
    unfold formatBits; omega
  simp [tokenOf, hf]

/-- Settles O2: each range has the token of its own. -/
theorem everyControlByteSelectsAFormat : Obligations.EveryControlByteSelectsAFormat := by
  refine fun cb => ⟨fun h data rest hlen => ?_, fun hlo hhi b rest => ?_, fun h e b rest => ?_⟩
  · rw [decodeToken_append (by rw [tokenSize_lit h, hlen]), tokenOf_lit h]
  · have hsize := tokenSize_refs hlo hhi
    exact ⟨tokenOf cb [b], decodeToken_append (tail := [b]) hsize.symm rest, tokenOf_refs hlo hhi b,
      (tokenOf_wellFormed (by rw [hsize]; rfl)).2.trans hsize⟩
  · have hdecode := decodeToken_append (tail := [e, b]) (tokenSize_refl h).symm rest
    rwa [tokenOf_refl h] at hdecode

/-! ## Sizes (R99, R100) -/

/-- R99's table, in the statement's form. -/
theorem tokenSize_eq (cb : Byte) :
    tokenSize cb = if cb.toNat < 0x20 then cb.toNat + 2 else if cb.toNat < 0xE0 then 2 else 3 := by
  split
  · exact tokenSize_lit ‹_›
  · rw [tokenSize, if_neg ‹_›]

/-- A token stands for 1 to 264 output bytes (R100). -/
theorem outSize_range (ht : i.isToken = true) (hw : i.wellFormed = true) : 1 ≤ i.outSize ∧ i.outSize ≤ 264 := by
  rcases token_kind ht with ⟨data, rfl, hout⟩ | ⟨n, off, href, hout⟩
  · have hdata : 1 ≤ data.length ∧ data.length ≤ 32 := by simpa [Instr.wellFormed, literalOk] using hw
    omega
  · obtain ⟨hmin, hmax, -⟩ := backRef_range href hw
    omega

/-- Settles O3: the size is `tokenSize` of the control byte, and the output length that of a well-formed token. -/
theorem tokenSizesFollowFromTheControlByte : Obligations.TokenSizesFollowFromTheControlByte := by
  intro cb rest
  rw [← tokenSize_eq]
  refine ⟨fun hshort => if_pos hshort, fun i after h => ?_⟩
  obtain ⟨_, tail, hlen, hbytes, rfl⟩ := decodeToken_eq_ok_iff.1 h
  cases hbytes
  obtain ⟨hw, hsize⟩ := tokenOf_wellFormed (cb := cb) (rest := tail) (by omega)
  have hdrop : after = (tail ++ after).drop ((tokenOf cb tail).size - 1) := by
    rw [hsize, ← hlen, Nat.add_sub_cancel, List.drop_left]
  exact ⟨hsize, hdrop, outSize_range (tokenOf_isToken cb tail) hw⟩

/-! ## Encoding a decoded token -/

/-- A back-reference is encoded by `enc_ref` of its length and offset (R105). -/
theorem bytes_of_backRef (h : i.backRef? = some (len, off)) : i.bytes = encRef len off := by
  cases i <;> cases h <;> rfl

theorem encRef_short (h : len ≤ shortMax) :
    encRef len off = [refControl len off, BitVec.ofNat 8 ((off - 1) % 256)] := if_pos h

theorem encRef_long (h : shortMax < len) :
    encRef len off = [refControl len off, BitVec.ofNat 8 (len - 9), BitVec.ofNat 8 ((off - 1) % 256)] :=
  if_neg (Nat.not_le.2 h)

theorem encLit_decoded (h : cb.toNat < 0x20) : encLit (cb.toNat + 1) = cb :=
  BitVec.eq_of_toNat_eq (encLit_toNat (by rw [litMax_eq]; omega))

/-- The high part of an assembled offset is `CB[4:0]` (R97). -/
theorem assembleOffset_high (cb b : Byte) : (assembleOffset cb b - 1) / 256 = lowBits cb := by
  have := b.isLt
  unfold assembleOffset; omega

/-- The low part of an assembled offset is the token's last byte (R97). -/
theorem assembleOffset_low (cb b : Byte) : BitVec.ofNat 8 ((assembleOffset cb b - 1) % 256) = b := by
  have hlow : (assembleOffset cb b - 1) % 256 = b.toNat := by
    have := b.isLt
    unfold assembleOffset; omega
  rw [hlow, BitVec.ofNat_toNat, BitVec.setWidth_eq]

theorem refControl_decoded_short (hlo : 0x20 ≤ cb.toNat) (hhi : cb.toNat < 0xE0) (b : Byte) :
    refControl (formatBits cb + 2) (assembleOffset cb b) = cb := by
  have hlen : formatBits cb + 2 ≤ shortMax := Nat.add_le_add_right (formatBits_refs hlo hhi).2 2
  apply BitVec.eq_of_toNat_eq
  rw [refControl_toNat_short hlen (assembleOffset_range cb b).2, assembleOffset_high, formatBits, lowBits]
  omega

theorem refControl_decoded_long (h : 0xE0 ≤ cb.toNat) (hlen : shortMax < len) (b : Byte) :
    refControl len (assembleOffset cb b) = cb := by
  apply BitVec.eq_of_toNat_eq
  rw [refControl_toNat_long hlen (assembleOffset_range cb b).2, assembleOffset_high, lowBits]
  have := cb.isLt
  omega

/-- Encoding the token that a control byte and its other bytes stand for gives these bytes back (R106). -/
theorem tokenOf_bytes (hlen : tail.length + 1 = tokenSize cb) : (tokenOf cb tail).bytes = cb :: tail := by
  by_cases hlit : cb.toNat < 0x20
  · rw [tokenSize_lit hlit] at hlen
    have hdata : tail.length = cb.toNat + 1 := by omega
    rw [tokenOf_lit hlit]
    change encLit tail.length :: tail = cb :: tail
    rw [hdata, encLit_decoded hlit]
  by_cases hrefs : cb.toNat < 0xE0
  · have hlo : 0x20 ≤ cb.toNat := by omega
    have hshort : formatBits cb + 2 ≤ shortMax := Nat.add_le_add_right (formatBits_refs hlo hrefs).2 2
    rw [tokenSize_refs hlo hrefs] at hlen
    obtain ⟨b, rfl⟩ := List.length_eq_one_iff.1 (Nat.succ.inj hlen)
    rw [bytes_of_backRef (tokenOf_refs hlo hrefs b), encRef_short hshort, refControl_decoded_short hlo hrefs,
      assembleOffset_low]
  · have hrefl : 0xE0 ≤ cb.toNat := by omega
    rw [tokenSize_refl hrefl] at hlen
    obtain ⟨e, b, rfl⟩ := List.length_eq_two.1 (Nat.succ.inj hlen)
    have hlong : shortMax < e.toNat + 9 := by rw [shortMax_eq]; omega
    rw [tokenOf_refl hrefl, bytes_of_backRef rfl, encRef_long hlong, refControl_decoded_long hrefl hlong,
      assembleOffset_low, Nat.add_sub_cancel, BitVec.ofNat_toNat, BitVec.setWidth_eq]

/-! ## Decoding an encoded token -/

theorem refControl_refs (hlo : matchMin ≤ len) (hhi : len ≤ shortMax) (ho : off ≤ offMax) :
    0x20 ≤ (refControl len off).toNat ∧ (refControl len off).toNat < 0xE0 := by
  rw [refControl_toNat_short hhi ho]
  simp only [matchMin_eq, shortMax_eq, offMax_eq] at hlo hhi ho
  omega

theorem refControl_refl (h : shortMax < len) (ho : off ≤ offMax) : 0xE0 ≤ (refControl len off).toNat := by
  rw [refControl_toNat_long h ho]
  exact Nat.le_add_right _ _

theorem formatBits_refControl (h : len ≤ shortMax) (ho : off ≤ offMax) : formatBits (refControl len off) = len - 2 := by
  rw [formatBits, refControl_toNat_short h ho]
  rw [offMax_eq] at ho
  omega

/-- Either form holds the high part of the offset in `CB[4:0]` (R105). -/
theorem lowBits_refControl (ho : off ≤ offMax) : lowBits (refControl len off) = (off - 1) / 256 := by
  have hhigh : (off - 1) / 256 < 32 := by rw [offMax_eq] at ho; omega
  by_cases h : len ≤ shortMax
  · rw [lowBits, refControl_toNat_short h ho]
    omega
  · rw [lowBits, refControl_toNat_long (Nat.not_le.1 h) ho]
    omega

/-- The offset survives encoding in either form (R97, R105). -/
theorem assembleOffset_encoded (hpos : offMin ≤ off) (ho : off ≤ offMax) :
    assembleOffset (refControl len off) (BitVec.ofNat 8 ((off - 1) % 256)) = off := by
  rw [offMin_eq] at hpos
  rw [assembleOffset, lowBits_refControl ho, BitVec.toNat_ofNat]
  omega

theorem decodeToken_encRef_short (hlo : matchMin ≤ len) (hhi : len ≤ shortMax) (ho : off ≤ offMax) (rest : List Byte) :
    decodeToken (encRef len off ++ rest) =
      .ok (tokenOf (refControl len off) [BitVec.ofNat 8 ((off - 1) % 256)], rest) := by
  obtain ⟨hmin, hmax⟩ := refControl_refs hlo hhi ho
  rw [encRef_short hhi]
  exact decodeToken_append (tail := [_]) (tokenSize_refs hmin hmax).symm rest

theorem decodeToken_encRef_long (h : shortMax < len) (hle : len ≤ matchMax) (hpos : offMin ≤ off) (ho : off ≤ offMax)
    (rest : List Byte) : decodeToken (encRef len off ++ rest) = .ok (.refl len off, rest) := by
  have hcb := refControl_refl h ho
  have hlen : (BitVec.ofNat 8 (len - 9) : Byte).toNat + 9 = len := by
    simp only [shortMax_eq, matchMax_eq] at h hle
    rw [BitVec.toNat_ofNat]
    omega
  have hdecode := decodeToken_append (tail := [BitVec.ofNat 8 (len - 9), BitVec.ofNat 8 ((off - 1) % 256)])
    (tokenSize_refl hcb).symm rest
  rw [tokenOf_refl hcb, hlen, assembleOffset_encoded hpos ho] at hdecode
  rw [encRef_long h]
  exact hdecode

theorem decodeToken_encLit {data : List Byte} (hpos : 1 ≤ data.length) (hle : data.length ≤ litMax) (rest : List Byte) :
    decodeToken (encLit data.length :: (data ++ rest)) = .ok (.lit data, rest) := by
  have hcb := encLit_toNat hle
  have hlit : (encLit data.length).toNat < 0x20 := by rw [litMax_eq] at hle; omega
  rw [decodeToken_append (by rw [tokenSize_lit hlit]; omega), tokenOf_lit hlit]

/-- Decoding gives a well-formed token back from its encoding, whatever follows (R106). -/
theorem decodeToken_bytes (hw : i.wellFormed = true) (ht : i.isToken = true) (rest : List Byte) :
    decodeToken (i.bytes ++ rest) = .ok (i, rest) := by
  cases i with
  | compress => cases ht
  | decompress => cases ht
  | lit data =>
    obtain ⟨hpos, hle⟩ := of_decide_eq_true hw
    exact decodeToken_encLit hpos hle rest
  | refl len off =>
    obtain ⟨hlen, hoff⟩ := Bool.and_eq_true_iff.1 hw
    obtain ⟨hlong, hmax⟩ := of_decide_eq_true hlen
    obtain ⟨hpos, hle⟩ := of_decide_eq_true hoff
    exact decodeToken_encRef_long hlong hmax hpos hle rest
  | refs3 off | refs4 off | refs5 off | refs6 off | refs7 off | refs8 off =>
    obtain ⟨hpos, hle⟩ := of_decide_eq_true hw
    rw [bytes_of_backRef rfl, decodeToken_encRef_short (by decide) (by decide) hle]
    simp [tokenOf, formatBits_refControl _ hle, assembleOffset_encoded hpos hle]

/-- Settles O1: `decodeToken_bytes` one way, and `tokenOf_bytes` on what the decoder took the other way. -/
theorem tokenFormatIsBijection : Obligations.TokenFormatIsBijection := by
  refine ⟨fun i rest hw ht => decodeToken_bytes hw ht rest, fun bytes rest i h => ?_⟩
  obtain ⟨cb, tail, hlen, rfl, rfl⟩ := decodeToken_eq_ok_iff.1 h
  exact ⟨(tokenOf_wellFormed (by omega)).1, tokenOf_isToken cb tail, by rw [tokenOf_bytes hlen, List.cons_append]⟩

/-! ## `CMD` and sample words -/

/-- Decoding gives a command back from its encoding (R107). -/
theorem decode_encode_instr (c : Cmd) : decode (encode c.instr) = .ok (c.instr, []) := by
  have hbit : encode c.instr = .command c.bit := by cases c <;> rfl
  rw [hbit, decode, commandOfBit_bit]

/-- Settles O4: the value of `CMD` is the encoding of the command it selects. -/
theorem commandRegisterSelectsTheCommand : Obligations.CommandRegisterSelectsTheCommand :=
  ⟨decode_encode_instr .compress, decode_encode_instr .decompress, rfl, rfl⟩

/-- Settles O5: the stream words have the sizes their control bytes ask for, and `CMD = 1` encodes DECOMPRESS. -/
theorem sampleWordsDecode : Obligations.SampleWordsDecode :=
  ⟨decodeToken_append (tail := [0x61#8, 0x62#8]) rfl [], decodeToken_append (tail := [0x00#8]) rfl [],
    decodeToken_append (tail := [0x02#8]) rfl [0x7F#8], decodeToken_append (tail := [0x16#8, 0x00#8]) rfl [],
    decode_encode_instr .decompress⟩

end Sys2Proof.Machine
end

section
/-! SUPPORT. The front end of the commands (R124 to R128) on this hardware, and the software call over whole commands
(R123): how a command answers when it ends (R129, R257), and what the call makes of the answer. -/

namespace Sys2Proof.Machine

open Sys2Proof

variable {C : Config} {c : Cmd} {s t : State} {ibuf obuf : Option Nat} {ilen olen : Len}

/-! ## The front end -/

/-- A command run while none is running is issued (R120, R121). -/
theorem exec_command_issues (hb : s.phase ≠ .busy) : exec c.instr s = issue hardware c s := by
  cases hp : s.phase with
  | busy => exact absurd hp hb
  | idle | done =>
    cases c with
    | compress => simp [Cmd.instr, exec, execCompress, execCompressWith, hp]
    | decompress => simp [Cmd.instr, exec, execDecompress, execDecompressWith, hp]

/-- With unbounded addresses no region wraps (R10), so disjoint regions are all a command needs to be issued (R301). -/
theorem brokenObligation_hardware {r : Operands} (hd : r.Disjoint) : brokenObligation hardware r = none :=
  (brokenObligation_eq_none_iff hardware r).2 ⟨nofun, hd⟩

/-- Empty input shares no address with the output. -/
theorem Operands.disjoint_of_empty {r : Operands} (h : r.inLen = 0#32) : r.Disjoint := by
  intro _ _ i hi
  simp [h] at hi

/-- The argument check passes and there is input: the command starts (R126, R128). -/
theorem exec_command_starts (hb : s.phase ≠ .busy) (hd : s.regs.Disjoint)
    (hargs : badArguments (sampled c s.regs) = false) (hlen : s.regs.inLen ≠ 0#32) :
    exec c.instr s = .next (initialise (sample c s)) := by
  simp [exec_command_issues hb, issue, brokenObligation_hardware hd, hargs, hlen]

/-- The argument check fails: the command ends with EARGS (R125). -/
theorem exec_command_eargs (hb : s.phase ≠ .busy) (hd : s.regs.Disjoint)
    (hargs : ¬badArguments (sampled c s.regs) = false) : exec c.instr s = .next (raise .eargs (sample c s)) := by
  simp [exec_command_issues hb, issue, brokenObligation_hardware hd, hargs]

/-- The argument check passes on empty input: the command ends with `OK(0)` (R127). -/
theorem exec_command_empty (hb : s.phase ≠ .busy) (hargs : badArguments (sampled c s.regs) = false)
    (hlen : s.regs.inLen = 0#32) : exec c.instr s = .next (finish 0 (sample c s)) := by
  simp [exec_command_issues hb, issue, brokenObligation_hardware (Operands.disjoint_of_empty hlen), hargs, hlen]

/-- Settles O20: the command starts, in the state that `initialise` and `sample` write out. -/
theorem compressIsIssued : Obligations.CompressIsIssued := fun s hb hd hargs hlen =>
  ⟨initialise (sample .compress s), exec_command_starts hb hd ((badArguments_compress s.regs).2 hargs) hlen, rfl⟩

/-- Settles O21: as O20, with the arguments of DECOMPRESS. -/
theorem decompressIsIssued : Obligations.DecompressIsIssued := fun s hb hd hargs hlen =>
  ⟨initialise (sample .decompress s), exec_command_starts hb hd ((badArguments_decompress s.regs).2 hargs) hlen, rfl⟩

/-- Settles O22: arguments out of order are those that fail the check, and EARGS leaves memory alone. -/
theorem missingRegionIsEargs : Obligations.MissingRegionIsEargs := fun s hb hd =>
  ⟨fun hargs => ⟨raise .eargs (sample .compress s),
      exec_command_eargs hb hd (mt (badArguments_compress s.regs).1 hargs), rfl⟩,
    fun hargs => ⟨raise .eargs (sample .decompress s),
      exec_command_eargs hb hd (mt (badArguments_decompress s.regs).1 hargs), rfl⟩⟩

/-- Settles O23: empty input passes the check of COMPRESS whatever is present, and neither command looks further. -/
theorem emptyInputSucceeds : Obligations.EmptyInputSucceeds := fun s hb hlen =>
  ⟨⟨finish 0 (sample .compress s),
      exec_command_empty hb ((badArguments_compress s.regs).2 fun h => absurd hlen h) hlen, rfl⟩,
    fun hargs => ⟨finish 0 (sample .decompress s),
      exec_command_empty hb ((badArguments_decompress s.regs).2 hargs) hlen, rfl⟩⟩

/-! ## How a command answers -/

/-- The response registers hold OK with a length (R129), or a failure with the `RLEN_WR` that R257 gives it. -/
inductive State.Answered (s : State) : Prop
  | ok (status : s.status = okCode) (rlenWr : s.rlenWr = true)
  | failed (f : Failure) (status : s.status = f.code) (rlenWr : s.rlenWr = storesLength f s)

theorem finish_answered (n : Nat) (s : State) : (finish n s).Answered := .ok rfl rfl

theorem raise_answered (f : Failure) (s : State) : (raise f s).Answered := .failed f rfl rfl

theorem decoderEnd_answered (s : State) : (decoderEnd s).Answered := by
  cases hm : s.mode with
  | write => rw [decoderEnd_write hm]; exact finish_answered _ s
  | count => rw [decoderEnd_count hm]; exact raise_answered .esize s

theorem EncoderTurn.busy_or_answered {x : Flow} (h : EncoderTurn C s x) (hb : s.phase = .busy)
    (hx : x.outcome = .next t) : t.phase = .busy ∨ t.Answered := by
  cases h with
  | literal | filled | matched => cases hx; exact .inl hb
  | ended => cases hx; exact .inr (finish_answered _ _)
  | short => cases hx; exact .inr (raise_answered .esize _)

theorem TokenTurn.busy_or_answered {i : Instr} {x : Host.Outcome State Fault Refusal} (h : TokenTurn i s x)
    (hb : s.phase = .busy) (hx : x = .next t) : t.phase = .busy ∨ t.Answered := by
  cases h with
  | counted | short | literal | copied => cases hx; exact .inl hb
  | bad => cases hx; exact .inr (raise_answered .ecorrupt _)

/-- A step of a running command leaves it running or ends it with an answer. -/
theorem stepWith_busy_or_answered (hr : s.RunInv) (hb : s.phase = .busy) (h : stepWith C s = .next t) :
    t.phase = .busy ∨ t.Answered := by
  have hs := hr.startTaken hb
  cases hc : s.op.cmd with
  | compress =>
    rw [stepWith_compress hb hs hc] at h
    exact (encoderTurn_spec C hr hb hc).busy_or_answered hb h
  | decompress =>
    cases hf : fetchToken s with
    | some i =>
      obtain ⟨htoken, hwf, _, _⟩ := fetchToken_spec hf
      rw [stepWith_token hb hs hc hf] at h
      exact (execToken_spec htoken hwf hb hc).busy_or_answered hb h
    | none =>
      by_cases hi : s.op.inLen.toNat ≤ s.ip
      · rw [stepWith_streamEnd hb hs hc hi] at h
        cases h
        exact .inr (decoderEnd_answered s)
      · rw [stepWith_truncated hb hs hc (by omega) hf] at h
        cases h
        exact .inr (raise_answered .ecorrupt _)

/-- After a step the response registers of an ended command hold an answer, if they did before it. -/
theorem stepWith_answered (hr : s.RunInv) (ha : s.phase = .done → s.Answered) (h : stepWith C s = .next t)
    (hdone : t.phase = .done) : t.Answered := by
  cases stepWith_next h with
  | rest _ _ same => subst same; exact ha hdone
  | issued _ _ is =>
    rcases issue_next is with rfl | rfl | ⟨rfl, _⟩
    · exact raise_answered .eargs _
    · exact finish_answered 0 _
    · simp at hdone
  | ran busy => exact (stepWith_busy_or_answered hr busy h).resolve_left (by simp [hdone])

/-- A command that keeps the host's obligations ends with an answer. -/
theorem Issued.answered (h : Issued C s) (ht : Ends C s t) : t.Answered := by
  rcases h.run ht with (rfl | rfl) | ⟨hinv, hrun⟩
  · exact raise_answered .eargs _
  · exact finish_answered 0 _
  · exact (runWith_keeps (P := fun u => u.RunInv ∧ (u.phase = .done → u.Answered))
      (fun hu hx => ⟨stepWith_runInv hu.1 hx, stepWith_answered hu.1 hu.2 hx⟩) ⟨hinv, by simp⟩ hrun).2 ht.2

/-! ## The software call -/

/-- The engine with the registers of a call written and `START` after them (R123). -/
def State.called (r : Operands) (s : State) : State := { s with regs := r, start := true }

/-- What a call with the length slot `olen` makes of an engine whose command has ended (R123). -/
def callResult (olen : Len) (t : State) : CallResult :=
  { code := t.status.toInt, olen := if t.rlenWr then t.rlen else olen, after := t }

@[simp] theorem callResult_after (olen : Len) (t : State) : (callResult olen t).after = t := rfl

theorem called_notBusy (r : Operands) (hidle : s.busyToHost = false) : (s.called r).phase ≠ .busy :=
  of_decide_eq_false (Bool.or_eq_false_iff.1 hidle).1

theorem Issued.of_call {r : Operands} (hidle : s.busyToHost = false) (hw : r.NoWrap C) (hd : r.Disjoint) :
    Issued C (s.called r) := ⟨called_notBusy _ hidle, rfl, hw, hd⟩

theorem softwareCall_busy (h : s.busyToHost = true) : softwareCall C c ibuf ilen obuf olen s = none := by
  simp [softwareCall, h]

/-- A call whose command ends returns what the engine then holds. -/
theorem softwareCall_of_ends (hidle : s.busyToHost = false)
    (ht : Ends C (s.called (callOperands C c ibuf ilen obuf olen)) t) :
    softwareCall C c ibuf ilen obuf olen s = some (callResult olen t) := by
  have hrun : runWith C (stepBound ilen.toNat)
      { s with regs := callOperands C c ibuf ilen obuf olen, start := true } = .next t := ht.1
  simp [softwareCall, hidle, hrun, callResult]

/-- A call that breaks R296 or R297 is refused at its issue (R301). -/
theorem softwareCall_broken (hidle : s.busyToHost = false)
    (hbad : ¬((callOperands C c ibuf ilen obuf olen).NoWrap C ∧ (callOperands C c ibuf ilen obuf olen).Disjoint)) :
    softwareCall C c ibuf ilen obuf olen s = none := by
  obtain ⟨f, hf⟩ := Option.ne_none_iff_exists'.1 (mt (brokenObligation_eq_none_iff C _).1 hbad)
  have hstep : stepWith C (s.called (callOperands C c ibuf ilen obuf olen)) = .refused f := by
    rw [stepWith_issue (called_notBusy _ hidle) rfl]
    simp [issue, State.called, hf]
  have hrun : runWith C (stepBound ilen.toNat)
      { s with regs := callOperands C c ibuf ilen obuf olen, start := true } = .refused f := runWith_refused _ hstep
  simp [softwareCall, hidle, hrun]

/-- A call that has a result was made while no command ran, on regions that keep the host's obligations. -/
theorem softwareCall_some {r : CallResult} (h : softwareCall C c ibuf ilen obuf olen s = some r) :
    s.busyToHost = false ∧ (callOperands C c ibuf ilen obuf olen).NoWrap C ∧
      (callOperands C c ibuf ilen obuf olen).Disjoint := by
  cases hidle : s.busyToHost with
  | true => simp [softwareCall_busy hidle] at h
  | false =>
    by_contra hbad
    simp [softwareCall_broken hidle fun hk => hbad ⟨rfl, hk⟩] at h

/-- The code of an answer, and what stands in the length slot then (R36, R257). -/
theorem State.Answered.callResult_cases (h : t.Answered) (olen : Len) :
    ((callResult olen t).code = 0 ∧ (callResult olen t).olen = t.rlen) ∨
    ((callResult olen t).code = -1 ∧ t.op.cmd = .decompress ∧ (callResult olen t).olen = t.rlen) ∨
    ((callResult olen t).code = -1 ∧ t.op.cmd = .compress ∧ (callResult olen t).olen = olen) ∨
    (((callResult olen t).code = -2 ∨ (callResult olen t).code = -3) ∧ (callResult olen t).olen = olen) := by
  cases h with
  | ok status rlenWr => exact .inl (by simp [callResult, status, rlenWr, okCode])
  | failed f status rlenWr =>
    cases f with
    | esize =>
      cases hc : t.op.cmd with
      | compress | decompress => simp [callResult, status, rlenWr, storesLength, hc, Failure.code]
    | ecorrupt | eargs => simp [callResult, status, rlenWr, storesLength, Failure.code]

/-- Settles O56: a call with a result is an issued command, which ends with an answer. -/
theorem softwareCallResults : Obligations.SoftwareCallResults := by
  intro C c ibuf ilen obuf olen s
  refine ⟨softwareCall_busy, fun hidle hw hd => ?_, fun r hr => ?_⟩
  · obtain ⟨t, ht, _⟩ := (Issued.of_call hidle hw hd).ends
    exact ⟨_, softwareCall_of_ends hidle ht⟩
  · obtain ⟨hidle, hw, hd⟩ := softwareCall_some hr
    have hissued := Issued.of_call hidle hw hd
    obtain ⟨t, ht, hop⟩ := hissued.ends
    have hcmd : t.op.cmd = c := congrArg Operands.cmd hop
    obtain rfl : callResult olen t = r := Option.some.inj ((softwareCall_of_ends hidle ht).symm.trans hr)
    refine ⟨ht.2, rfl, ?_⟩
    rcases (hissued.answered ht).callResult_cases olen with ⟨hcode, hslot⟩ | ⟨hcode, hc, hslot⟩ |
      ⟨hcode, hc, hslot⟩ | ⟨hcode | hcode, hslot⟩
    · simp [hcode, hslot]
    · simp [hcode, hslot, ← hcmd, hc]
    · simp [hcode, hslot, ← hcmd, hc]
    · simp [hcode, hslot]
    · simp [hcode, hslot]

end Sys2Proof.Machine
end

section
/-! SUPPORT. Streams of tokens: parsing and encoding a token sequence are inverse (R102, R106), and what a sequence
decodes to is built up token by token (R205). -/

namespace Sys2Proof.Machine

open Sys2Proof

variable {bytes out out' : List Byte} {tokens tokens' : List Instr} {i : Instr} {n off : Nat}

/-! ## Parsing and encoding -/

/-- Each of the instructions is a token that has an encoding. -/
def Encodable (tokens : List Instr) : Prop := ∀ i ∈ tokens, i.wellFormed = true ∧ i.isToken = true

/-- The bytes of the tokens, one token after the other (R90). -/
def streamOf (tokens : List Instr) : List Byte := tokens.flatMap Instr.bytes

@[simp] theorem streamOf_nil : streamOf [] = [] := rfl

@[simp] theorem streamOf_cons (i : Instr) (tokens : List Instr) : streamOf (i :: tokens) = i.bytes ++ streamOf tokens :=
  List.flatMap_cons

@[simp] theorem streamOf_append (tokens tokens' : List Instr) :
    streamOf (tokens ++ tokens') = streamOf tokens ++ streamOf tokens' := List.flatMap_append

theorem encodable_append : Encodable (tokens ++ tokens') ↔ Encodable tokens ∧ Encodable tokens' :=
  List.forall_mem_append

theorem encodable_cons : Encodable (i :: tokens) ↔ (i.wellFormed = true ∧ i.isToken = true) ∧ Encodable tokens :=
  List.forall_mem_cons

/-- A token has at least two bytes: its control byte, and data or an offset (R99). -/
theorem two_le_bytes_length (hw : i.wellFormed = true) (ht : i.isToken = true) : 2 ≤ i.bytes.length := by
  rcases token_kind ht with ⟨data, rfl, -⟩ | ⟨len, off, href, -⟩
  · have hdata := (of_decide_eq_true hw).1
    change 2 ≤ data.length + 1
    omega
  · rw [bytes_of_backRef href, encRef_length, refSize]
    split <;> omega

theorem parseTokens_streamOf {fuel : Nat} (h : Encodable tokens) (hf : (streamOf tokens).length ≤ fuel) :
    parseTokens fuel (streamOf tokens) = some tokens := by
  induction tokens generalizing fuel with
  | nil => cases fuel <;> rfl
  | cons i rest ih =>
    obtain ⟨⟨hw, ht⟩, hrest⟩ := encodable_cons.1 h
    have hsize := two_le_bytes_length hw ht
    have hdec := decodeToken_bytes hw ht (streamOf rest)
    rw [streamOf_cons, List.length_append] at hf
    rw [streamOf_cons]
    obtain ⟨fuel, rfl⟩ : ∃ k, fuel = k + 1 := ⟨fuel - 1, by omega⟩
    obtain ⟨b, tail, hb⟩ := List.exists_cons_of_length_pos (Nat.lt_of_lt_of_le Nat.two_pos hsize)
    rw [hb, List.cons_append] at hdec ⊢
    have htail : parseTokens fuel (streamOf rest) = some rest := ih hrest (by omega)
    rw [parseTokens, hdec]
    simp only [htail, Option.map_some]

theorem parseTokens_some {fuel : Nat} (h : parseTokens fuel bytes = some tokens) :
    Encodable tokens ∧ streamOf tokens = bytes := by
  induction fuel generalizing bytes tokens with
  | zero =>
    cases bytes with
    | nil => cases h; exact ⟨nofun, rfl⟩
    | cons => cases h
  | succ fuel ih =>
    cases bytes with
    | nil => cases h; exact ⟨nofun, rfl⟩
    | cons b bytes =>
      rw [parseTokens] at h
      split at h
      · rename_i i rest hdec
        obtain ⟨tokens', hrest, rfl⟩ := Option.map_eq_some_iff.1 h
        obtain ⟨henc, hbytes⟩ := ih hrest
        obtain ⟨hw, ht, hi⟩ := tokenFormatIsBijection.2 _ _ _ hdec
        exact ⟨encodable_cons.2 ⟨⟨hw, ht⟩, henc⟩, by rw [streamOf_cons, hbytes, hi]⟩
      · cases h

/-- A byte string is parsed into the tokens it is the encoding of (R102, R106). -/
theorem parse_eq_some_iff : parse bytes = some tokens ↔ Encodable tokens ∧ streamOf tokens = bytes := by
  refine ⟨parseTokens_some, ?_⟩
  rintro ⟨henc, rfl⟩
  exact parseTokens_streamOf henc (Nat.le_refl _)

/-! ## Decoding token by token -/

theorem runTokens_append (out : List Byte) (tokens tokens' : List Instr) :
    runTokens out (tokens ++ tokens') = (runTokens out tokens).bind fun o => runTokens o tokens' := by
  induction tokens generalizing out with
  | nil => rfl
  | cons i rest ih =>
    rw [List.cons_append, runTokens, runTokens]
    cases tokenOutput out i with
    | none => rfl
    | some o => exact ih o

theorem runTokens_singleton (out : List Byte) (i : Instr) : runTokens out [i] = tokenOutput out i := by
  rw [runTokens]
  cases tokenOutput out i <;> rfl

theorem tokenOutput_lit (out data : List Byte) : tokenOutput out (.lit data) = some (out ++ data) := rfl

theorem tokenOutput_backRef (href : i.backRef? = some (n, off)) (hle : off ≤ out.length) :
    tokenOutput out i = some (copyList n off out) := by
  simp [tokenOutput, href, Nat.not_lt.2 hle]

/-- A back-reference that has an output reaches back no further than the output does (R199). -/
theorem offset_le_of_tokenOutput (href : i.backRef? = some (n, off)) (h : tokenOutput out i = some out') :
    off ≤ out.length := by
  by_contra hlt
  simp [tokenOutput, href, Nat.lt_of_not_le hlt] at h

theorem copyList_length (n off : Nat) (out : List Byte) : (copyList n off out).length = out.length + n := by
  induction n generalizing out with
  | zero => rfl
  | succ n ih =>
    rw [copyList, ih, List.length_append, List.length_singleton]
    omega

theorem tokenOutput_length (ht : i.isToken = true) (h : tokenOutput out i = some out') :
    out'.length = out.length + i.outSize := by
  rcases token_kind ht with ⟨data, rfl, hsize⟩ | ⟨n, off, href, hsize⟩
  · cases h
    rw [List.length_append, hsize]
  · rw [tokenOutput_backRef href (offset_le_of_tokenOutput href h)] at h
    cases h
    rw [copyList_length, hsize]

/-- What tokens decode to has the sum of their lengths (R205). -/
theorem runTokens_length (henc : Encodable tokens) (h : runTokens out tokens = some out') :
    out'.length = out.length + totalOut tokens := by
  induction tokens generalizing out with
  | nil => cases h; rfl
  | cons i rest ih =>
    obtain ⟨⟨_, ht⟩, hrest⟩ := encodable_cons.1 henc
    rw [runTokens] at h
    split at h
    · rename_i o ho
      rw [ih hrest h, tokenOutput_length ht ho, totalOut, totalOut, List.map_cons, List.sum_cons, Nat.add_assoc]
    · cases h

/-- In tokens that decode, no offset exceeds the bytes decoded before it (R199). -/
theorem offset_le_totalOut {j : Nat} (henc : Encodable tokens) (h : runTokens [] tokens = some out)
    (hj : tokens[j]? = some i) (href : i.backRef? = some (n, off)) : off ≤ totalOut (tokens.take j) := by
  obtain ⟨hlt, hget⟩ := List.getElem?_eq_some_iff.1 hj
  have hsplit : tokens.take j ++ i :: tokens.drop (j + 1) = tokens := by
    rw [← hget, ← List.drop_eq_getElem_cons hlt, List.take_append_drop]
  rw [← hsplit] at henc h
  rw [runTokens_append] at h
  obtain ⟨o, ho, hrest⟩ := Option.bind_eq_some_iff.1 h
  have hlen : o.length = [].length + totalOut (tokens.take j) := runTokens_length (encodable_append.1 henc).1 ho
  rw [runTokens] at hrest
  split at hrest
  · rename_i o' ho'
    have := offset_le_of_tokenOutput href ho'
    simpa [hlen] using this
  · cases hrest

end Sys2Proof.Machine
end

section
/-! SUPPORT. A reference encoder on byte lists (R150 to R168): what COMPRESS does to an input, with no memory, no output
region and no capacity. Its tokens decode to the input, have the shape of R180 and the size of R178. -/

namespace Sys2Proof.Machine

open Sys2Proof

/-! ## The encoder -/

/-- Where the encoder stands: its cursor, the start of its pending literal run, and its table. -/
structure Scan where
  ip : Nat
  ls : Nat
  table : Nat → Option Nat

/-- The bytes at `p` and at `q` agree for `n` positions. -/
abbrev AgreeAt (input : List Byte) (p q n : Nat) : Prop := ∀ k < n, input.getD (p + k) 0 = input.getD (q + k) 0

/-- The slot of the three bytes at `q` (R155). -/
def tripleSlot (C : Config) (input : List Byte) (q : Nat) : Nat :=
  C.hash (input.getD q 0) (input.getD (q + 1) 0) (input.getD (q + 2) 0)

/-- The table after the positions `p .. p+n-1` with three bytes were entered in ascending order (R157, R167). -/
def enterUpTo (C : Config) (input : List Byte) (p : Nat) (table : Nat → Option Nat) : Nat → Nat → Option Nat
  | 0, j => table j
  | n + 1, j =>
    if p + n + 3 ≤ input.length ∧ tripleSlot C input (p + n) = j then some (p + n) else enterUpTo C input p table n j

/-- The longest match of the bytes at `q` with those at `p` (R159). -/
def longestMatch (input : List Byte) (p q : Nat) : Nat :=
  Nat.findGreatest (AgreeAt input p q) (min (input.length - q) matchMax)

/-- How many positions of a match of `len` bytes are entered (R8). -/
def entryCount (len : Nat) : HashUpdate → Nat
  | .all => len
  | .start => 1

/-- The back-reference token of a length and an offset (R93 to R95). -/
def refToken (len off : Nat) : Instr :=
  match len with
  | 3 => .refs3 off
  | 4 => .refs4 off
  | 5 => .refs5 off
  | 6 => .refs6 off
  | 7 => .refs7 off
  | 8 => .refs8 off
  | _ => .refl len off

/-- The tokens of a literal run: none for an empty one (R163). -/
def literalTokens (data : List Byte) : List Instr := if data.length = 0 then [] else [.lit data]

/-- The pending literal run (R25). -/
def Scan.run (input : List Byte) (e : Scan) : List Byte := (input.drop e.ls).take (e.ip - e.ls)

/-- The accepted candidate at the cursor (R155, R156, R158). -/
def Scan.candidate (C : Config) (input : List Byte) (e : Scan) : Option Nat :=
  if e.ip + 3 ≤ input.length then
    (e.table (tripleSlot C input e.ip)).filter fun p => decide (e.ip - p ≤ offMax ∧ AgreeAt input p e.ip 3)
  else none

/-- The cursor past `n` bytes and the `m` positions entered from it on, with the run starting at `ls`. -/
def Scan.moved (C : Config) (input : List Byte) (e : Scan) (n m ls : Nat) : Scan :=
  ⟨e.ip + n, ls, enterUpTo C input e.ip e.table m⟩

/-- One turn of the loop: where it leads, and the tokens it writes (R153). -/
def Scan.turn (C : Config) (input : List Byte) (e : Scan) : Scan × List Instr :=
  match e.candidate C input with
  | some p =>
    let len := longestMatch input p e.ip
    (e.moved C input len (entryCount len C.hupd) (e.ip + len),
      literalTokens (e.run input) ++ [refToken len (e.ip - p)])
  | none =>
    if e.ip + 1 = e.ls + litMax then
      (e.moved C input 1 1 (e.ip + 1), [.lit ((e.moved C input 1 1 e.ls).run input)])
    else (e.moved C input 1 1 e.ls, [])

/-- The tokens from here to the end of the input, in at most `fuel` turns. -/
def Scan.tokens (C : Config) (input : List Byte) : Nat → Scan → List Instr
  | 0, e => literalTokens (e.run input)
  | fuel + 1, e =>
    if e.ip < input.length then (e.turn C input).2 ++ Scan.tokens C input fuel (e.turn C input).1
    else literalTokens (e.run input)

theorem Scan.tokens_turn {C : Config} {input : List Byte} {e : Scan} (h : e.ip < input.length) (fuel : Nat) :
    e.tokens C input (fuel + 1) = (e.turn C input).2 ++ (e.turn C input).1.tokens C input fuel := if_pos h

theorem Scan.tokens_end {C : Config} {input : List Byte} {e : Scan} (h : e.ip = input.length) (fuel : Nat) :
    e.tokens C input fuel = literalTokens (e.run input) := by
  cases fuel with
  | zero => rfl
  | succ fuel => exact if_neg (Nat.not_lt.2 (Nat.le_of_eq h.symm))

/-- Where COMPRESS starts: no table, no run (R151). -/
def Scan.initial : Scan := ⟨0, 0, fun _ => none⟩

/-- The tokens COMPRESS makes of an input (R150). -/
def encoderTokens (C : Config) (input : List Byte) : List Instr := Scan.initial.tokens C input input.length

variable {C : Config} {input data : List Byte} {e : Scan} {r : Scan × List Instr} {fuel : Nat}

/-! ## The tokens of a turn -/

theorem literalTokens_of_pos (h : data.length ≠ 0) : literalTokens data = [.lit data] := if_neg h

theorem literalTokens_cases (data : List Byte) :
    (data = [] ∧ literalTokens data = []) ∨ (1 ≤ data.length ∧ literalTokens data = [.lit data]) := by
  by_cases h : data.length = 0
  · exact .inl ⟨List.eq_nil_of_length_eq_zero h, if_pos h⟩
  · exact .inr ⟨Nat.pos_of_ne_zero h, if_neg h⟩

theorem refToken_backRef {len : Nat} (h : 3 ≤ len) (off : Nat) : (refToken len off).backRef? = some (len, off) := by
  unfold refToken
  split <;> rfl

theorem refToken_encodable {len off : Nat} (h : 3 ≤ len) (hle : len ≤ 264) (hpos : 1 ≤ off) (hoff : off ≤ 8192) :
    (refToken len off).wellFormed = true ∧ (refToken len off).isToken = true := by
  unfold refToken
  split <;> simp [Instr.wellFormed, Instr.isToken, offsetOk, longLenOk, hpos, hoff, hle]
  grind

/-- The encoder is in order: a run shorter than 32 bytes ends at the cursor, and the table lies below it (R168). -/
structure Scan.Ordered (input : List Byte) (e : Scan) : Prop where
  run_le : e.ls ≤ e.ip
  run_short : e.ip ≤ e.ls + 31
  inside : e.ip ≤ input.length
  below : ∀ j p, e.table j = some p → p < e.ip

theorem Scan.Ordered.initial (input : List Byte) : Scan.initial.Ordered input :=
  ⟨Nat.le_refl _, Nat.zero_le _, Nat.zero_le _, nofun⟩

theorem Scan.Ordered.run_length (h : e.Ordered input) : (e.run input).length = e.ip - e.ls := by
  have := h.inside
  rw [Scan.run, List.length_take, List.length_drop]
  omega

/-- The input up to the cursor is the input emitted and the pending run. -/
theorem Scan.take_append_run (h : e.ls ≤ e.ip) : input.take e.ls ++ e.run input = input.take e.ip := by
  obtain ⟨n, hn⟩ := Nat.exists_eq_add_of_le h
  rw [Scan.run, hn, Nat.add_sub_cancel_left, List.take_add]

/-- What a turn can be: a byte passed, a full run, or a match with the run before it. -/
inductive ScanTurn (input : List Byte) (e : Scan) : Scan × List Instr → Prop
  | literal (table : Nat → Option Nat) (short : e.ip + 1 ≤ e.ls + 31) : ScanTurn input e (⟨e.ip + 1, e.ls, table⟩, [])
  | filled (table : Nat → Option Nat) (full : e.ip + 1 = e.ls + 32) :
      ScanTurn input e (⟨e.ip + 1, e.ip + 1, table⟩, [.lit (Scan.run input ⟨e.ip + 1, e.ls, table⟩)])
  | matched (table : Nat → Option Nat) (p len : Nat) (below : p < e.ip) (near : e.ip - p ≤ 8192) (len_ge : 3 ≤ len)
      (len_le : len ≤ 264) (inside : e.ip + len ≤ input.length) (agree : AgreeAt input p e.ip len) :
      ScanTurn input e
        (⟨e.ip + len, e.ip + len, table⟩, literalTokens (e.run input) ++ [refToken len (e.ip - p)])

theorem ScanTurn.moves (h : ScanTurn input e r) : e.ip < r.1.ip := by
  cases h with
  | literal => exact Nat.lt_succ_self _
  | filled => exact Nat.lt_succ_self _
  | matched _ _ _ _ _ len_ge => exact Nat.lt_add_of_pos_right (by omega)

theorem Scan.candidate_eq_some_iff {p : Nat} : e.candidate C input = some p ↔
    e.ip + 3 ≤ input.length ∧ e.table (tripleSlot C input e.ip) = some p ∧ e.ip - p ≤ 8192 ∧
      AgreeAt input p e.ip 3 := by
  unfold Scan.candidate
  split
  · rename_i h
    simp [Option.filter_eq_some_iff, h]
  · rename_i h
    simp [h]

theorem longestMatch_eq_iff {p q len : Nat} (h : 1 ≤ len) : longestMatch input p q = len ↔
    len ≤ min (input.length - q) 264 ∧ AgreeAt input p q len ∧
      ∀ n, len < n → n ≤ min (input.length - q) 264 → ¬AgreeAt input p q n := by
  rw [longestMatch, Nat.findGreatest_eq_iff]
  simp [Nat.ne_of_gt h]

/-- An accepted candidate matches at least its three bytes (R158, R159). -/
theorem longestMatch_spec {p q : Nat} (hroom : q + 3 ≤ input.length) (h3 : AgreeAt input p q 3) :
    3 ≤ longestMatch input p q ∧ longestMatch input p q ≤ 264 ∧ q + longestMatch input p q ≤ input.length ∧
      AgreeAt input p q (longestMatch input p q) := by
  have hge : 3 ≤ longestMatch input p q := Nat.le_findGreatest (by rw [matchMax_eq]; omega) h3
  have hpos : 1 ≤ longestMatch input p q := Nat.le_trans (by decide) hge
  obtain ⟨hle, hagree, -⟩ := (longestMatch_eq_iff hpos).1 rfl
  exact ⟨hge, by omega, by omega, hagree⟩

theorem Scan.turn_spec (h : e.Ordered input) : ScanTurn input e (e.turn C input) := by
  have hshort := h.run_short
  unfold Scan.turn
  split
  · rename_i p hp
    obtain ⟨hroom, hslot, hnear, h3⟩ := candidate_eq_some_iff.1 hp
    obtain ⟨hge, hle, hin, hagree⟩ := longestMatch_spec hroom h3
    exact .matched _ p _ (h.below _ p hslot) hnear hge hle hin hagree
  · split
    · rename_i hfull
      exact .filled _ hfull
    · rename_i hnot
      exact .literal _ (by rw [litMax_eq] at hnot; omega)

/-- A table entered into lies below the positions entered. -/
theorem enterUpTo_below {p n j q : Nat} {table : Nat → Option Nat} (h : ∀ j q, table j = some q → q < p)
    (hq : enterUpTo C input p table n j = some q) : q < p + n := by
  induction n with
  | zero => exact h j q hq
  | succ n ih =>
    rw [enterUpTo] at hq
    split at hq
    · cases hq; omega
    · exact Nat.lt_succ_of_lt (ih hq)

theorem Scan.Ordered.moved (h : e.Ordered input) {n m ls : Nat} (hm : m ≤ n) (hin : e.ip + n ≤ input.length)
    (hle : ls ≤ e.ip + n) (hshort : e.ip + n ≤ ls + 31) : (e.moved C input n m ls).Ordered input :=
  ⟨hle, hshort, hin, fun _ _ hq => Nat.lt_of_lt_of_le (enterUpTo_below h.below hq) (Nat.add_le_add_left hm _)⟩

theorem entryCount_le {len : Nat} (u : HashUpdate) (h : 1 ≤ len) : entryCount len u ≤ len := by
  cases u with
  | all => exact Nat.le_refl _
  | start => exact h

theorem Scan.Ordered.turn (h : e.Ordered input) (hin : e.ip < input.length) : (e.turn C input).1.Ordered input := by
  have hle := h.run_le
  have hshort := h.run_short
  unfold Scan.turn
  split
  · rename_i p hp
    obtain ⟨hroom, -, -, h3⟩ := candidate_eq_some_iff.1 hp
    obtain ⟨hge, -, hin', -⟩ := longestMatch_spec hroom h3
    exact h.moved (entryCount_le _ (by omega)) hin' (Nat.le_refl _) (Nat.le_add_right _ _)
  · split
    · exact h.moved (Nat.le_refl _) hin (Nat.le_refl _) (Nat.le_add_right _ _)
    · rename_i hnot
      rw [litMax_eq] at hnot
      exact h.moved (Nat.le_refl _) hin (by omega) (by omega)

/-- What holds of the final flush and is passed back over each turn holds of all the tokens. -/
theorem Scan.tokens_induction {P : Scan → List Instr → Prop}
    (final : ∀ e, e.Ordered input → e.ip = input.length → P e (literalTokens (e.run input)))
    (turn : ∀ e r rest, e.Ordered input → e.ip < input.length → ScanTurn input e r → P r.1 rest → P e (r.2 ++ rest))
    (h : e.Ordered input) (hfuel : input.length - e.ip ≤ fuel) : P e (e.tokens C input fuel) := by
  induction fuel generalizing e with
  | zero =>
    have hend := Nat.le_antisymm h.inside (Nat.le_of_sub_eq_zero (Nat.le_zero.1 hfuel))
    exact tokens_end (C := C) hend 0 ▸ final e h hend
  | succ fuel ih =>
    by_cases hin : e.ip < input.length
    · have hspec := turn_spec (C := C) h
      have hmoves := hspec.moves
      rw [tokens_turn hin]
      exact turn e _ _ h hin hspec (ih (h.turn hin) (by omega))
    · have hend := Nat.le_antisymm h.inside (Nat.le_of_not_lt hin)
      rw [tokens_end hend]
      exact final e h hend

/-! ## What the tokens decode to -/

theorem runTokens_literalTokens (out data : List Byte) : runTokens out (literalTokens data) = some (out ++ data) := by
  rcases literalTokens_cases data with ⟨rfl, h⟩ | ⟨_, h⟩ <;> rw [h]
  · rw [List.append_nil]
    rfl
  · rw [runTokens_singleton, tokenOutput_lit]

/-- Copying from a place that agrees with the bytes ahead passes over these (R200). -/
theorem copyList_take {q n off : Nat} (hpos : 1 ≤ off) (hle : off ≤ q) (hin : q + n ≤ input.length)
    (hagree : AgreeAt input (q - off) q n) : copyList n off (input.take q) = input.take (q + n) := by
  induction n generalizing q with
  | zero => rfl
  | succ n ih =>
    have hq : q < input.length := by omega
    have hlen : (input.take q).length = q := List.length_take_of_le (Nat.le_of_lt hq)
    have hbyte : (input.take q).getD (q - off) 0 = input[q] := by
      have h0 := hagree 0 (Nat.succ_pos n)
      simp only [Nat.add_zero] at h0
      rw [List.getD_eq_getElem?_getD, List.getElem?_take_of_lt (by omega), ← List.getD_eq_getElem?_getD, h0,
        List.getD_eq_getElem _ _ hq]
    rw [copyList, hlen, hbyte, List.take_append_getElem hq, ih (by omega) (by omega) fun k hk => ?_]
    · congr 1; omega
    · have h := hagree (k + 1) (by omega)
      rwa [show q - off + (k + 1) = q + 1 - off + k by omega, show q + (k + 1) = q + 1 + k by omega] at h

/-- A turn's tokens decode to the input it emits (R168 c). -/
theorem ScanTurn.decodes (h : ScanTurn input e r) (he : e.Ordered input) :
    runTokens (input.take e.ls) r.2 = some (input.take r.1.ls) := by
  have hle := he.run_le
  cases h with
  | literal => rfl
  | filled table full =>
    rw [runTokens_singleton, tokenOutput_lit]
    exact congrArg some (Scan.take_append_run (e := ⟨e.ip + 1, e.ls, table⟩) (Nat.le_succ_of_le hle))
  | matched table p len below near len_ge len_le inside agree =>
    have hp : e.ip - (e.ip - p) = p := Nat.sub_sub_self (Nat.le_of_lt below)
    have hback : e.ip - p ≤ (input.take e.ip).length := by
      rw [List.length_take_of_le he.inside]
      exact Nat.sub_le _ _
    rw [runTokens_append, runTokens_literalTokens, Scan.take_append_run hle, Option.bind_some, runTokens_singleton,
      tokenOutput_backRef (refToken_backRef len_ge _) hback,
      copyList_take (by omega) (Nat.sub_le _ _) inside (hp.symm ▸ agree)]

theorem Scan.tokens_decode (h : e.Ordered input) (hfuel : input.length - e.ip ≤ fuel) :
    runTokens (input.take e.ls) (e.tokens C input fuel) = some input := by
  refine tokens_induction (P := fun e tokens => runTokens (input.take e.ls) tokens = some input)
    (fun e he hend => ?_) (fun e r rest he _ hturn hrest => ?_) h hfuel
  · rw [runTokens_literalTokens, take_append_run he.run_le, hend, List.take_length]
  · rw [runTokens_append, hturn.decodes he, Option.bind_some, hrest]

/-- The tokens of an input decode to it (R176). -/
theorem encoderTokens_decode (C : Config) (input : List Byte) : runTokens [] (encoderTokens C input) = some input :=
  Scan.tokens_decode (.initial input) (Nat.le_refl _)

/-! ## The form of the tokens -/

theorem literalTokens_encodable (h : data.length ≤ 32) : Encodable (literalTokens data) := by
  rcases literalTokens_cases data with ⟨_, hl⟩ | ⟨hpos, hl⟩ <;> rw [hl]
  · exact nofun
  · exact encodable_cons.2 ⟨⟨by simp [Instr.wellFormed, literalOk, hpos, h], rfl⟩, nofun⟩

theorem Scan.Ordered.run_encodable (h : e.Ordered input) : Encodable (literalTokens (e.run input)) := by
  have hshort := h.run_short
  exact literalTokens_encodable (by rw [h.run_length]; omega)

/-- The run that a turn fills has 32 bytes (R161). -/
theorem Scan.filled_length {table : Nat → Option Nat} (hin : e.ip < input.length) (full : e.ip + 1 = e.ls + 32) :
    (Scan.run input ⟨e.ip + 1, e.ls, table⟩).length = 32 := by
  rw [Scan.run, List.length_take, List.length_drop]
  simp only
  omega

theorem ScanTurn.encodable (h : ScanTurn input e r) (he : e.Ordered input) (hin : e.ip < input.length) :
    Encodable r.2 := by
  cases h with
  | literal => exact nofun
  | filled table full =>
    have hlen := Scan.filled_length (table := table) hin full
    rw [← literalTokens_of_pos (by omega)]
    exact literalTokens_encodable (Nat.le_of_eq hlen)
  | matched table p len below near len_ge len_le =>
    exact encodable_append.2 ⟨he.run_encodable,
      encodable_cons.2 ⟨refToken_encodable len_ge len_le (by omega) near, nofun⟩⟩

theorem Scan.tokens_encodable (h : e.Ordered input) (hfuel : input.length - e.ip ≤ fuel) :
    Encodable (e.tokens C input fuel) :=
  tokens_induction (P := fun _ tokens => Encodable tokens) (fun _ he _ => he.run_encodable)
    (fun _ _ _ he hin hturn hrest => encodable_append.2 ⟨hturn.encodable he hin, hrest⟩) h hfuel

theorem encoderTokens_encodable (C : Config) (input : List Byte) : Encodable (encoderTokens C input) :=
  Scan.tokens_encodable (.initial input) (Nat.le_refl _)

/-- A LIT before another LIT is full (R180). -/
def FullBeforeLit (i i' : Instr) : Prop := ∀ d d', i = .lit d → i' = .lit d' → d.length = 32

theorem literalTokens_isChain (data : List Byte) : (literalTokens data).IsChain FullBeforeLit := by
  rcases literalTokens_cases data with ⟨_, h⟩ | ⟨_, h⟩ <;> rw [h]
  · exact .nil
  · exact .singleton _

/-- A turn's tokens leave no short LIT open: whatever follows keeps the shape. -/
theorem ScanTurn.isChain_append {rest : List Instr} (h : ScanTurn input e r) (hin : e.ip < input.length)
    (hrest : rest.IsChain FullBeforeLit) : (r.2 ++ rest).IsChain FullBeforeLit := by
  cases h with
  | literal => exact hrest
  | filled table full =>
    refine List.isChain_append.2 ⟨.singleton _, hrest, fun x hx y _ d d' hd _ => ?_⟩
    cases hx
    cases hd
    exact Scan.filled_length hin full
  | matched table p len below near len_ge =>
    have hnot : ∀ d, refToken len (e.ip - p) ≠ .lit d := fun d hd => by
      have href := refToken_backRef len_ge (e.ip - p)
      rw [hd] at href
      cases href
    rw [List.append_assoc, List.singleton_append]
    refine List.isChain_append.2 ⟨literalTokens_isChain _, List.isChain_cons.2 ⟨?_, hrest⟩, ?_⟩
    · exact fun y _ d _ hd => absurd hd (hnot d)
    · intro x _ y hy d d' _ hd'
      cases hy
      exact absurd hd' (hnot d')

theorem encoderTokens_isChain (C : Config) (input : List Byte) : (encoderTokens C input).IsChain FullBeforeLit :=
  Scan.tokens_induction (P := fun _ tokens => tokens.IsChain FullBeforeLit) (fun _ _ _ => literalTokens_isChain _)
    (fun _ _ _ _ hin hturn hrest => hturn.isChain_append hin hrest) (.initial input) (Nat.le_refl _)

/-! ## The size of the stream -/

/-- The most bytes a stream of whole tokens for `n` input bytes has where no short LIT stands open: one byte more for
each full run (R178). -/
def closedBound (n : Nat) : Nat := n + n / 32

theorem streamOf_literalTokens_length_le (data : List Byte) :
    (streamOf (literalTokens data)).length ≤ data.length + (data.length + 31) / 32 := by
  rcases literalTokens_cases data with ⟨rfl, h⟩ | ⟨hpos, h⟩ <;> rw [h]
  · exact Nat.zero_le _
  · rw [streamOf_cons, streamOf_nil, List.append_nil]
    change data.length + 1 ≤ _
    omega

/-- A back-reference is shorter than the bytes it stands for (R99, R105). -/
theorem refToken_bytes_length {len : Nat} (h : 3 ≤ len) (off : Nat) : (refToken len off).bytes.length + 1 ≤ len := by
  rw [bytes_of_backRef (refToken_backRef h off), encRef_length, refSize, shortMax_eq]
  split <;> omega

/-- A turn writes no more than the bound grows by: a match makes up for the control byte of the run before it. -/
theorem ScanTurn.size_le (h : ScanTurn input e r) (he : e.Ordered input) (hin : e.ip < input.length) :
    closedBound e.ls + (streamOf r.2).length ≤ closedBound r.1.ls := by
  have hle := he.run_le
  have hshort := he.run_short
  unfold closedBound
  cases h with
  | literal => exact Nat.le_refl _
  | filled table full =>
    have hlen := Scan.filled_length (table := table) hin full
    rw [streamOf_cons, streamOf_nil, List.append_nil]
    change e.ls + e.ls / 32 + ((Scan.run input ⟨e.ip + 1, e.ls, table⟩).length + 1) ≤ _
    simp only
    omega
  | matched table p len below near len_ge =>
    have hlit := streamOf_literalTokens_length_le (e.run input)
    have href := refToken_bytes_length len_ge (e.ip - p)
    rw [he.run_length] at hlit
    simp only [streamOf_append, streamOf_cons, streamOf_nil, List.append_nil, List.length_append]
    omega

theorem Scan.tokens_size_le (h : e.Ordered input) (hfuel : input.length - e.ip ≤ fuel) :
    closedBound e.ls + (streamOf (e.tokens C input fuel)).length ≤ input.length + (input.length + 31) / 32 := by
  refine tokens_induction (P := fun e tokens =>
    closedBound e.ls + (streamOf tokens).length ≤ input.length + (input.length + 31) / 32)
    (fun e he hend => ?_) (fun e r rest he hin hturn hrest => ?_) h hfuel
  · have hle := he.run_le
    have hlit := streamOf_literalTokens_length_le (e.run input)
    rw [he.run_length] at hlit
    unfold closedBound
    omega
  · have hsize := hturn.size_le he hin
    rw [streamOf_append, List.length_append]
    omega

/-- The stream of `n` bytes has at most `n + ceil(n/32)` (R178). -/
theorem encoderTokens_size_le (C : Config) (input : List Byte) :
    (streamOf (encoderTokens C input)).length ≤ input.length + (input.length + 31) / 32 := by
  have h := Scan.tokens_size_le (C := C) (.initial input) (Nat.le_refl input.length)
  change closedBound 0 + _ ≤ _ at h
  exact Nat.le_trans (Nat.le_add_left _ _) h

/-- The stream of a non-empty input has a token, and so two bytes (R178). -/
theorem two_le_encoderTokens_size (C : Config) (h : input ≠ []) : 2 ≤ (streamOf (encoderTokens C input)).length := by
  have henc := encoderTokens_encodable C input
  have hdec := encoderTokens_decode C input
  cases htok : encoderTokens C input with
  | nil =>
    rw [htok] at hdec
    cases hdec
    exact absurd rfl h
  | cons i rest =>
    rw [htok] at henc
    obtain ⟨⟨hw, ht⟩, -⟩ := encodable_cons.1 henc
    have := two_le_bytes_length hw ht
    rw [streamOf_cons, List.length_append]
    omega

end Sys2Proof.Machine
end

section
/-! SUPPORT. The turns of COMPRESS without a match: a byte passed into the pending run, a full run flushed, and the end of
the input (R155 to R164). -/

namespace Sys2Proof.Machine

open Sys2Proof

variable {C : Config} {s : State} {x : Flow}

theorem exec_compress_busy (hb : s.phase = .busy) (hc : s.op.cmd = .compress) :
    exec .compress s = (encoderTurn hardware s).outcome := by
  rw [exec_eq_execWith, execWith_compress_busy hardware hb hc]

/-- What a turn without a match does to `CAND` and `HT` (R155 to R157). -/
structure Probed (C : Config) (s : State) (cand : Option Nat) (ht : List (Nat × Nat)) : Prop where
  look : s.ip + 3 ≤ s.op.inLen.toNat → cand = slot s.ht (s.hashOf C s.ip) ∧
    ∀ j, slot ht j = if j = s.hashOf C s.ip then some s.ip else slot s.ht j
  noLook : s.op.inLen.toNat < s.ip + 3 → cand = s.cand ∧ ht = s.ht

/-- A turn without a match, in a run that stays short, passes a byte into it (R161). -/
theorem EncoderTurn.of_literal (h : EncoderTurn C s x) (hin : s.ip < s.op.inLen.toNat) (hnone : ∀ p, ¬s.Accepted C p)
    (hll : s.ll < 31) : ∃ cand ht, Probed C s cand ht ∧
      x = .go { s with ip := s.ip + 1, ll := s.ll + 1, cand := cand, ht := ht } := by
  cases h with
  | literal cand ht inside none room entered all look noLook =>
    exact ⟨cand, ht, ⟨fun hroom => ⟨look hroom, all.slot_one hroom⟩, noLook⟩, rfl⟩
  | filled cand ht inside none full => omega
  | matched p len ht found => exact absurd found.accepted (hnone p)
  | ended atEnd => omega
  | short u same rising wf mem why =>
    rcases why with ⟨_, _, full, _⟩ | ⟨p, len, found, _⟩ | ⟨atEnd, _⟩
    · omega
    · exact absurd found.accepted (hnone p)
    · omega

/-- A turn without a match that makes the run full flushes it, or ends with ESIZE (R161 to R163). -/
theorem EncoderTurn.of_full (h : EncoderTurn C s x) (hin : s.ip < s.op.inLen.toNat) (hnone : ∀ p, ¬s.Accepted C p)
    (hll : s.ll = 31) :
    (s.wp + 33 ≤ s.op.outCap.toNat ∧ ∃ cand ht, Probed C s cand ht ∧ x = .go { s with
        ip := s.ip + 1, ll := 0, ls := s.ip + 1, wp := s.wp + 33, cb := 0x1F#8
        mem := s.mem.writeAll (s.op.outBase + s.wp) (fullToken s), cand := cand, ht := ht }) ∨
    (s.op.outCap.toNat < s.wp + 33 ∧ ∃ u : State, u.op = s.op ∧
      unchangedOutside s.op.outBase s.op.outCap.toNat s.mem u.mem ∧ x = .ended (raise .esize u)) := by
  cases h with
  | literal cand ht inside none room => omega
  | filled cand ht inside none full entered all look noLook fits =>
    exact .inl ⟨fits, cand, ht, ⟨fun hroom => ⟨look hroom, all.slot_one hroom⟩, noLook⟩, rfl⟩
  | matched p len ht found => exact absurd found.accepted (hnone p)
  | ended atEnd => omega
  | short u same rising wf mem why =>
    rcases why with ⟨_, _, _, big⟩ | ⟨p, len, found, _⟩ | ⟨atEnd, _⟩
    · exact .inr ⟨big, u, same.1, mem, rfl⟩
    · exact absurd found.accepted (hnone p)
    · omega

/-- At the end of the input the pending run is flushed and the command ends, with OK or ESIZE (R164). -/
theorem EncoderTurn.of_end (h : EncoderTurn C s x) (hend : s.ip = s.op.inLen.toNat) :
    (s.wp + s.pendingToken.length ≤ s.op.outCap.toNat ∧ x = .ended (finish (s.wp + s.pendingToken.length) { s with
        cb := s.pendingToken.headD s.cb, mem := s.mem.writeAll (s.op.outBase + s.wp) s.pendingToken
        wp := s.wp + s.pendingToken.length, ll := 0, ls := s.ip })) ∨
    (s.op.outCap.toNat < s.wp + s.pendingToken.length ∧ ∃ u : State, u.op = s.op ∧
      unchangedOutside s.op.outBase s.op.outCap.toNat s.mem u.mem ∧ x = .ended (raise .esize u)) := by
  have hnoMatch : ∀ p len, ¬Matched C s p len := fun p len found => by
    have := found.inside
    have := found.len_ge
    omega
  cases h with
  | literal cand ht inside => omega
  | filled cand ht inside => omega
  | matched p len ht found => exact absurd found (hnoMatch p len)
  | ended _ fits => exact .inl ⟨fits, rfl⟩
  | short u same rising wf mem why =>
    rcases why with ⟨inside, _⟩ | ⟨p, len, found, _⟩ | ⟨_, big⟩
    · omega
    · exact absurd found (hnoMatch p len)
    · exact .inr ⟨big, u, same.1, mem, rfl⟩

/-- Settles O25: the one case of a turn with these hypotheses. -/
theorem compressPassesALiteral : Obligations.CompressPassesALiteral := by
  intro s hr hb hc hin hnone hll
  obtain ⟨cand, ht, hprobed, hx⟩ := (encoderTurn_spec hardware hr hb hc).of_literal hin hnone hll
  rw [exec_compress_busy hb hc, hx]
  exact ⟨_, rfl, rfl, hprobed.look, hprobed.noLook⟩

/-- Settles O26: the two cases of a turn that makes the run full. -/
theorem compressFlushesAFullRun : Obligations.CompressFlushesAFullRun := by
  intro s hr hb hc hin hnone hll
  rw [exec_compress_busy hb hc]
  rcases (encoderTurn_spec hardware hr hb hc).of_full hin hnone hll with
    ⟨fits, cand, ht, hprobed, hx⟩ | ⟨big, u, hop, hmem, hx⟩ <;> rw [hx]
  · refine ⟨fun _ => ⟨_, rfl, rfl, hprobed.look, hprobed.noLook, ?_, ?_⟩, fun hbig => absurd fits (Nat.not_le.2 hbig)⟩
    · rw [← fullToken_eq hll]
      exact holdsAt_writeAll _ _ _
    · rw [← fullToken_length hll]
      exact unchangedOutside_writeAll _ _ _
  · exact ⟨fun hfits => absurd big (Nat.not_lt.2 hfits), fun _ =>
      ⟨_, rfl, rfl, raise_esize_endsBad (hop ▸ hc), unchangedOutside_raise .esize hop hmem⟩⟩

/-- Settles O28: the two cases of the last turn. -/
theorem compressEndsTheStream : Obligations.CompressEndsTheStream := by
  intro s hr hb hc hend
  rw [exec_compress_busy hb hc]
  rcases (encoderTurn_spec hardware hr hb hc).of_end hend with ⟨fits, hx⟩ | ⟨big, u, hop, hmem, hx⟩ <;> rw [hx]
  · exact ⟨fun _ => ⟨_, rfl, rfl, holdsAt_writeAll _ _ _, unchangedOutside_writeAll _ _ _⟩,
      fun hbig => absurd fits (Nat.not_le.2 hbig)⟩
  · exact ⟨fun hfits => absurd big (Nat.not_lt.2 hfits), fun _ =>
      ⟨_, rfl, rfl, raise_esize_endsBad (hop ▸ hc), unchangedOutside_raise .esize hop hmem⟩⟩

end Sys2Proof.Machine
end

section
/-! SUPPORT. COMPRESS runs the reference encoder (R150 to R168): a turn of the engine writes the tokens of the encoder's
turn where they fit, and ends the command with ESIZE where they do not. So the encoder's stream, which knows no
capacity, decides how COMPRESS ends. -/

namespace Sys2Proof.Machine

open Sys2Proof

variable {C : Config} {s t u : State} {bytes : List Byte} {x : Flow} {fuel : Nat}

/-! ## The bytes of the two regions -/

@[simp] theorem inputOf_length (r : Operands) (m : Memory) : (inputOf r m).length = r.inLen.toNat := by simp [inputOf]

@[simp] theorem outputSoFar_length (s : State) : s.outputSoFar.length = s.wp := by
  simp [State.outputSoFar, outputOf]

/-- The input of a command. -/
def State.input (s : State) : List Byte := inputOf s.op s.mem

@[simp] theorem State.input_length (s : State) : s.input.length = s.op.inLen.toNat := inputOf_length _ _

theorem State.input_getD {q : Nat} (h : q < s.op.inLen.toNat) : s.input.getD q 0 = s.inByte q := by
  simp [State.input, inputOf, State.inByte, List.getD_eq_getElem?_getD, h]

/-- The bytes read from the input are a part of it. -/
theorem inputBytes_eq {q n : Nat} (h : q + n ≤ s.op.inLen.toNat) : s.inputBytes q n = (s.input.drop q).take n := by
  refine List.ext_getElem (by simp; omega) fun k hk _ => ?_
  have hk' : k < n := by simpa using hk
  simp [State.inputBytes, State.input, inputOf]

/-- Bytes laid out behind the output are appended to it. -/
theorem outputOf_writeAll (r : Operands) (m : Memory) (n : Nat) (bytes : List Byte) :
    outputOf r (m.writeAll (r.outBase + n) bytes) (n + bytes.length) = outputOf r m n ++ bytes := by
  refine List.ext_getElem (by simp [outputOf]) fun k hk _ => ?_
  have hk' : k < n + bytes.length := by simpa [outputOf] using hk
  simp only [outputOf, List.getElem_map, List.getElem_range, Memory.read_writeAll, List.getElem_append, List.length_map,
    List.length_range]
  by_cases hlt : k < n
  · rw [if_neg (by omega), dif_pos hlt]
  · rw [if_pos (by omega), dif_neg hlt, List.getD_eq_getElem _ _ (by omega)]
    congr 1
    omega

/-- `t` is `s` with `bytes` written behind the output. -/
structure Appends (bytes : List Byte) (s t : State) : Prop where
  op : t.op = s.op
  mem : t.mem = s.mem.writeAll (s.op.outBase + s.wp) bytes
  wp : t.wp = s.wp + bytes.length
  fits : s.wp + bytes.length ≤ s.op.outCap.toNat

theorem Appends.outputSoFar (h : Appends bytes s t) : t.outputSoFar = s.outputSoFar ++ bytes := by
  rw [State.outputSoFar, h.op, h.mem, h.wp]
  exact outputOf_writeAll _ _ _ _

/-- Output leaves the input as it is (R64, R79). -/
theorem Appends.input (h : Appends bytes s t) (hr : s.RunInv) (hb : s.phase = .busy) : t.input = s.input := by
  rw [State.input, h.op, h.mem]
  exact inputOf_eq_of_unchangedOutside (hr.apart hb) (unchangedOutside_writeAll_within _ h.fits)

/-! ## The engine as the encoder sees it -/

/-- Where the encoder stands in a running COMPRESS. -/
def State.scan (s : State) : Scan := ⟨s.ip, s.ls, slot s.ht⟩

theorem State.RunInv.scan_ordered (hr : s.RunInv) (hb : s.phase = .busy) (hc : s.op.cmd = .compress) :
    s.scan.Ordered s.input := by
  obtain ⟨hsum, hll⟩ := hr.literalRun hb hc
  refine ⟨?_, ?_, by rw [State.input_length]; exact hr.cursor hb, fun j p hp => (hr.table hb hc _ (slot_mem hp)).1⟩
  · change s.ls ≤ s.ip; omega
  · change s.ip ≤ s.ls + 31; omega

theorem scan_run (hr : s.RunInv) (hb : s.phase = .busy) (hc : s.op.cmd = .compress) :
    s.scan.run s.input = s.inputBytes s.ls s.ll := by
  obtain ⟨hsum, hll⟩ := hr.literalRun hb hc
  have hcursor := hr.cursor hb
  rw [inputBytes_eq (by omega), Scan.run]
  congr 1
  change s.ip - s.ls = s.ll
  omega

theorem streamOf_lit (data : List Byte) : streamOf [.lit data] = encLit data.length :: data := by
  rw [streamOf_cons, streamOf_nil, List.append_nil]
  rfl

/-- The pending token of the engine is that of the encoder (R163). -/
theorem pendingToken_eq (hr : s.RunInv) (hb : s.phase = .busy) (hc : s.op.cmd = .compress) :
    s.pendingToken = streamOf (literalTokens (s.scan.run s.input)) := by
  rw [scan_run hr hb hc, State.pendingToken]
  by_cases hll : s.ll = 0
  · simp [literalTokens, hll]
  · rw [if_neg hll, literalTokens_of_pos (by simpa using hll), streamOf_lit, inputBytes_length, encLit]

theorem hashOf_eq {q : Nat} (h : q + 3 ≤ s.op.inLen.toNat) : s.hashOf C q = tripleSlot C s.input q := by
  rw [State.hashOf, tripleSlot, State.input_getD (by omega), State.input_getD (by omega), State.input_getD (by omega)]

theorem agreeAt_iff {p q n : Nat} (hp : p + n ≤ s.op.inLen.toNat) (hq : q + n ≤ s.op.inLen.toNat) :
    AgreeAt s.input p q n ↔ ∀ k < n, s.inByte (p + k) = s.inByte (q + k) := by
  refine forall₂_congr fun k hk => ?_
  rw [State.input_getD (by omega), State.input_getD (by omega)]

/-- The encoder accepts the candidate that the engine accepts (R155 to R158). -/
theorem candidate_eq_some_iff_accepted (hr : s.RunInv) (hb : s.phase = .busy) (hc : s.op.cmd = .compress) {p : Nat} :
    s.scan.candidate C s.input = some p ↔ s.Accepted C p := by
  rw [Scan.candidate_eq_some_iff, State.input_length, State.Accepted]
  refine and_congr_right fun (hroom : s.ip + 3 ≤ s.op.inLen.toNat) => ?_
  rw [hashOf_eq hroom]
  refine and_congr_right fun hslot => and_congr_right fun _ => ?_
  exact agreeAt_iff (hr.table hb hc _ (slot_mem hslot)).2 hroom

theorem candidate_eq_none (hr : s.RunInv) (hb : s.phase = .busy) (hc : s.op.cmd = .compress)
    (h : ∀ p, ¬s.Accepted C p) : s.scan.candidate C s.input = none :=
  Option.eq_none_iff_forall_ne_some.2 fun p hp => h p ((candidate_eq_some_iff_accepted hr hb hc).1 hp)

/-- The engine commits the longest match (R159). -/
theorem Matched.longestMatch {p len : Nat} (h : Matched C s p len) : longestMatch s.input p s.ip = len := by
  obtain ⟨-, below, len_ge, len_le, inside, agree, maximal⟩ := h
  refine (longestMatch_eq_iff (by omega)).2 ⟨by rw [State.input_length]; omega,
    (agreeAt_iff (by omega) inside).2 agree, fun n hn hmax hagree => ?_⟩
  rw [State.input_length] at hmax
  have hnext := (agreeAt_iff (s := s) (by omega) (by omega)).1 hagree len hn
  rcases maximal with h | h | h
  · omega
  · omega
  · exact h hnext

/-- The engine's table after a turn is the encoder's (R157, R167). -/
theorem EnteredAll.slot_eq {n m j : Nat} {ht : List (Nat × Nat)} (h : EnteredAll C s n ht) (hm : m ≤ n)
    (hlater : ∀ q, s.ip + m ≤ q → q < s.ip + n → q + 3 ≤ s.op.inLen.toNat → s.hashOf C q ≠ j) :
    slot ht j = enterUpTo C s.input s.ip (slot s.ht) m j := by
  induction m with
  | zero => exact h.rest j hlater
  | succ m ih =>
    rw [enterUpTo, State.input_length]
    split
    · rename_i hhit
      obtain ⟨hroom, hslot⟩ := hhit
      have hj : s.hashOf C (s.ip + m) = j := (hashOf_eq hroom).trans hslot
      rw [← hj]
      exact h.last _ (Nat.le_add_right _ _) (by omega) hroom fun q hq hq' hroom' =>
        hj ▸ hlater q (by omega) hq' hroom'
    · rename_i hmiss
      refine ih (by omega) fun q hq hq' hroom hj => ?_
      by_cases hqm : q = s.ip + m
      · subst hqm
        exact hmiss ⟨hroom, (hashOf_eq hroom).symm.trans hj⟩
      · exact hlater q (by omega) hq' hroom hj

theorem EnteredAll.slots {n : Nat} {ht : List (Nat × Nat)} (h : EnteredAll C s n ht) :
    slot ht = enterUpTo C s.input s.ip (slot s.ht) n :=
  funext fun _ => h.slot_eq (Nat.le_refl n) fun _ _ _ => by omega

/-! ## A turn -/

/-- What a turn of COMPRESS comes to, by the encoder's turn: its tokens written, or ESIZE. -/
inductive Follows (s : State) (e : Scan × List Instr) : Flow → Prop
  | written (t : State) (phase : t.phase = s.phase) (scan : t.scan = e.1) (appends : Appends (streamOf e.2) s t) :
      Follows s e (.go t)
  | short (u : State) (op : u.op = s.op) (big : s.op.outCap.toNat < s.wp + (streamOf e.2).length) :
      Follows s e (.ended (raise .esize u))

theorem turn_matched {p len : Nat} (hr : s.RunInv) (hb : s.phase = .busy) (hc : s.op.cmd = .compress)
    (h : Matched C s p len) : s.scan.turn C s.input =
      (s.scan.moved C s.input len (entryCount len C.hupd) (s.ip + len),
        literalTokens (s.scan.run s.input) ++ [refToken len (s.ip - p)]) := by
  have hlong : longestMatch s.input p s.scan.ip = len := h.longestMatch
  rw [Scan.turn, (candidate_eq_some_iff_accepted hr hb hc).2 h.accepted]
  simp only [hlong]
  rfl

theorem streamOf_matched {p len : Nat} (hr : s.RunInv) (hb : s.phase = .busy) (hc : s.op.cmd = .compress)
    (h : Matched C s p len) :
    streamOf (literalTokens (s.scan.run s.input) ++ [refToken len (s.ip - p)]) = matchTokens s p len := by
  rw [streamOf_append, ← pendingToken_eq hr hb hc, streamOf_cons, streamOf_nil, List.append_nil,
    bytes_of_backRef (refToken_backRef h.len_ge _), matchTokens]

theorem turn_literal (hr : s.RunInv) (hb : s.phase = .busy) (hc : s.op.cmd = .compress) (h : ∀ p, ¬s.Accepted C p)
    (hll : s.ll < 31) : s.scan.turn C s.input = (s.scan.moved C s.input 1 1 s.ls, []) := by
  have hrun := (hr.literalRun hb hc).1
  rw [Scan.turn, candidate_eq_none hr hb hc h]
  exact if_neg (by change s.ip + 1 ≠ s.ls + 32; omega)

theorem turn_filled (hr : s.RunInv) (hb : s.phase = .busy) (hc : s.op.cmd = .compress) (h : ∀ p, ¬s.Accepted C p)
    (hll : s.ll = 31) (hin : s.ip < s.op.inLen.toNat) :
    s.scan.turn C s.input = (s.scan.moved C s.input 1 1 (s.ip + 1), [.lit (s.inputBytes s.ls 32)]) := by
  have hrun := (hr.literalRun hb hc).1
  have hfull : s.inputBytes s.ls 32 = (s.scan.moved C s.input 1 1 s.ls).run s.input := by
    rw [inputBytes_eq (by omega), Scan.run]
    congr 1
    change 32 = s.ip + 1 - s.ls
    omega
  rw [Scan.turn, candidate_eq_none hr hb hc h, hfull]
  exact if_pos (by change s.ip + 1 = s.ls + 32; omega)

theorem streamOf_filled (hll : s.ll = 31) : streamOf [.lit (s.inputBytes s.ls 32)] = fullToken s := by
  rw [streamOf_lit, inputBytes_length, fullToken_eq hll]
  rfl

/-- A turn of COMPRESS follows the encoder's (R153). -/
theorem EncoderTurn.follows (h : EncoderTurn C s x) (hr : s.RunInv) (hb : s.phase = .busy) (hc : s.op.cmd = .compress)
    (hin : s.ip < s.op.inLen.toNat) : Follows s (s.scan.turn C s.input) x := by
  cases h with
  | literal cand ht inside none room entered all =>
    rw [turn_literal hr hb hc none room]
    exact .written _ rfl (by rw [State.scan, all.slots]; rfl) ⟨rfl, rfl, rfl, hr.wpCap hb (.inl hc)⟩
  | filled cand ht inside none full entered all look noLook fits =>
    have hlen := fullToken_length full
    rw [turn_filled hr hb hc none full inside]
    refine .written _ rfl (by rw [State.scan, all.slots]; rfl) ?_
    rw [streamOf_filled full]
    exact ⟨rfl, rfl, by rw [hlen], by rwa [hlen]⟩
  | matched p len ht found entered all start fits =>
    rw [turn_matched hr hb hc found]
    refine .written _ rfl ?_ ?_
    · have hslots : EnteredAll C s (entryCount len C.hupd) ht := by
        cases hu : C.hupd with
        | all => exact all hu
        | start => exact start hu
      rw [State.scan, hslots.slots]
      rfl
    · rw [streamOf_matched hr hb hc found]
      exact ⟨rfl, rfl, rfl, fits⟩
  | ended atEnd => omega
  | short u same rising wf mem why =>
    refine .short u same.1 ?_
    rcases why with ⟨inside, none, full, big⟩ | ⟨p, len, found, big⟩ | ⟨atEnd, _⟩
    · rwa [turn_filled hr hb hc none full inside, streamOf_filled full, fullToken_length full]
    · rwa [turn_matched hr hb hc found, streamOf_matched hr hb hc found]
    · omega

/-- The end of COMPRESS follows the encoder's final flush (R164). -/
theorem EncoderTurn.follows_end (h : EncoderTurn C s x) (hr : s.RunInv) (hb : s.phase = .busy)
    (hc : s.op.cmd = .compress) (hend : s.ip = s.op.inLen.toNat) :
    (∃ t, x = .ended (finish t.wp t) ∧ Appends (streamOf (literalTokens (s.scan.run s.input))) s t) ∨
    (s.op.outCap.toNat < s.wp + (streamOf (literalTokens (s.scan.run s.input))).length ∧
      ∃ u : State, u.op = s.op ∧ x = .ended (raise .esize u)) := by
  rw [← pendingToken_eq hr hb hc]
  rcases h.of_end hend with ⟨fits, hx⟩ | ⟨big, u, hop, -, hx⟩
  · exact .inl ⟨_, hx, rfl, rfl, rfl, fits⟩
  · exact .inr ⟨big, u, hop, hx⟩

end Sys2Proof.Machine
end

section
/-! SUPPORT. What COMPRESS leaves: its output decodes at every step (R168 c), and the encoder's stream says how a whole
command ends at any capacity (R177, R178, R180). -/

namespace Sys2Proof.Machine

open Sys2Proof

variable {C : Config} {r : Operands} {s t : State} {stream : List Byte} {x : Flow} {fuel n : Nat}

/-! ## The output decodes at every step -/

/-- The output claims nothing of an engine that runs no COMPRESS. -/
theorem State.StreamInv.of_not_compressing (h : t.phase ≠ .busy ∨ t.op.cmd ≠ .compress) : t.StreamInv :=
  fun hb hc => h.elim (absurd hb) (absurd hc)

/-- Tokens that decode to a next piece of the input extend an output that decodes to the pieces before it. -/
theorem Appends.decodes {tokens : List Instr} {out out' : List Byte} (h : Appends (streamOf tokens) s t)
    (henc : Encodable tokens) (hdec : runTokens out tokens = some out')
    (hs : ∃ before, parse s.outputSoFar = some before ∧ runTokens [] before = some out) :
    ∃ after, parse t.outputSoFar = some after ∧ runTokens [] after = some out' := by
  obtain ⟨before, hparse, hout⟩ := hs
  obtain ⟨hbefore, hbytes⟩ := parse_eq_some_iff.1 hparse
  refine ⟨before ++ tokens, parse_eq_some_iff.2 ⟨encodable_append.2 ⟨hbefore, henc⟩, ?_⟩, ?_⟩
  · rw [streamOf_append, hbytes, h.outputSoFar]
  · rw [runTokens_append, hout, Option.bind_some, hdec]

/-- A turn of COMPRESS keeps the output decodable. -/
theorem Follows.streamInv (h : Follows s (s.scan.turn C s.input) x) (hx : x.outcome = .next t) (hr : s.RunInv)
    (hi : s.StreamInv) (hb : s.phase = .busy) (hc : s.op.cmd = .compress) (hin : s.ip < s.op.inLen.toNat) :
    t.StreamInv := by
  have hordered := hr.scan_ordered hb hc
  have hin' : s.scan.ip < s.input.length := by rwa [State.input_length]
  have hspec := Scan.turn_spec (C := C) hordered
  generalize s.scan.turn C s.input = e at h hspec
  cases h with
  | short => cases hx; exact .of_not_compressing (.inl (by simp))
  | written _ _ scan appends =>
    cases hx
    intro _ _
    change ∃ tokens, _ ∧ runTokens [] tokens = some (t.input.take t.scan.ls)
    rw [appends.input hr hb, scan]
    exact appends.decodes (hspec.encodable hordered hin') (hspec.decodes hordered) (hi hb hc)

/-- At the end of the input the final flush leaves an output that decodes to it (R164). -/
theorem Appends.decodes_input (h : Appends (streamOf (literalTokens (s.scan.run s.input))) s t) (hr : s.RunInv)
    (hi : s.StreamInv) (hb : s.phase = .busy) (hc : s.op.cmd = .compress) (hend : s.ip = s.op.inLen.toNat) :
    ∃ tokens, parse t.outputSoFar = some tokens ∧ runTokens [] tokens = some s.input := by
  have hordered := hr.scan_ordered hb hc
  refine h.decodes hordered.run_encodable ?_ (hi hb hc)
  have hall : s.scan.ip = s.input.length := by rwa [State.input_length]
  have hsplit := Scan.take_append_run (input := s.input) hordered.run_le
  rw [hall, List.take_length] at hsplit
  rw [runTokens_literalTokens]
  exact congrArg some hsplit

theorem compress_streamInv (hr : s.RunInv) (hi : s.StreamInv) (hb : s.phase = .busy) (hc : s.op.cmd = .compress)
    (h : (encoderTurn C s).outcome = .next t) :
    t.StreamInv ∧ (t.phase = .done → t.status = okCode →
      ∃ tokens, parse t.outputSoFar = some tokens ∧ runTokens [] tokens = some s.input) := by
  have hturn := encoderTurn_spec C hr hb hc
  by_cases hin : s.ip < s.op.inLen.toNat
  · have hfollows := hturn.follows hr hb hc hin
    refine ⟨hfollows.streamInv h hr hi hb hc hin, fun hdone hok => ?_⟩
    generalize encoderTurn C s = x at h hturn
    cases hturn with
    | literal | filled | matched => cases h; exact absurd (hb.symm.trans hdone) (by decide)
    | ended atEnd => omega
    | short => cases h; exact absurd hok (Failure.code_ne_okCode .esize)
  · have hend : s.ip = s.op.inLen.toNat := Nat.le_antisymm (hr.cursor hb) (Nat.le_of_not_lt hin)
    rcases hturn.follows_end hr hb hc hend with ⟨u, hx, happ⟩ | ⟨_, u, _, hx⟩ <;> rw [hx] at h <;> cases h
    · exact ⟨.of_not_compressing (.inl (by simp)), fun _ _ => happ.decodes_input hr hi hb hc hend⟩
    · exact ⟨.of_not_compressing (.inl (by simp)), fun _ hok => absurd hok (Failure.code_ne_okCode .esize)⟩

/-- Settles O37: a turn of COMPRESS appends tokens that decode to what it emits; at its issue there is no output. -/
theorem encoderOutputAlwaysDecodes : Obligations.EncoderOutputAlwaysDecodes := by
  intro C s t hr hi h
  have hstep := stepWith_next h
  cases hstep with
  | rest notBusy _ same => subst same; exact ⟨hi, fun hb => absurd hb notBusy⟩
  | issued notBusy _ is =>
    refine ⟨?_, fun hb => absurd hb notBusy⟩
    rcases issue_next is with rfl | rfl | ⟨rfl, _⟩
    · exact .of_not_compressing (.inl (by simp))
    · exact .of_not_compressing (.inl (by simp))
    · exact fun _ _ => ⟨[], rfl, rfl⟩
  | ran busy kept =>
    cases hc : s.op.cmd with
    | decompress => exact ⟨.of_not_compressing (.inr (by simp [kept.op, hc])), nofun⟩
    | compress =>
      rw [stepWith_compress busy (hr.startTaken busy) hc] at h
      obtain ⟨hinv, hok⟩ := compress_streamInv hr hi busy hc h
      refine ⟨hinv, fun _ _ hdone hstatus => ?_⟩
      have hdecodes := hok hdone hstatus
      rwa [State.outputSoFar, kept.op] at hdecodes

/-! ## How a command ends -/

/-- How a COMPRESS on the operands `r` whose stream is `stream` ends: with the stream where it fits, else with ESIZE. -/
inductive Compressed (r : Operands) (t : State) (stream : List Byte) : Prop
  | fits (room : stream.length ≤ r.outCap.toNat) (ok : t.EndsOk stream.length)
      (output : outputOf r t.mem stream.length = stream)
  | short (noRoom : r.outCap.toNat < stream.length) (bad : t.EndsBad 0xFF#8)

theorem finish_endsOk (h : n ≤ lenMax) : (finish n s).EndsOk n := by
  refine ⟨rfl, rfl, ?_⟩
  simp only [lenMax] at h
  exact Nat.mod_eq_of_lt (by omega)

theorem State.EndsOk.unique {m : Nat} (h : t.EndsOk n) (h' : t.EndsOk m) : m = n := h'.2.2.symm.trans h.2.2

theorem State.EndsOk.not_endsBad {code : Byte} (h : t.EndsOk n) : ¬t.EndsBad code := fun h' => by
  have hok := h.2.1
  rw [h'.2] at hok
  cases hok

theorem Compressed.of_appends {bytes : List Byte} (h : Appends bytes s t) :
    Compressed s.op (finish t.wp t) (s.outputSoFar ++ bytes) := by
  have hlen : (s.outputSoFar ++ bytes).length = t.wp := by rw [List.length_append, outputSoFar_length, h.wp]
  have hcap := h.fits
  have hwidth := s.op.outCap.isLt
  rw [← h.wp] at hcap
  refine .fits (hlen ▸ hcap) (hlen ▸ finish_endsOk (by simp only [lenMax]; omega)) ?_
  rw [hlen, ← h.outputSoFar, State.outputSoFar, h.op]
  rfl

/-- ESIZE is the end where the tokens do not fit, whatever would come after them. -/
theorem Compressed.of_short {u : State} {tokens : List Instr} (hc : s.op.cmd = .compress) (hop : u.op = s.op)
    (big : s.op.outCap.toNat < s.wp + (streamOf tokens).length) (rest : List Instr) :
    Compressed s.op (raise .esize u) (s.outputSoFar ++ streamOf (tokens ++ rest)) := by
  refine .short ?_ (raise_esize_endsBad (hop ▸ hc))
  rw [List.length_append, outputSoFar_length, streamOf_append, List.length_append]
  omega

/-- The last step of COMPRESS, at the end of its input (R164). -/
theorem stepWith_compress_end (hr : s.RunInv) (hb : s.phase = .busy) (hc : s.op.cmd = .compress)
    (hend : s.ip = s.op.inLen.toNat) : ∃ t, stepWith C s = .next t ∧ t.phase = .done ∧
      Compressed s.op t (s.outputSoFar ++ streamOf (literalTokens (s.scan.run s.input))) := by
  rw [stepWith_compress hb (hr.startTaken hb) hc]
  rcases (encoderTurn_spec C hr hb hc).follows_end hr hb hc hend with ⟨u, hx, happ⟩ | ⟨big, u, hop, hx⟩ <;> rw [hx]
  · exact ⟨_, rfl, rfl, .of_appends happ⟩
  · have hshort := Compressed.of_short hc hop big []
    rw [List.append_nil] at hshort
    exact ⟨_, rfl, rfl, hshort⟩

/-- A step of a running command that ends it leaves the engine at rest. -/
theorem runWith_of_done (hr : s.RunInv) (hb : s.phase = .busy) (hx : stepWith C s = .next t) (hdone : t.phase = .done)
    (k : Nat) : runWith C (k + 1) s = .next t := by
  have honward := stepWith_onward C hr hb
  rw [hx] at honward
  cases honward with
  | goesOn _ busy => exact absurd (busy.symm.trans hdone) (by decide)
  | ends _ _ taken => rw [runWith_succ C k hx, State.Rests.runWith ⟨hdone, taken⟩]

/-- A running COMPRESS ends as the encoder's remaining tokens, behind the output so far, say. -/
theorem runWith_compressed (hr : s.RunInv) (hb : s.phase = .busy) (hc : s.op.cmd = .compress)
    (hfuel : s.op.inLen.toNat - s.ip ≤ fuel) : ∃ t, runWith C (fuel + 1) s = .next t ∧ t.phase = .done ∧
      Compressed s.op t (s.outputSoFar ++ streamOf (s.scan.tokens C s.input fuel)) := by
  induction fuel generalizing s with
  | zero =>
    have hend := Nat.le_antisymm (hr.cursor hb) (Nat.le_of_sub_eq_zero (Nat.le_zero.1 hfuel))
    obtain ⟨t, hx, hdone, hcompressed⟩ := stepWith_compress_end (C := C) hr hb hc hend
    exact ⟨t, runWith_of_done hr hb hx hdone 0, hdone, hcompressed⟩
  | succ fuel ih =>
    by_cases hin : s.ip < s.op.inLen.toNat
    swap
    · have hend := Nat.le_antisymm (hr.cursor hb) (Nat.le_of_not_lt hin)
      obtain ⟨t, hx, hdone, hcompressed⟩ := stepWith_compress_end (C := C) hr hb hc hend
      rw [Scan.tokens_end (by rwa [State.input_length])]
      exact ⟨t, runWith_of_done hr hb hx hdone _, hdone, hcompressed⟩
    have hstep := stepWith_compress (C := C) hb (hr.startTaken hb) hc
    have hfollows := (encoderTurn_spec C hr hb hc).follows hr hb hc hin
    have hmoves : s.ip < (s.scan.turn C s.input).1.ip := (Scan.turn_spec (hr.scan_ordered hb hc)).moves
    rw [Scan.tokens_turn (by rwa [State.input_length])]
    generalize encoderTurn C s = x at hstep hfollows
    cases hfollows with
    | short u op big => exact ⟨_, runWith_of_done hr hb hstep rfl _, rfl, .of_short hc op big _⟩
    | written t phase scan appends =>
      rw [← scan] at hmoves ⊢
      have hop := appends.op
      obtain ⟨v, hv, hdone, hcompressed⟩ := ih (stepWith_runInv hr hstep) (phase.trans hb) (hop ▸ hc)
        (by change s.ip < t.ip at hmoves; rw [hop]; omega)
      rw [appends.outputSoFar, appends.input hr hb, hop, List.append_assoc, ← streamOf_append] at hcompressed
      exact ⟨v, by rw [runWith_succ C _ hstep]; exact hv, hdone, hcompressed⟩

/-- The stream of an input (R177). -/
def encoderStream (C : Config) (input : List Byte) : List Byte := streamOf (encoderTokens C input)

/-- Empty input has an empty stream. -/
theorem encoderStream_nil (C : Config) : encoderStream C [] = [] := rfl

theorem inputOf_empty {m : Memory} (h : r.inLen = 0#32) : inputOf r m = [] := by simp [inputOf, h]

/-- A command on empty input ends at its issue (R127). -/
theorem Accepts.ends_empty {c : Cmd} (h : Accepts C c s) (hempty : s.regs.inLen = 0#32) :
    Ends C s (finish 0 (sample c s)) := by
  have hfirst := h.first_step
  rw [if_pos hempty] at hfirst
  exact ⟨by rw [stepBound, runWith_succ C _ hfirst, State.Rests.runWith ⟨rfl, rfl⟩], rfl⟩

/-- A command on some input ends where its run from the initial state leads (R128). -/
theorem Accepts.ends_of_run {c : Cmd} (h : Accepts C c s) (hlen : s.regs.inLen ≠ 0#32)
    (hrun : runWith C (s.regs.inLen.toNat + 1) (initialise (sample c s)) = .next t) (hdone : t.phase = .done) :
    Ends C s t := by
  have hfirst := h.first_step
  rw [if_neg hlen] at hfirst
  exact ⟨(runWith_succ C _ hfirst).trans hrun, hdone⟩

theorem Accepts.initialise_runInv {c : Cmd} (h : Accepts C c s) (hlen : s.regs.inLen ≠ 0#32) :
    (initialise (sample c s)).RunInv := runInv_initialise h.args hlen h.issued.disjoint

/-- A command runs on the registers it was issued on (R34). -/
theorem Accepts.initialise_op {c : Cmd} (h : Accepts C c s) : (initialise (sample c s)).op = s.regs := h.cmd ▸ rfl

/-- COMPRESS ends as the stream of its input says. -/
theorem ReadyCompress.compressed (h : ReadyCompress C s) :
    ∃ t, Ends C s t ∧ Compressed s.regs t (encoderStream C (inputOf s.regs s.mem)) := by
  by_cases hempty : s.regs.inLen = 0#32
  · rw [inputOf_empty hempty, encoderStream_nil]
    exact ⟨_, h.accepts.ends_empty hempty, .fits (Nat.zero_le _) (finish_endsOk (Nat.zero_le _)) rfl⟩
  · obtain ⟨t, hrun, hdone, hcompressed⟩ := runWith_compressed (C := C) (fuel := s.regs.inLen.toNat)
      (h.accepts.initialise_runInv hempty) rfl rfl (Nat.sub_le _ _)
    rw [h.accepts.initialise_op] at hcompressed
    rw [encoderStream, encoderTokens, inputOf_length]
    exact ⟨t, h.accepts.ends_of_run hempty hrun hdone, hcompressed⟩

/-- A command ends in one way. -/
theorem Ends.unique {u : State} (h : Ends C s t) (h' : Ends C s u) : u = t := by
  have heq := h.1.symm.trans h'.1
  cases heq
  rfl

/-- A COMPRESS that ends with OK leaves its input's stream, with the length that it reports. -/
theorem ReadyCompress.endsOk (h : ReadyCompress C s) (ht : Ends C s t) (hok : t.EndsOk n) :
    n = (encoderStream C (inputOf s.regs s.mem)).length ∧
      outputOf s.regs t.mem n = encoderStream C (inputOf s.regs s.mem) := by
  obtain ⟨u, hu, hcompressed⟩ := h.compressed
  obtain rfl := ht.unique hu
  cases hcompressed with
  | fits room ok output =>
    obtain rfl := ok.unique hok
    exact ⟨rfl, output⟩
  | short _ bad => exact absurd bad hok.not_endsBad

/-- Settles O49: the stream is the reference encoder's. -/
theorem compressCapacityBoundary : Obligations.CompressCapacityBoundary := by
  refine fun C input => ⟨encoderStream C input, fun s h hinput => ?_⟩
  obtain ⟨t, ht, hcompressed⟩ := h.compressed
  rw [hinput] at hcompressed
  refine ⟨t, ht, ?_⟩
  cases hcompressed with
  | fits room ok output => exact ⟨fun _ => ⟨ok, output⟩, fun hlt => absurd room (Nat.not_le.2 hlt)⟩
  | short noRoom bad => exact ⟨fun hle => absurd hle (Nat.not_le.2 noRoom), fun _ => bad⟩

/-- Settles O50: the bounds are those of the reference encoder's stream. -/
theorem compressSizeBound : Obligations.CompressSizeBound := by
  intro C s h hlen
  have hmax := encoderTokens_size_le C (inputOf s.regs s.mem)
  have hmin := two_le_encoderTokens_size C (input := inputOf s.regs s.mem) fun hnil => by
    have hzero := congrArg List.length hnil
    rw [inputOf_length] at hzero
    exact hlen (BitVec.eq_of_toNat_eq hzero)
  rw [inputOf_length] at hmax
  obtain ⟨t, ht, hcompressed⟩ := h.compressed
  refine ⟨t, ht, fun c hok => ?_, fun hroom => ?_⟩
  · obtain ⟨rfl, -⟩ := h.endsOk ht hok
    exact ⟨hmin, hmax⟩
  · cases hcompressed with
    | fits _ ok => exact ⟨_, ok⟩
    | short noRoom => exact absurd (hmax.trans hroom) (Nat.not_le.2 noRoom)

/-- Settles O51: the tokens are the reference encoder's, and an offset that decodes stays within the output. -/
theorem encoderOutputShape : Obligations.EncoderOutputShape := by
  intro C s t c h ht hok
  have henc := encoderTokens_encodable C (inputOf s.regs s.mem)
  have hdec := encoderTokens_decode C (inputOf s.regs s.mem)
  have hchain := encoderTokens_isChain C (inputOf s.regs s.mem)
  have hparse := parse_eq_some_iff.2 ⟨henc, (h.endsOk ht hok).2.symm⟩
  generalize encoderTokens C (inputOf s.regs s.mem) = tokens at henc hdec hchain hparse
  have hrange : ∀ j i n off, tokens[j]? = some i → i.backRef? = some (n, off) →
      3 ≤ n ∧ n ≤ 264 ∧ 1 ≤ off ∧ off ≤ 8192 ∧ off ≤ totalOut (tokens.take j) := fun j i n off hj href => by
    obtain ⟨h1, h2, h3, h4⟩ := backRef_range href (henc i (List.mem_of_getElem? hj)).1
    exact ⟨h1, h2, h3, h4, offset_le_totalOut henc hdec hj href⟩
  refine ⟨tokens, hparse, fun i hi => ?_, fun j d d' hd hd' => ?_, hrange⟩
  · rw [List.head?_eq_getElem?] at hi
    refine Option.eq_none_iff_forall_ne_some.2 fun ⟨n, off⟩ href => ?_
    obtain ⟨_, _, hpos, _, hle⟩ := hrange 0 i n off hi href
    exact Nat.not_succ_le_zero 0 (hpos.trans hle)
  · obtain ⟨hlt, hget⟩ := List.getElem?_eq_some_iff.1 hd
    obtain ⟨hlt', hget'⟩ := List.getElem?_eq_some_iff.1 hd'
    exact List.isChain_iff_getElem.1 hchain j hlt' d d' hget hget'

end Sys2Proof.Machine
end

section
/-! SUPPORT. DECOMPRESS of tokens that decode, with room for what they decode to: it ends with OK and leaves that (R190
to R202). With the reference encoder's tokens, that is the round trip (R176). -/

namespace Sys2Proof.Machine

open Sys2Proof

variable {C : Config} {s t : State} {i : Instr} {tokens : List Instr} {out : List Byte} {fuel : Nat}

/-! ## A token, written -/

/-- The encoding of a token has the size that the token gives (R99). -/
theorem bytes_length_eq_size (hw : i.wellFormed = true) (ht : i.isToken = true) : i.bytes.length = i.size := by
  obtain ⟨cb, tail, hlen, hbytes, hi⟩ := decodeToken_eq_ok_iff.1 (decodeToken_bytes hw ht [])
  rw [List.append_nil, List.append_nil] at hbytes
  rw [hbytes, List.length_cons, hlen, hi, (tokenOf_wellFormed (by omega)).2]

theorem outputSoFar_getD {k : Nat} (h : k < s.wp) : s.outputSoFar.getD k 0 = s.mem.read (s.op.outBase + k) := by
  simp [State.outputSoFar, outputOf, List.getD_eq_getElem?_getD, h]

/-- The engine's back-reference copies what the reference decoder's does (R200). -/
theorem copyList_eq_append_referenceBytes {n : Nat} (hpos : 1 ≤ s.moff) (hle : s.moff ≤ s.wp) :
    copyList n s.moff s.outputSoFar = s.outputSoFar ++ referenceBytes s n := by
  induction n generalizing s with
  | zero => exact (List.append_nil _).symm
  | succ n ih =>
    have hwritten : ∀ b, State.outputSoFar { s with mem := s.mem.write (s.op.outBase + s.wp) b, wp := s.wp + 1 } =
        s.outputSoFar ++ [b] := fun b => outputOf_writeAll s.op s.mem s.wp [b]
    rw [copyList, outputSoFar_length, outputSoFar_getD (by omega), ← hwritten,
      ih (s := { s with mem := _, wp := s.wp + 1 }) hpos (Nat.le_succ_of_le hle), hwritten, List.append_assoc,
      List.singleton_append, referenceBytes_succ hpos hle]

/-- A token of a DECOMPRESS in WRITE mode whose output fits is written: its output follows the output so far. -/
theorem TokenTurn.written {x : Host.Outcome State Fault Refusal} (h : TokenTurn i s x) (hm : s.mode = .write)
    (hw : i.wellFormed = true) (ht : i.isToken = true) (hout : tokenOutput s.outputSoFar i = some out)
    (hroom : out.length ≤ s.op.outCap.toNat) :
    ∃ t bytes, x = .next t ∧ Appends bytes s t ∧ s.outputSoFar ++ bytes = out ∧ t.ip = s.ip + i.size ∧
      t.mode = .write ∧ t.phase = s.phase := by
  have hlen := tokenOutput_length ht hout
  rw [outputSoFar_length] at hlen
  cases h with
  | counted mode => simp [hm] at mode
  | short mode tooLong => omega
  | literal data is mode fits =>
    subst is
    cases hout
    exact ⟨_, data, rfl, ⟨rfl, rfl, rfl, fits⟩, rfl, rfl, hm, rfl⟩
  | copied n off is mode fits back =>
    obtain ⟨_, _, hpos, _⟩ := backRef_range is hw
    rw [tokenOutput_backRef is (by rwa [outputSoFar_length])] at hout
    cases hout
    exact ⟨_, referenceBytes { s with moff := off } n, rfl,
      ⟨rfl, rfl, by rw [referenceBytes_length], by rwa [referenceBytes_length]⟩,
      (copyList_eq_append_referenceBytes (s := { s with moff := off }) hpos back).symm, rfl, hm, rfl⟩
  | bad n off is mode fits back =>
    have := offset_le_of_tokenOutput is hout
    rw [outputSoFar_length] at this
    omega

/-! ## A stream -/

/-- The input left over is what the engine fetches from (R191). -/
theorem fetchToken_of_drop {rest : List Byte} (h : s.input.drop s.ip = i.bytes ++ rest) (hw : i.wellFormed = true)
    (ht : i.isToken = true) : fetchToken s = some i := by
  have hbytes : s.inputBytes s.ip (s.op.inLen.toNat - s.ip) = s.input.drop s.ip := by
    have hlen := congrArg List.length h
    rw [List.length_drop, State.input_length, List.length_append] at hlen
    have := two_le_bytes_length hw ht
    rw [inputBytes_eq (by omega), List.take_of_length_le (by simp)]
  rw [fetchToken_eq, hbytes, h, decodeToken_bytes hw ht]
  rfl

/-- A DECOMPRESS in WRITE mode, at tokens that decode to what there is room for, ends with OK and that output. -/
theorem runWith_decodes (hr : s.RunInv) (hb : s.phase = .busy) (hc : s.op.cmd = .decompress) (hm : s.mode = .write)
    (henc : Encodable tokens) (hin : s.input.drop s.ip = streamOf tokens)
    (hdec : runTokens s.outputSoFar tokens = some out) (hroom : out.length ≤ s.op.outCap.toNat)
    (hfuel : s.op.inLen.toNat - s.ip ≤ fuel) : ∃ t, runWith C (fuel + 1) s = .next t ∧ t.phase = .done ∧
      t.EndsOk out.length ∧ outputOf s.op t.mem out.length = out := by
  induction tokens generalizing s fuel with
  | nil =>
    cases hdec
    have hend : s.op.inLen.toNat ≤ s.ip := by
      rw [← State.input_length]
      exact List.drop_eq_nil_iff.1 hin
    have hx : stepWith C s = .next (finish s.wp s) := by
      rw [stepWith_streamEnd hb (hr.startTaken hb) hc hend, decoderEnd_write hm]
    rw [outputSoFar_length]
    exact ⟨_, runWith_of_done hr hb hx rfl fuel, rfl, finish_endsOk (hr.wpWidth hb), rfl⟩
  | cons i rest ih =>
    obtain ⟨⟨hw, ht⟩, hrest⟩ := encodable_cons.1 henc
    have hsize := two_le_bytes_length hw ht
    have hleft := congrArg List.length hin
    rw [List.length_drop, State.input_length, streamOf_cons, List.length_append] at hleft
    rw [streamOf_cons] at hin
    obtain ⟨fuel, rfl⟩ : ∃ k, fuel = k + 1 := ⟨fuel - 1, by omega⟩
    rw [runTokens] at hdec
    split at hdec
    swap
    · cases hdec
    rename_i o ho
    have hlen := runTokens_length hrest hdec
    have hx := stepWith_token (C := C) hb (hr.startTaken hb) hc (fetchToken_of_drop hin hw ht)
    obtain ⟨t, bytes, hnext, happ, rfl, hip, hmode, hphase⟩ :=
      (execToken_spec ht hw hb hc).written hm hw ht ho (by omega)
    rw [hnext] at hx
    have hop := happ.op
    have hdrop : t.input.drop t.ip = streamOf rest := by
      rw [happ.input hr hb, hip, ← bytes_length_eq_size hw ht, ← List.drop_drop, hin, List.drop_left]
    have hmoves : t.op.inLen.toNat - t.ip ≤ fuel := by
      rw [hop, hip, ← bytes_length_eq_size hw ht]
      omega
    rw [← happ.outputSoFar] at hdec
    rw [← hop] at hroom ⊢
    obtain ⟨v, hv, hend⟩ :=
      ih (stepWith_runInv hr hx) (hphase.trans hb) (hop ▸ hc) hmode hrest hdrop hdec hroom hmoves
    exact ⟨v, by rw [runWith_succ C _ hx]; exact hv, hend⟩

/-- DECOMPRESS of tokens that decode to what there is room for ends with OK and that output. -/
theorem ReadyDecompress.decodes (h : ReadyDecompress C s) (henc : Encodable tokens)
    (hin : inputOf s.regs s.mem = streamOf tokens) (hdec : runTokens [] tokens = some out)
    (hroom : out.length ≤ s.regs.outCap.toNat) :
    ∃ t, Ends C s t ∧ t.EndsOk out.length ∧ outputOf s.regs t.mem out.length = out := by
  by_cases hempty : s.regs.inLen = 0#32
  · rw [inputOf_empty hempty] at hin
    obtain rfl : [] = tokens := Option.some.inj (parse_eq_some_iff.2 ⟨henc, hin.symm⟩)
    cases hdec
    exact ⟨_, h.accepts.ends_empty hempty, finish_endsOk (Nat.zero_le _), rfl⟩
  · obtain ⟨t, hrun, hdone, hend⟩ := runWith_decodes (C := C) (s := initialise (sample .decompress s))
      (fuel := s.regs.inLen.toNat) (h.accepts.initialise_runInv hempty) rfl rfl rfl henc hin hdec hroom (Nat.sub_le _ _)
    rw [h.accepts.initialise_op] at hend
    exact ⟨t, h.accepts.ends_of_run hempty hrun hdone, hend⟩

/-- Settles O47: what COMPRESS leaves are the reference encoder's tokens, which decode to the input. -/
theorem roundTripGivesTheInputBack : Obligations.RoundTripGivesTheInputBack := by
  intro C D s t u c hs ht hok hu hin hroom
  have hstream := (hs.endsOk ht hok).2
  obtain ⟨v, hv, hend, hout⟩ := hu.decodes (encoderTokens_encodable C (inputOf s.regs s.mem)) (hin.trans hstream)
    (encoderTokens_decode C (inputOf s.regs s.mem)) (by rwa [inputOf_length])
  rw [inputOf_length] at hend hout
  exact ⟨v, hv, hend, hout⟩

end Sys2Proof.Machine
end

section
/-! SUPPORT. What each token of a running DECOMPRESS does in WRITE mode (R190 to R201), in any state, whether or not it
keeps the engine's invariant; and what DECOMPRESS does at the end of its stream (R193, R202). -/

namespace Sys2Proof.Machine

open Sys2Proof

variable {s : State} {i : Instr} {n off : Nat} {data : List Byte}

/-! ## A token -/

theorem exec_token (ht : i.isToken = true) (s : State) : exec i s = execToken i s := by
  rw [exec_eq_execWith, execWith_token hardware ht]

theorem isToken_of_backRef (href : i.backRef? = some (n, off)) : i.isToken = true := by cases i <;> cases href <;> rfl

theorem outSize_of_backRef (href : i.backRef? = some (n, off)) : i.outSize = n := by cases i <;> cases href <;> rfl

/-- A back-reference latches its control byte (R192). -/
theorem headD_bytes_of_backRef (href : i.backRef? = some (n, off)) : i.bytes.headD 0#8 = refControl n off := by
  rw [bytes_of_backRef href, encRef_headD]

/-- As `emit_go`, with room counted from `WP`, which need not lie below `OUT_CAP` where nothing is written. -/
theorem emit_fits (hfit : data.length ≤ s.op.outCap.toNat - s.wp) :
    emit data s = .go { s with mem := s.mem.writeAll (s.op.outBase + s.wp) data, wp := s.wp + data.length } := by
  cases data with
  | nil => rfl
  | cons b rest => exact emit_go (by rw [List.length_cons] at hfit ⊢; omega)

/-- A LIT that fits is written (R195). -/
theorem execToken_lit_fits (hb : s.phase = .busy) (hc : s.op.cmd = .decompress) (hm : s.mode = .write)
    (hfit : data.length ≤ s.op.outCap.toNat - s.wp) : execToken (.lit data) s =
      .next { s with
        cb := encLit data.length, mem := s.mem.writeAll (s.op.outBase + s.wp) data
        wp := s.wp + data.length, ip := s.ip + (1 + data.length) } := by
  rw [execToken_lit, whenDecoding_of hb hc, runToken_write hm hfit,
    emit_fits (s := { s with cb := encLit data.length }) hfit]
  rfl

/-- A back-reference that fits is latched, and its offset decides (R197, R198). -/
theorem execToken_backRef_fits (href : i.backRef? = some (n, off)) (hb : s.phase = .busy) (hc : s.op.cmd = .decompress)
    (hm : s.mode = .write) (hfit : n ≤ s.op.outCap.toNat - s.wp) : execToken i s =
      ((copyReference n off { s with cb := i.bytes.headD 0#8 }).andThen fun u => .go (advance i.size u)).outcome := by
  rw [execToken_ref href, runReference, whenDecoding_of hb hc, runToken_write hm hfit, headD_bytes_of_backRef href]

/-- A back-reference that fits and stays within the output is copied (R200). -/
theorem execToken_copied (href : i.backRef? = some (n, off)) (hb : s.phase = .busy) (hc : s.op.cmd = .decompress)
    (hm : s.mode = .write) (hfit : s.wp + n ≤ s.op.outCap.toNat) (hpos : 1 ≤ off) (hle : off ≤ s.wp) :
    execToken i s = .next { s with
        cb := i.bytes.headD 0#8, mlen := n, moff := off
        mem := s.mem.writeAll (s.op.outBase + s.wp) (referenceBytes { s with moff := off } n)
        wp := s.wp + n, ip := s.ip + i.size } := by
  rw [execToken_backRef_fits href hb hc hm (by omega), copyReference, if_neg (Nat.not_lt.2 hle),
    copyBack_go (s := { s with cb := _, mlen := n, moff := off }) hpos hle hfit]
  rfl

/-- A back-reference that fits and reaches beyond the output ends the command (R199). -/
theorem execToken_badOffset (href : i.backRef? = some (n, off)) (hb : s.phase = .busy) (hc : s.op.cmd = .decompress)
    (hm : s.mode = .write) (hfit : n ≤ s.op.outCap.toNat - s.wp) (hlt : s.wp < off) : execToken i s =
      .next (raise .ecorrupt { s with cb := i.bytes.headD 0#8, mlen := n, moff := off }) := by
  rw [execToken_backRef_fits href hb hc hm hfit, copyReference, if_pos hlt]
  rfl

/-- Bytes copied back read as the `off` bytes before them, over and over (R200). -/
theorem read_writeAll_referenceBytes {k : Nat} (hk : k < n) :
    (s.mem.writeAll (s.op.outBase + s.wp) (referenceBytes s n)).read (s.op.outBase + (s.wp + k)) =
      s.mem.read (s.op.outBase + (s.wp - s.moff + k % s.moff)) := by
  have hhere := holdsAt_writeAll s.mem (s.op.outBase + s.wp) (referenceBytes s n) k (by rwa [referenceBytes_length])
  rw [← Nat.add_assoc, hhere]
  simp [referenceBytes]

/-- Settles O10: a LIT that fits lays its bytes out at `WP`. -/
theorem litWritesItsBytes : Obligations.LitWritesItsBytes := fun _ s hb hc hm hfit =>
  ⟨_, (exec_token rfl s).trans (execToken_lit_fits hb hc hm hfit), rfl, holdsAt_writeAll _ _ _,
    unchangedOutside_writeAll _ _ _⟩

/-- Settles O11: a back-reference in range lays out the bytes it stands for at `WP`. -/
theorem backReferenceCopiesForward : Obligations.BackReferenceCopiesForward := by
  intro i n off s href hw hb hc hm hfit hle
  obtain ⟨hmin, -, hpos, -⟩ := backRef_range href hw
  have hx := execToken_copied href hb hc hm (by omega) hpos hle
  have houtside := unchangedOutside_writeAll s.mem (s.op.outBase + s.wp) (referenceBytes { s with moff := off } n)
  rw [referenceBytes_length] at houtside
  exact ⟨_, (exec_token (isToken_of_backRef href) s).trans hx, rfl,
    fun k hk => read_writeAll_referenceBytes (s := { s with moff := off }) hk, houtside⟩

/-- Settles O12: the bad offset raises ECORRUPT, after the latches. -/
theorem badOffsetIsCorrupt : Obligations.BadOffsetIsCorrupt := by
  intro i n off s href hb hc hm hfit hlt
  exact ⟨_, (exec_token (isToken_of_backRef href) s).trans (execToken_badOffset href hb hc hm hfit hlt), rfl,
    unchangedOutside_raise .ecorrupt rfl fun _ _ => rfl⟩

/-- Settles O14: the capacity check sets `MODE`, and the token is then counted. -/
theorem tokenThatDoesNotFitEntersCountMode : Obligations.TokenThatDoesNotFitEntersCountMode :=
  fun _ s ht hb hc hm hshort => (exec_token ht s).trans (execToken_short ht hb hc hm hshort)

/-- Settles O16: every token asks first whether a DECOMPRESS runs. -/
theorem tokenOutsideDecompressIsRefused : Obligations.TokenOutsideDecompressIsRefused := by
  intro i s ht hout
  obtain ⟨write, hx, -⟩ := execToken_shape ht s
  rw [exec_token ht, hx, whenDecoding, if_neg (mt (decoding_iff s).1 hout)]

/-! ## DECOMPRESS at the end of its stream -/

theorem exec_decompress_streamEnd (hb : s.phase = .busy) (hc : s.op.cmd = .decompress)
    (hend : s.op.inLen.toNat ≤ s.ip) : exec .decompress s = .next (decoderEnd s) := by
  simp [exec, execDecompress, execDecompressWith, hb, hc, hend]

theorem exec_decompress_truncated (hb : s.phase = .busy) (hc : s.op.cmd = .decompress) (hin : s.ip < s.op.inLen.toNat)
    (hf : fetchToken s = none) : exec .decompress s = .next (truncatedToken s) := by
  simp [exec, execDecompress, execDecompressWith, hb, hc, hf, Nat.not_le.2 hin]

/-- Settles O17: nothing is fetched of the token, whether the step or DECOMPRESS looks for it. -/
theorem truncatedTokenIsCorrupt : Obligations.TruncatedTokenIsCorrupt := by
  intro s hb hs hc hin htrunc
  have hf : fetchToken s = none := fetchToken_truncated hin htrunc
  refine ⟨truncatedToken s, ?_, exec_decompress_truncated hb hc hin hf, rfl,
    unchangedOutside_raise .ecorrupt rfl fun _ _ => rfl⟩
  rw [step_eq_stepWith, stepWith_truncated hb hs hc hin hf]

/-- Settles O18: the end of the stream in WRITE mode is `finish OK(WP)`. -/
theorem decompressEndsOk : Obligations.DecompressEndsOk := by
  intro s hb hc hend hm
  rw [exec_decompress_streamEnd hb hc hend, decoderEnd_write hm]
  rfl

end Sys2Proof.Machine
end

section
/-! SUPPORT. Tokens as a code: no token's bytes begin another's (R102, R106), so a byte string is parsed from its front,
and a stream cut short is parsed only on a token boundary (R207). What the reference decoder makes of a first piece of
the tokens, and which offsets are bad (R205). -/

namespace Sys2Proof.Machine

open Sys2Proof

variable {bytes rest out out' : List Byte} {tokens tokens' : List Instr} {i j : Instr} {cap pos n off : Nat}

/-! ## Parsing from the front -/

/-- Two byte strings that begin with a token are equal only token by token (R106). -/
theorem bytes_append_inj {rest' : List Byte} (hi : i.wellFormed = true ∧ i.isToken = true)
    (hj : j.wellFormed = true ∧ j.isToken = true) (h : i.bytes ++ rest = j.bytes ++ rest') :
    i = j ∧ rest = rest' := by
  have hdec := decodeToken_bytes hi.1 hi.2 rest
  rw [h, decodeToken_bytes hj.1 hj.2 rest'] at hdec
  cases hdec
  exact ⟨rfl, rfl⟩

/-- A token at the front is the first token parsed (R102). -/
theorem parse_bytes_append (hi : i.wellFormed = true ∧ i.isToken = true) (rest : List Byte) :
    parse (i.bytes ++ rest) = (parse rest).map (i :: ·) := by
  refine Option.ext fun tokens => ?_
  rw [Option.map_eq_some_iff, parse_eq_some_iff]
  constructor
  · rintro ⟨henc, hstream⟩
    cases tokens with
    | nil =>
      have hpos := two_le_bytes_length hi.1 hi.2
      have hzero := congrArg List.length hstream
      rw [streamOf_nil, List.length_nil, List.length_append] at hzero
      omega
    | cons j tokens =>
      obtain ⟨hj, htokens⟩ := encodable_cons.1 henc
      obtain ⟨rfl, hrest⟩ := bytes_append_inj hj hi ((streamOf_cons j tokens).symm.trans hstream)
      exact ⟨tokens, parse_eq_some_iff.2 ⟨htokens, hrest⟩, rfl⟩
  · rintro ⟨tokens, hparse, rfl⟩
    obtain ⟨htokens, hrest⟩ := parse_eq_some_iff.1 hparse
    exact ⟨encodable_cons.2 ⟨hi, htokens⟩, by rw [streamOf_cons, hrest]⟩

/-- Bytes that do not begin with a whole token are no stream (R102). -/
theorem parse_eq_none {e : DecodeError} (hne : bytes ≠ []) (h : decodeToken bytes = .error e) :
    parse bytes = none := by
  cases bytes with
  | nil => exact absurd rfl hne
  | cons b rest => rw [parse, List.length_cons, parseTokens, h]

/-- The tokens of a stream that begins another stream begin its tokens. -/
theorem prefix_of_streamOf_prefix (henc : Encodable tokens) (henc' : Encodable tokens')
    (h : streamOf tokens <+: streamOf tokens') : tokens <+: tokens' := by
  induction tokens generalizing tokens' with
  | nil => exact List.nil_prefix
  | cons i rest ih =>
    obtain ⟨hi, hrest⟩ := encodable_cons.1 henc
    obtain ⟨after, hafter⟩ := h
    rw [streamOf_cons, List.append_assoc] at hafter
    cases tokens' with
    | nil =>
      have hpos := two_le_bytes_length hi.1 hi.2
      have hzero := congrArg List.length hafter
      rw [streamOf_nil, List.length_nil, List.length_append] at hzero
      omega
    | cons j rest' =>
      obtain ⟨hj, hrest'⟩ := encodable_cons.1 henc'
      rw [streamOf_cons] at hafter
      obtain ⟨rfl, hstream⟩ := bytes_append_inj hi hj hafter
      exact List.cons_prefix_cons.2 ⟨rfl, ih hrest hrest' ⟨after, hstream⟩⟩

/-! ## What a piece of the tokens decodes to -/

@[simp] theorem totalOut_cons (i : Instr) (tokens : List Instr) :
    totalOut (i :: tokens) = i.outSize + totalOut tokens := by
  simp [totalOut]

/-- What tokens decode to from the start has the length they stand for (R205). -/
theorem length_eq_totalOut (henc : Encodable tokens) (h : runTokens [] tokens = some out) :
    out.length = totalOut tokens := by
  simpa using runTokens_length henc h

theorem prefix_copyList (n off : Nat) (out : List Byte) : out <+: copyList n off out := by
  induction n generalizing out with
  | zero => exact List.prefix_rfl
  | succ n ih => exact (List.prefix_append _ _).trans (ih _)

theorem prefix_of_tokenOutput (ht : i.isToken = true) (h : tokenOutput out i = some out') : out <+: out' := by
  rcases token_kind ht with ⟨data, rfl, -⟩ | ⟨n, off, href, -⟩
  · cases h
    exact List.prefix_append _ _
  · rw [tokenOutput_backRef href (offset_le_of_tokenOutput href h)] at h
    cases h
    exact prefix_copyList n off out

theorem prefix_of_runTokens (henc : Encodable tokens) (h : runTokens out tokens = some out') : out <+: out' := by
  induction tokens generalizing out with
  | nil => cases h; exact List.prefix_rfl
  | cons i rest ih =>
    obtain ⟨⟨-, ht⟩, hrest⟩ := encodable_cons.1 henc
    rw [runTokens] at h
    split at h
    · rename_i o ho
      exact (prefix_of_tokenOutput ht ho).trans (ih hrest h)
    · cases h

/-- The first tokens decode to a first piece of the output (R207). -/
theorem runTokens_take (henc : Encodable tokens) (h : runTokens [] tokens = some out) (k : Nat) :
    runTokens [] (tokens.take k) = some (out.take (totalOut (tokens.take k))) := by
  rw [← List.take_append_drop k tokens] at henc h
  obtain ⟨hfirst, hlast⟩ := encodable_append.1 henc
  rw [runTokens_append] at h
  obtain ⟨o, ho, hrest⟩ := Option.bind_eq_some_iff.1 h
  rw [ho, ← length_eq_totalOut hfirst ho, ← List.prefix_iff_eq_take.1 (prefix_of_runTokens hlast hrest)]

/-- A token without an output is a back-reference whose offset reaches beyond the output (R199). -/
theorem backRef_of_tokenOutput_none (ht : i.isToken = true) (h : tokenOutput out i = none) :
    ∃ n off, i.backRef? = some (n, off) ∧ out.length < off := by
  rcases token_kind ht with ⟨data, rfl, -⟩ | ⟨n, off, href, -⟩
  · cases h
  · refine ⟨n, off, href, Nat.lt_of_not_le fun hle => ?_⟩
    rw [tokenOutput_backRef href hle] at h
    cases h

/-! ## Bad offsets below the capacity (R205) -/

theorem badOffsetBelow_short (h : cap - pos < i.outSize) (tokens : List Instr) :
    badOffsetBelow cap pos (i :: tokens) = false := if_pos h

theorem badOffsetBelow_bad (href : i.backRef? = some (n, off)) (hfit : i.outSize ≤ cap - pos) (hlt : pos < off)
    (tokens : List Instr) : badOffsetBelow cap pos (i :: tokens) = true := by
  simp [badOffsetBelow, href, hlt, Nat.not_lt.2 hfit]

theorem badOffsetBelow_good (ht : i.isToken = true) (hout : tokenOutput out i = some out')
    (hfit : i.outSize ≤ cap - out.length) (tokens : List Instr) :
    badOffsetBelow cap out.length (i :: tokens) = badOffsetBelow cap out'.length tokens := by
  rw [badOffsetBelow, if_neg (Nat.not_lt.2 hfit), tokenOutput_length ht hout]
  cases href : i.backRef? with
  | none => rfl
  | some r => simp [Nat.not_lt.2 (offset_le_of_tokenOutput href hout)]

/-- Tokens that decode have no bad offset, below any capacity. -/
theorem badOffsetBelow_of_runTokens (henc : Encodable tokens) (h : runTokens out tokens = some out') :
    badOffsetBelow cap out.length tokens = false := by
  induction tokens generalizing out with
  | nil => rfl
  | cons i rest ih =>
    obtain ⟨⟨-, ht⟩, hrest⟩ := encodable_cons.1 henc
    by_cases hfit : i.outSize ≤ cap - out.length
    swap
    · exact badOffsetBelow_short (Nat.lt_of_not_le hfit) rest
    rw [runTokens] at h
    split at h
    · rename_i o ho
      rw [badOffsetBelow_good ht ho hfit, ih hrest h]
    · cases h

end Sys2Proof.Machine
end

section
/-! SUPPORT. DECOMPRESS against the reference decoder (R205 to R207). The answer that a running DECOMPRESS will give is
stated by the tokens it has left, in either mode; each token passes it on, and the end of the stream gives it. -/

namespace Sys2Proof.Machine

open Sys2Proof

variable {C : Config} {s t u : State} {i : Instr} {left : Option (List Instr)} {k : Nat}

/-! ## The tokens left -/

/-- The tokens that a DECOMPRESS has left to run; `none` where the stream breaks off inside one (R193). -/
def State.tokensLeft (s : State) : Option (List Instr) := parse (s.input.drop s.ip)

/-- The fetch takes the first token of the input left (R191, R192). -/
theorem fetchToken_eq_drop (h : s.ip ≤ s.op.inLen.toNat) :
    fetchToken s = (decodeToken (s.input.drop s.ip)).toOption.map Prod.fst := by
  rw [fetchToken_eq, inputBytes_eq (by omega), List.take_of_length_le (by simp)]

theorem tokensLeft_of_fetchToken (h : s.ip ≤ s.op.inLen.toNat) (hf : fetchToken s = some i) :
    s.tokensLeft = (parse (s.input.drop (s.ip + i.size))).map (i :: ·) := by
  rw [fetchToken_eq_drop h] at hf
  cases hd : decodeToken (s.input.drop s.ip) with
  | error e => rw [hd] at hf; cases hf
  | ok r =>
    obtain ⟨j, rest⟩ := r
    rw [hd] at hf
    obtain rfl : j = i := Option.some.inj hf
    obtain ⟨hw, ht, hbytes⟩ := tokenFormatIsBijection.2 _ _ _ hd
    rw [State.tokensLeft, ← List.drop_drop, ← hbytes, ← bytes_length_eq_size hw ht, List.drop_left,
      parse_bytes_append ⟨hw, ht⟩]

theorem tokensLeft_end (h : s.op.inLen.toNat ≤ s.ip) : s.tokensLeft = some [] := by
  rw [State.tokensLeft, List.drop_of_length_le (by rwa [State.input_length])]
  rfl

theorem tokensLeft_truncated (h : s.ip < s.op.inLen.toNat) (hf : fetchToken s = none) : s.tokensLeft = none := by
  rw [fetchToken_eq_drop (Nat.le_of_lt h)] at hf
  cases hd : decodeToken (s.input.drop s.ip) with
  | error e =>
    refine parse_eq_none (fun hnil => ?_) hd
    rw [List.drop_eq_nil_iff, State.input_length] at hnil
    omega
  | ok r => rw [hd] at hf; cases hf

/-! ## The answer -/

theorem raise_ecorrupt_endsBad (s : State) : (raise .ecorrupt s).EndsBad 0xFE#8 := ⟨rfl, rfl⟩

/-- ESIZE of a DECOMPRESS reports the sum in `WP` (R238). -/
theorem raise_esize_endsShort (hc : s.op.cmd = .decompress) (hwidth : s.wp ≤ lenMax) :
    (raise .esize s).EndsShort s.wp := by
  simp only [lenMax] at hwidth
  have hwp : s.wp % 4294967296 = s.wp := Nat.mod_eq_of_lt (by omega)
  exact ⟨rfl, by simp [storesLength, hc], by simp [storesLength, hc, hwp]⟩

/-- How a DECOMPRESS that stands at `s`, with these tokens left, answers in its last state `t` (R205). -/
inductive Answers (s t : State) : Option (List Instr) → Prop
  /-- the stream breaks off (R193, R233) -/
  | truncated (bad : t.EndsBad 0xFE#8) : Answers s t none
  /-- an offset is bad before the capacity is exceeded (R199) -/
  | badOffset {tokens : List Instr} (mode : s.mode = .write)
      (offset : badOffsetBelow s.op.outCap.toNat s.wp tokens = true) (bad : t.EndsBad 0xFE#8) : Answers s t (some tokens)
  /-- the tokens are decoded behind the output so far (R202) -/
  | decoded {tokens : List Instr} {out : List Byte} (mode : s.mode = .write)
      (decodes : runTokens s.outputSoFar tokens = some out)
      (room : out.length ≤ s.op.outCap.toNat) (ok : t.EndsOk out.length)
      (output : outputOf s.op t.mem out.length = out) : Answers s t (some tokens)
  /-- the tokens are counted, all or from the one on that exceeds the capacity (R236, R238) -/
  | counted {tokens : List Instr} (exceeds : s.mode = .write →
        badOffsetBelow s.op.outCap.toNat s.wp tokens = false ∧ s.op.outCap.toNat < s.wp + totalOut tokens)
      (short : t.EndsShort (min (s.wp + totalOut tokens) lenMax)) : Answers s t (some tokens)

@[simp] theorem decoderEnd_phase (s : State) : (decoderEnd s).phase = .done := by
  cases hm : s.mode <;> simp [decoderEnd, hm]

/-- At the end of the stream the answer is given (R202, R238). -/
theorem decoderEnd_answers (hr : s.RunInv) (hb : s.phase = .busy) (hc : s.op.cmd = .decompress) :
    Answers s (decoderEnd s) (some []) := by
  have hwidth := hr.wpWidth hb
  cases hm : s.mode with
  | write =>
    rw [decoderEnd_write hm]
    refine .decoded (out := s.outputSoFar) hm rfl ?_ ?_ ?_ <;> rw [outputSoFar_length]
    · exact hr.wpCap hb (.inr hm)
    · exact finish_endsOk hwidth
    · rfl
  | count =>
    rw [decoderEnd_count hm]
    refine .counted (fun hw => by simp [hm] at hw) ?_
    change (raise .esize s).EndsShort (min s.wp lenMax)
    rw [Nat.min_eq_left hwidth]
    exact raise_esize_endsShort hc hwidth

/-- Saturating on the way changes nothing in the end (R236). -/
theorem min_sat_add (n m : Nat) : min (sat n + m) lenMax = min (n + m) lenMax := by
  simp only [sat, lenMax]
  omega

/-- A counted token passes on the answer of the tokens after it (R232). -/
theorem Answers.of_counted (h : Answers u t left) (hmode : u.mode = .count)
    (hwp : u.wp = sat (s.wp + i.outSize)) (hshort : s.mode = .write → s.op.outCap.toNat - s.wp < i.outSize) :
    Answers s t (left.map (i :: ·)) := by
  cases h with
  | truncated bad => exact .truncated bad
  | badOffset mode => simp [hmode] at mode
  | decoded mode => simp [hmode] at mode
  | counted _ short =>
    refine .counted (fun hw => ⟨badOffsetBelow_short (hshort hw) _, ?_⟩) ?_
    · have := hshort hw
      rw [totalOut_cons]
      omega
    · rwa [totalOut_cons, ← Nat.add_assoc, ← min_sat_add, ← hwp]

/-- A written token passes on the answer of the tokens after it (R195, R200). -/
theorem Answers.of_written {bytes : List Byte} (h : Answers u t left)
    (hu : u.mode = .write) (hs : s.mode = .write) (happ : Appends bytes s u) (ht : i.isToken = true)
    (hout : tokenOutput s.outputSoFar i = some (s.outputSoFar ++ bytes))
    (hfit : i.outSize ≤ s.op.outCap.toNat - s.wp) : Answers s t (left.map (i :: ·)) := by
  have hwp : u.wp = s.wp + i.outSize := by
    have hlen := tokenOutput_length ht hout
    rw [← happ.outputSoFar, outputSoFar_length, outputSoFar_length] at hlen
    exact hlen
  have hbelow : ∀ tokens, badOffsetBelow s.op.outCap.toNat s.wp (i :: tokens) =
      badOffsetBelow s.op.outCap.toNat u.wp tokens := fun tokens => by
    have hgood := badOffsetBelow_good ht hout (by rwa [outputSoFar_length]) tokens
    rwa [← happ.outputSoFar, outputSoFar_length, outputSoFar_length] at hgood
  cases h with
  | truncated bad => exact .truncated bad
  | badOffset _ offset bad => exact .badOffset hs ((hbelow _).trans (happ.op ▸ offset)) bad
  | decoded _ decodes room ok output =>
    refine .decoded hs ?_ (happ.op ▸ room) ok (happ.op ▸ output)
    rw [runTokens, hout, ← happ.outputSoFar]
    exact decodes
  | counted exceeds short =>
    refine .counted (fun _ => ?_) ?_
    · rw [hbelow, totalOut_cons, ← Nat.add_assoc, ← hwp]
      exact happ.op ▸ exceeds hu
    · rwa [totalOut_cons, ← Nat.add_assoc, ← hwp]

/-! ## A step -/

/-- What a step of a running DECOMPRESS does to its answer: the answer is given, or the next state has the same. -/
inductive StepAnswers (s u : State) : Prop
  | goesOn (busy : u.phase = .busy) (op : u.op = s.op)
      (same : ∀ t, Answers u t u.tokensLeft → Answers s t s.tokensLeft)
  | ends (done : u.phase = .done) (answer : Answers s u s.tokensLeft)

theorem token_stepAnswers (hr : s.RunInv) (hb : s.phase = .busy) (hc : s.op.cmd = .decompress)
    (hf : fetchToken s = some i) (hx : execToken i s = .next u) : StepAnswers s u := by
  obtain ⟨ht, hw, -, -⟩ := fetchToken_spec hf
  have hleft := tokensLeft_of_fetchToken (hr.cursor hb) hf
  cases hm : s.mode with
  | count =>
    rw [execToken_count ht hb hc hm] at hx
    cases hx
    exact .goesOn hb rfl fun t h => hleft ▸ h.of_counted hm rfl fun hw => by simp [hm] at hw
  | write =>
    by_cases hfit : i.outSize ≤ s.op.outCap.toNat - s.wp
    swap
    · rw [execToken_short ht hb hc hm (by omega)] at hx
      cases hx
      exact .goesOn hb rfl fun t h => hleft ▸ h.of_counted rfl rfl fun _ => by omega
    cases hout : tokenOutput s.outputSoFar i with
    | some out =>
      have hlen := tokenOutput_length ht hout
      have hcap := hr.wpCap hb (.inr hm)
      rw [outputSoFar_length] at hlen
      obtain ⟨v, bytes, hnext, happ, rfl, hip, hmode, hphase⟩ :=
        (execToken_spec ht hw hb hc).written hm hw ht hout (by omega)
      rw [hnext] at hx
      cases hx
      refine .goesOn (hphase.trans hb) happ.op fun t h => ?_
      rw [State.tokensLeft, happ.input hr hb, hip] at h
      exact hleft ▸ h.of_written hmode hm happ ht hout hfit
    | none =>
      obtain ⟨n, off, href, hlt⟩ := backRef_of_tokenOutput_none ht hout
      rw [outputSoFar_length] at hlt
      rw [execToken_badOffset href hb hc hm (outSize_of_backRef href ▸ hfit) hlt] at hx
      cases hx
      refine .ends rfl ?_
      rw [hleft]
      cases parse (s.input.drop (s.ip + i.size)) with
      | none => exact .truncated (raise_ecorrupt_endsBad _)
      | some tokens => exact .badOffset hm (badOffsetBelow_bad href hfit hlt tokens) (raise_ecorrupt_endsBad _)

theorem stepWith_stepAnswers (hr : s.RunInv) (hb : s.phase = .busy) (hc : s.op.cmd = .decompress)
    (hx : stepWith C s = .next u) : StepAnswers s u := by
  have hs := hr.startTaken hb
  cases hf : fetchToken s with
  | some i =>
    rw [stepWith_token hb hs hc hf] at hx
    exact token_stepAnswers hr hb hc hf hx
  | none =>
    by_cases hi : s.op.inLen.toNat ≤ s.ip
    · rw [stepWith_streamEnd hb hs hc hi] at hx
      cases hx
      exact .ends (decoderEnd_phase s) (tokensLeft_end hi ▸ decoderEnd_answers hr hb hc)
    · rw [stepWith_truncated hb hs hc (by omega) hf] at hx
      cases hx
      exact .ends rfl (tokensLeft_truncated (by omega) hf ▸ .truncated (raise_ecorrupt_endsBad _))

/-- A running DECOMPRESS answers as the tokens it has left say. -/
theorem runWith_answers (hr : s.RunInv) (hb : s.phase = .busy) (hc : s.op.cmd = .decompress)
    (hrun : runWith C k s = .next t) (hdone : t.phase = .done) : Answers s t s.tokensLeft := by
  induction k generalizing s with
  | zero =>
    cases hrun
    rw [hb] at hdone
    cases hdone
  | succ k ih =>
    obtain ⟨u, hx, hrest⟩ := runWith_succ_next hrun
    cases stepWith_stepAnswers hr hb hc hx with
    | goesOn busy op same => exact same t (ih (stepWith_runInv hr hx) busy (op ▸ hc) hrest)
    | ends done answer =>
      rw [runWith_of_done hr hb hx done] at hrun
      cases hrun
      exact answer

/-! ## Whole commands -/

/-- DECOMPRESS answers as the tokens of its input say. -/
theorem ReadyDecompress.answers (h : ReadyDecompress C s) (ht : Ends C s t) :
    Answers (initialise (sample .decompress s)) t (parse (inputOf s.regs s.mem)) := by
  by_cases hempty : s.regs.inLen = 0#32
  · obtain rfl := (h.accepts.ends_empty hempty).unique ht
    rw [inputOf_empty hempty]
    exact .decoded (out := []) rfl rfl (Nat.zero_le _) (finish_endsOk (Nat.zero_le _)) rfl
  · obtain ⟨u, hx, hrun⟩ := runWith_succ_next ht.1
    rw [h.accepts.first_step, if_neg hempty] at hx
    cases hx
    exact runWith_answers (h.accepts.initialise_runInv hempty) rfl rfl hrun ht.2

/-- Settles O42: the answer of the tokens of the input, case by case. -/
theorem decompressComputesTheReferenceDecoder : Obligations.DecompressComputesTheReferenceDecoder := by
  intro C s h
  obtain ⟨t, ht, -⟩ := h.issued.ends
  refine ⟨t, ht, ?_⟩
  have hanswer := h.answers ht
  generalize hparse : parse (inputOf s.regs s.mem) = left at hanswer ⊢
  cases hanswer with
  | truncated bad => exact bad
  | badOffset _ offset bad => exact (if_pos offset).mpr bad
  | decoded _ decodes room ok output =>
    have henc := (parse_eq_some_iff.1 hparse).1
    rw [length_eq_totalOut henc decodes] at room ok output
    have hgood := badOffsetBelow_of_runTokens (cap := s.regs.outCap.toNat) henc decodes
    rw [← output] at decodes
    exact (if_neg (ne_true_of_eq_false hgood)).mpr ((if_pos room).mpr ⟨ok, decodes⟩)
  | counted exceeds short =>
    obtain ⟨hgood, hbig⟩ := exceeds rfl
    simp only [initialise_wp, Nat.zero_add] at hgood hbig short
    exact (if_neg (ne_true_of_eq_false hgood)).mpr ((if_neg (Nat.not_le.2 hbig)).mpr short)

/-- A DECOMPRESS whose tokens decode to what there is room for ends with OK and that output. -/
theorem ReadyDecompress.endsOk {tokens : List Instr} {out : List Byte} (h : ReadyDecompress C s) (ht : Ends C s t)
    (hparse : parse (inputOf s.regs s.mem) = some tokens) (hdec : runTokens [] tokens = some out)
    (hroom : out.length ≤ s.regs.outCap.toNat) : t.EndsOk out.length ∧ outputOf s.regs t.mem out.length = out := by
  obtain ⟨henc, hin⟩ := parse_eq_some_iff.1 hparse
  obtain ⟨u, hu, hend⟩ := h.decodes henc hin.symm hdec hroom
  exact ht.unique hu ▸ hend

/-- Settles O43: tokens that decode have no bad offset, so the answer turns on the capacity alone. -/
theorem decompressCapacityBoundary : Obligations.DecompressCapacityBoundary := by
  intro C s tokens out h hparse hdec
  obtain ⟨t, ht, hanswer⟩ := decompressComputesTheReferenceDecoder C s h
  refine ⟨t, ht, h.endsOk ht hparse hdec, fun hshort => ?_⟩
  have henc := (parse_eq_some_iff.1 hparse).1
  have hgood := badOffsetBelow_of_runTokens (cap := s.regs.outCap.toNat) henc hdec
  rw [length_eq_totalOut henc hdec] at hshort ⊢
  rw [hparse] at hanswer
  exact (if_neg (Nat.not_le.2 hshort)).mp ((if_neg (ne_true_of_eq_false hgood)).mp hanswer)

/-- Settles O45: a cut stream is parsed exactly on a token boundary, into the tokens before the cut. -/
theorem truncationIsDetectedInsideTokens : Obligations.TruncationIsDetectedInsideTokens := by
  intro C s tokens out m henc hdec h hcut
  obtain ⟨t, ht, hanswer⟩ := decompressComputesTheReferenceDecoder C s h
  refine ⟨t, ht, fun j hj hroom => ?_, fun hinside => ?_⟩
  · have hparse := parse_eq_some_iff.2 ⟨fun i hi => henc i (List.mem_of_mem_take hi), hj⟩
    have htake := runTokens_take henc hdec j
    have hlen := length_eq_totalOut (parse_eq_some_iff.1 hparse).1 htake
    have hend := h.endsOk ht hparse htake (hlen.trans_le hroom)
    rwa [hlen] at hend
  · cases hparse : parse (inputOf s.regs s.mem) with
    | none => rwa [hparse] at hanswer
    | some before =>
      obtain ⟨hbefore, hin⟩ := parse_eq_some_iff.1 hparse
      have hprefix := prefix_of_streamOf_prefix hbefore henc (hin.trans hcut ▸ List.take_prefix m _)
      exact absurd (List.prefix_iff_eq_take.1 hprefix ▸ hin) (hinside before.length)

end Sys2Proof.Machine
end

section
/-! SUPPORT. COUNT mode of a running DECOMPRESS (R232 to R238): a token adds the length that its control byte and
length byte give it, and the end of the stream is ESIZE with the sum. -/

namespace Sys2Proof.Machine

open Sys2Proof

variable {s : State} {cb : Byte} {tail : List Byte}

/-! ## A token -/

/-- Settles O13: in COUNT mode the capacity check and the token's own meaning are both passed by. -/
theorem countModeOnlyAddsLengths : Obligations.CountModeOnlyAddsLengths :=
  fun _ s ht hb hc hm => (exec_token ht s).trans (execToken_count ht hb hc hm)

/-- The output length of a token from its control byte and the byte after it, which is the length byte of REFL and of no
other format (R92 to R95). -/
def lengthOf (cb next : Byte) : Nat :=
  if cb.toNat < 0x20 then cb.toNat + 1 else if cb.toNat < 0xE0 then formatBits cb + 2 else next.toNat + 9

theorem outSize_tokenOf (hlen : tail.length + 1 = tokenSize cb) :
    (tokenOf cb tail).outSize = lengthOf cb (tail.getD 0 0) := by
  by_cases hlit : cb.toNat < 0x20
  · rw [tokenSize_lit hlit] at hlen
    rw [tokenOf_lit hlit, lengthOf, if_pos hlit]
    exact Nat.succ.inj hlen
  by_cases hrefs : cb.toNat < 0xE0
  · have hlo := Nat.not_lt.1 hlit
    rw [tokenSize_refs hlo hrefs] at hlen
    obtain ⟨b, rfl⟩ := List.length_eq_one_iff.1 (Nat.succ.inj hlen)
    rw [outSize_of_backRef (tokenOf_refs hlo hrefs b), lengthOf, if_neg hlit, if_pos hrefs]
  · have hrefl := Nat.not_lt.1 hrefs
    rw [tokenSize_refl hrefl] at hlen
    obtain ⟨e, b, rfl⟩ := List.length_eq_two.1 (Nat.succ.inj hlen)
    rw [tokenOf_refl hrefl, lengthOf, if_neg hlit, if_neg hrefs]
    rfl

/-- Only REFL takes its length from the byte after the control byte (R234). -/
theorem lengthOf_congr {next next' : Byte} (h : 0xE0 ≤ cb.toNat → next' = next) :
    lengthOf cb next' = lengthOf cb next := by
  by_cases hrefl : 0xE0 ≤ cb.toNat
  · rw [h hrefl]
  · have hrefs := Nat.lt_of_not_le hrefl
    simp only [lengthOf, if_pos hrefs]

/-- A complete token is fetched from its control byte and the bytes after it, of which there is one at least (R99). -/
theorem fetchToken_whole (hin : s.ip < s.op.inLen.toNat)
    (hwhole : tokenSize (s.inByte s.ip) ≤ s.op.inLen.toNat - s.ip) :
    ∃ tail, tail.length + 1 = tokenSize (s.inByte s.ip) ∧ tail.getD 0 0 = s.inByte (s.ip + 1) ∧
      fetchToken s = some (tokenOf (s.inByte s.ip) tail) := by
  obtain ⟨n, hn⟩ : ∃ n, tokenSize (s.inByte s.ip) = n + 2 := Nat.exists_eq_add_of_le' (tokenSize_pos _)
  have hlast : tokenSize (s.inByte s.ip) - 1 = n + 1 := by omega
  refine ⟨s.inputBytes (s.ip + 1) (n + 1), ?_, ?_, hlast ▸ fetchToken_complete hin hwhole⟩
  · rw [inputBytes_length, hn]
  · rw [inputBytes_succ]
    rfl

/-- A complete token in COUNT mode, by the two bytes of it that are looked at (R232, R234). -/
theorem step_count (hb : s.phase = .busy) (hs : s.start = false) (hc : s.op.cmd = .decompress) (hm : s.mode = .count)
    (hin : s.ip < s.op.inLen.toNat) (hwhole : tokenSize (s.inByte s.ip) ≤ s.op.inLen.toNat - s.ip) :
    step s = .next { s with
      cb := s.inByte s.ip, wp := sat (s.wp + lengthOf (s.inByte s.ip) (s.inByte (s.ip + 1)))
      ip := s.ip + tokenSize (s.inByte s.ip) } := by
  obtain ⟨tail, hlen, hnext, hf⟩ := fetchToken_whole hin hwhole
  rw [step_eq_stepWith, stepWith_token hb hs hc hf, execToken_count (tokenOf_isToken _ _) hb hc hm, tokenOf_bytes hlen,
    outSize_tokenOf hlen, hnext, (tokenOf_wellFormed (Nat.eq_sub_of_add_eq hlen)).2]
  rfl

/-- Settles O15: the step is a function of the control byte and, through `lengthOf`, of the length byte of REFL. -/
theorem countModeReadsOnlyControlAndLengthBytes : Obligations.CountModeReadsOnlyControlAndLengthBytes := by
  intro s m hb hs hc hm hin hwhole hcontrol hlength
  have hcontrol' : (s.withMem m).inByte s.ip = s.inByte s.ip := hcontrol
  have hlength' : lengthOf (s.inByte s.ip) ((s.withMem m).inByte (s.ip + 1)) =
      lengthOf (s.inByte s.ip) (s.inByte (s.ip + 1)) := lengthOf_congr hlength
  have hstep := step_count (s := s.withMem m) hb hs hc hm hin (hcontrol'.symm ▸ hwhole)
  rw [hcontrol', hlength'] at hstep
  exact ⟨_, step_count hb hs hc hm hin hwhole, rfl, hstep⟩

/-! ## The end of the stream -/

theorem storesLength_esize (hc : s.op.cmd = .decompress) : storesLength .esize s = true := by simp [storesLength, hc]

/-- Settles O19: the end of the stream in COUNT mode raises ESIZE, which for DECOMPRESS stores `WP`. -/
theorem decompressEndsShort : Obligations.DecompressEndsShort := by
  intro s hb hc hend hm
  refine ⟨raise .esize s, ?_, ?_, unchangedOutside_raise .esize rfl fun _ _ => rfl, raise_mem_of_countFirst .esize⟩
  · rw [exec_decompress_streamEnd hb hc hend, decoderEnd_count hm]
  · simp only [raise, storesLength_esize hc]
    rfl

end Sys2Proof.Machine
end

section
/-! SUPPORT. Size queries (R122, R231, R239) and what the length that ESIZE reports is good for (R240), from the
reference decoder's answer to a whole command. -/

namespace Sys2Proof.Machine

open Sys2Proof

variable {C : Config} {s t : State} {tokens : List Instr} {n : Nat}

/-! ## A query with no capacity -/

/-- Non-empty input is no stream of no tokens (R90). -/
theorem ne_nil_of_parse_inputOf {r : Operands} {m : Memory} (hlen : r.inLen ≠ 0#32)
    (hparse : parse (inputOf r m) = some tokens) : tokens ≠ [] := by
  rintro rfl
  have hzero := congrArg List.length (parse_eq_some_iff.1 hparse).2
  rw [streamOf_nil, inputOf_length] at hzero
  exact hlen (BitVec.eq_of_toNat_eq hzero.symm)

/-- With no capacity no token fits, so no offset is looked at (R194). -/
theorem badOffsetBelow_zero (henc : Encodable tokens) : badOffsetBelow 0 0 tokens = false := by
  cases tokens with
  | nil => rfl
  | cons i rest =>
    obtain ⟨⟨hw, ht⟩, -⟩ := encodable_cons.1 henc
    exact badOffsetBelow_short (outSize_range ht hw).1 rest

theorem totalOut_pos (henc : Encodable tokens) (hne : tokens ≠ []) : 0 < totalOut tokens := by
  cases tokens with
  | nil => exact absurd rfl hne
  | cons i rest =>
    obtain ⟨⟨hw, ht⟩, -⟩ := encodable_cons.1 henc
    rw [totalOut_cons]
    exact Nat.add_pos_left (outSize_range ht hw).1 _

/-- Settles O44: of the reference decoder's answers only truncation and ESIZE are left. -/
theorem sizeQueryMeasures : Obligations.SizeQueryMeasures := by
  intro C s h hlen hcap
  obtain ⟨t, ht, hanswer⟩ := decompressComputesTheReferenceDecoder C s h
  refine ⟨t, ht, ?_⟩
  rw [hcap] at hanswer
  cases hparse : parse (inputOf s.regs s.mem) with
  | none => rwa [hparse] at hanswer
  | some tokens =>
    have henc := (parse_eq_some_iff.1 hparse).1
    have hgood := badOffsetBelow_zero henc
    have hpos := totalOut_pos henc (ne_nil_of_parse_inputOf hlen hparse)
    rw [hparse] at hanswer
    exact (if_neg (Nat.not_le.2 hpos)).mp ((if_neg (ne_true_of_eq_false hgood)).mp hanswer)

/-- Settles O48: COMPRESS leaves the reference encoder's tokens, which decode to the input; its length exceeds a
capacity of 0 unless it is empty. -/
theorem sizeQueryOfCompressedGivesTheLength : Obligations.SizeQueryOfCompressedGivesTheLength := by
  intro C D s t u c hs ht hok hu hin hcap
  have hparse := parse_eq_some_iff.2
    ⟨encoderTokens_encodable C (inputOf s.regs s.mem), (hin.trans (hs.endsOk ht hok).2).symm⟩
  obtain ⟨v, hv, hroom, hshort⟩ := decompressCapacityBoundary D u _ _ hu hparse (encoderTokens_decode C _)
  rw [inputOf_length, hcap] at hroom hshort
  refine ⟨v, hv, fun hlen => ?_, fun hempty => ?_⟩
  · have hwidth := s.regs.inLen.isLt
    have hpos : 0 < s.regs.inLen.toNat := Nat.pos_of_ne_zero fun hzero => hlen (BitVec.eq_of_toNat_eq hzero)
    rw [Nat.min_eq_left (by omega)] at hshort
    exact hshort hpos
  · rw [hempty] at hroom
    exact (hroom (Nat.le_refl 0)).1

/-! ## A retry with the reported length -/

theorem State.EndsShort.not_endsBad (h : t.EndsShort n) {code : Byte} : ¬t.EndsBad code := fun h' => by
  have hstores := h.2.1
  rw [h'.2] at hstores
  cases hstores

theorem State.EndsShort.not_endsOk (h : t.EndsShort n) {m : Nat} : ¬t.EndsOk m := fun h' =>
  absurd (h.1.symm.trans h'.1) (by decide)

theorem State.EndsShort.unique {m : Nat} (h : t.EndsShort n) (h' : t.EndsShort m) : m = n := h'.2.2.symm.trans h.2.2

/-- ESIZE of DECOMPRESS: the stream is whole, and its output exceeds the capacity and is what is reported (R238). -/
theorem ReadyDecompress.endsShort (h : ReadyDecompress C s) (ht : Ends C s t) (hshort : t.EndsShort n) :
    ∃ tokens, parse (inputOf s.regs s.mem) = some tokens ∧ s.regs.outCap.toNat < totalOut tokens ∧
      n = min (totalOut tokens) lenMax := by
  have hanswer := h.answers ht
  generalize parse (inputOf s.regs s.mem) = left at hanswer
  cases hanswer with
  | truncated bad => exact absurd bad hshort.not_endsBad
  | badOffset _ _ bad => exact absurd bad hshort.not_endsBad
  | decoded _ _ _ ok => exact absurd ok hshort.not_endsOk
  | @counted tokens exceeds short =>
    obtain ⟨-, hbig⟩ := exceeds rfl
    simp only [initialise_wp, Nat.zero_add] at hbig short
    exact ⟨tokens, rfl, hbig, short.unique hshort⟩

/-- Settles O46: a reported length short of saturation is the stream's whole output, for which the retry has room. -/
theorem retryAfterEsizeDoesNotFailOnSize : Obligations.RetryAfterEsizeDoesNotFailOnSize := by
  intro C s t u r h ht hshort hr
  obtain ⟨tokens, hparse, hbig, hmin⟩ := h.endsShort ht hshort
  obtain rfl : r = totalOut tokens := by
    simp only [lenMax] at hmin
    omega
  refine ⟨hbig, fun hu hin hroom => ?_⟩
  obtain ⟨v, hv, hanswer⟩ := decompressComputesTheReferenceDecoder C u hu
  refine ⟨v, hv, ?_⟩
  rw [hin, hparse] at hanswer
  by_cases hbad : badOffsetBelow u.regs.outCap.toNat 0 tokens = true
  · exact .inr ((if_pos hbad).mp hanswer)
  · exact .inl ((if_pos hroom).mp ((if_neg hbad).mp hanswer)).1

end Sys2Proof.Machine
end

section
/-! SUPPORT. How each command can end (R254, R257), whatever the state: the one failure that a turn of COMPRESS, or a token
of DECOMPRESS, can raise, shown of one operation at a time. -/

namespace Sys2Proof.Machine

open Sys2Proof

variable {C : Config} {s t : State} {f : Failure} {x : Flow}

/-! ## The failures that an operation can raise -/

/-- This part of a command leaves it running, or ends it by `finish` or by the one failure `f` (R14). -/
inductive OnlyRaises (f : Failure) : Flow → Prop
  | go {t : State} (busy : t.phase = .busy) : OnlyRaises f (.go t)
  | finished (n : Nat) (t : State) : OnlyRaises f (.ended (finish n t))
  | raised (t : State) : OnlyRaises f (.ended (raise f t))
  | stop (e : Fault) : OnlyRaises f (.stop e)

theorem OnlyRaises.andThen {k : State → Flow} (h : OnlyRaises f x) (hk : ∀ t, t.phase = .busy → OnlyRaises f (k t)) :
    OnlyRaises f (x.andThen k) := by
  cases h with
  | go busy => exact hk _ busy
  | finished n t => exact .finished n t
  | raised t => exact .raised t
  | stop e => exact .stop e

/-- A step that ends the command does so in one of the two ways. -/
theorem OnlyRaises.end_cases (h : OnlyRaises f x) (hx : x.outcome = .next t) (hdone : t.phase = .done) :
    (∃ n u, t = finish n u) ∨ ∃ u, t = raise f u := by
  cases h with
  | go busy => cases hx; simp [busy] at hdone
  | finished n u => cases hx; exact .inl ⟨n, u, rfl⟩
  | raised u => cases hx; exact .inr ⟨u, rfl⟩
  | stop e => cases hx

theorem emitByte_onlyRaises (v : Byte) (hb : s.phase = .busy) : OnlyRaises f (emitByte v s) := by
  unfold emitByte
  split
  · exact .go hb
  · exact .stop _

theorem emit_onlyRaises (bytes : List Byte) (hb : s.phase = .busy) : OnlyRaises f (emit bytes s) := by
  induction bytes generalizing s with
  | nil => exact .go hb
  | cons b rest ih => exact (emitByte_onlyRaises b hb).andThen fun _ => ih

theorem copyIn_onlyRaises (n i : Nat) (hb : s.phase = .busy) : OnlyRaises f (copyIn n i s) := by
  induction n generalizing i s with
  | zero => exact .go hb
  | succ n ih =>
    rw [copyIn]
    cases s.readIn i with
    | error e => exact .stop e
    | ok b => exact (emitByte_onlyRaises b hb).andThen fun _ => ih (i + 1)

theorem copyBack_onlyRaises (n : Nat) (hb : s.phase = .busy) : OnlyRaises f (copyBack n s) := by
  induction n generalizing s with
  | zero => exact .go hb
  | succ n ih =>
    rw [copyBack]
    cases s.readOut (s.wp - s.moff) with
    | error e => exact .stop e
    | ok b => exact (emitByte_onlyRaises b hb).andThen fun _ => ih

/-! ## COMPRESS raises ESIZE alone (R162) -/

theorem flushLit_onlyRaises (hb : s.phase = .busy) : OnlyRaises .esize (flushLit s) := by
  unfold flushLit
  split
  · exact .go hb
  · split
    · exact .raised s
    · have hlatched : ({ s with cb := encLit s.ll } : State).phase = .busy := hb
      exact (emitByte_onlyRaises _ hlatched).andThen fun _ ht => (copyIn_onlyRaises _ _ ht).andThen fun _ hu => .go hu

theorem emitRef_onlyRaises (hb : s.phase = .busy) : OnlyRaises .esize (emitRef s) := by
  unfold emitRef
  split
  · exact .raised s
  · exact emit_onlyRaises _ hb

theorem enterSkipped_onlyRaises (hb : s.phase = .busy) : OnlyRaises f (enterSkipped C s) := by
  unfold enterSkipped
  cases C.hupd with
  | all =>
    obtain ⟨ht, hx, -⟩ := enterAll_ok C (n := s.mlen - 1) (p := s.ip + 1) (s := s)
    exact hx ▸ .go hb
  | start => exact .go hb

theorem literalTurn_onlyRaises (hb : s.phase = .busy) : OnlyRaises .esize (literalTurn s) := by
  unfold literalTurn
  split
  · exact flushLit_onlyRaises hb
  · exact .go hb

theorem matchTurn_onlyRaises (p : Nat) (hb : s.phase = .busy) : OnlyRaises .esize (matchTurn C p s) := by
  unfold matchTurn
  cases matchLength s p with
  | error e => exact .stop e
  | ok len =>
    have hlatched : ({ s with mlen := len, moff := s.ip - p } : State).phase = .busy := hb
    exact (flushLit_onlyRaises hlatched).andThen fun _ ht => (emitRef_onlyRaises ht).andThen fun _ hu =>
      (enterSkipped_onlyRaises hu).andThen fun _ hv => .go hv

theorem probe_phase (h : probe C s = .ok t) : t.phase = s.phase := by
  unfold probe at h
  split at h <;> cases h
  rfl

theorem encoderTurn_onlyRaises (hb : s.phase = .busy) : OnlyRaises .esize (encoderTurn C s) := by
  unfold encoderTurn
  split
  · split
    · cases hp : probe C s with
      | error e => exact .stop e
      | ok t =>
        have ht : t.phase = .busy := (probe_phase hp).trans hb
        simp only
        cases acceptCandidate t with
        | error e => exact .stop e
        | ok found =>
          cases found with
          | none => exact literalTurn_onlyRaises ht
          | some p => exact matchTurn_onlyRaises p ht
    · exact literalTurn_onlyRaises hb
  · exact (flushLit_onlyRaises hb).andThen fun t _ => .finished t.wp t

/-! ## A token of DECOMPRESS raises ECORRUPT alone (R199) -/

theorem copyReference_onlyRaises (n off : Nat) (hb : s.phase = .busy) :
    OnlyRaises .ecorrupt (copyReference n off s) := by
  unfold copyReference
  simp only
  split
  · exact .raised _
  · exact copyBack_onlyRaises n hb

theorem runToken_onlyRaises (cb : Byte) (n size : Nat) {write : State → Flow}
    (hw : ∀ t, t.phase = .busy → OnlyRaises f (write t)) (hb : s.phase = .busy) :
    OnlyRaises f (runToken cb n size write s) := by
  have hchecked : (checkCapacity n { s with cb := cb }).phase = .busy := (checkCapacity_phase n _).trans hb
  unfold runToken
  simp only
  split
  · exact .go hchecked
  · exact (hw _ hchecked).andThen fun _ hu => .go hu

theorem execToken_end_cases {i : Instr} (hi : i.isToken = true) (hb : s.phase = .busy)
    (hc : s.op.cmd = .decompress) (h : execToken i s = .next t) (hdone : t.phase = .done) :
    (∃ n u, t = finish n u) ∨ ∃ u, t = raise .ecorrupt u := by
  obtain ⟨write, hx, hlit, href⟩ := execToken_shape hi s
  have hw : ∀ u, u.phase = .busy → OnlyRaises .ecorrupt (write u) := by
    rcases token_kind hi with ⟨data, hdata, _⟩ | ⟨n, off, hback, _⟩
    · rw [hlit data hdata]; exact fun _ => emit_onlyRaises data
    · rw [href n off hback]; exact fun _ => copyReference_onlyRaises n off
  rw [hx, whenDecoding_of hb hc] at h
  exact (runToken_onlyRaises _ _ _ hw hb).end_cases h hdone

/-! ## The table of responses -/

/-- The response of an ended command is in its row of R254, with the `RLEN_WR` of R257. -/
def State.InResponseTable (t : State) : Prop :=
  (t.op.cmd = .compress →
    (t.status = 0x00#8 ∧ t.rlenWr = true) ∨ (t.status = 0xFF#8 ∧ t.rlenWr = false) ∨
    (t.status = 0xFD#8 ∧ t.rlenWr = false)) ∧
  (t.op.cmd = .decompress →
    (t.status = 0x00#8 ∧ t.rlenWr = true) ∨ (t.status = 0xFF#8 ∧ t.rlenWr = true) ∨
    (t.status = 0xFE#8 ∧ t.rlenWr = false) ∨ (t.status = 0xFD#8 ∧ t.rlenWr = false))

theorem finish_inResponseTable (n : Nat) (s : State) : (finish n s).InResponseTable :=
  ⟨fun _ => .inl ⟨rfl, rfl⟩, fun _ => .inl ⟨rfl, rfl⟩⟩

theorem raise_eargs_inResponseTable (s : State) : (raise .eargs s).InResponseTable :=
  ⟨fun _ => .inr (.inr ⟨rfl, rfl⟩), fun _ => .inr (.inr (.inr ⟨rfl, rfl⟩))⟩

/-- ESIZE stores a length for DECOMPRESS alone (R238, R257). -/
theorem raise_esize_inResponseTable (s : State) : (raise .esize s).InResponseTable := by
  refine ⟨fun hc => .inr (.inl ⟨rfl, ?_⟩), fun hc => .inr (.inl ⟨rfl, ?_⟩)⟩ <;>
    rw [raise_op] at hc <;> simp [storesLength, hc]

/-- ECORRUPT is in the row of DECOMPRESS only (R254). -/
theorem raise_ecorrupt_inResponseTable (hc : s.op.cmd = .decompress) : (raise .ecorrupt s).InResponseTable :=
  ⟨fun h => absurd (h.symm.trans hc) (by decide), fun _ => .inr (.inr (.inl ⟨rfl, rfl⟩))⟩

theorem issue_inResponseTable {c : Cmd} (h : issue C c s = .next t) (hdone : t.phase = .done) :
    t.InResponseTable := by
  rcases issue_next h with rfl | rfl | ⟨rfl, _⟩
  · exact raise_eargs_inResponseTable _
  · exact finish_inResponseTable 0 _
  · simp at hdone

theorem decoderEnd_inResponseTable (s : State) : (decoderEnd s).InResponseTable := by
  cases hm : s.mode with
  | write => rw [decoderEnd_write hm]; exact finish_inResponseTable _ s
  | count => rw [decoderEnd_count hm]; exact raise_esize_inResponseTable s

theorem encoderTurn_inResponseTable (hb : s.phase = .busy) (h : (encoderTurn C s).outcome = .next t)
    (hdone : t.phase = .done) : t.InResponseTable := by
  rcases (encoderTurn_onlyRaises hb).end_cases h hdone with ⟨n, u, rfl⟩ | ⟨u, rfl⟩
  · exact finish_inResponseTable n u
  · exact raise_esize_inResponseTable u

theorem execToken_inResponseTable {i : Instr} (hi : i.isToken = true) (hb : s.phase = .busy)
    (hc : s.op.cmd = .decompress) (h : execToken i s = .next t) (hdone : t.phase = .done) : t.InResponseTable := by
  have hop : t.op = s.op := (execToken_kept (c := .decompress) hi h).op
  rcases execToken_end_cases hi hb hc h hdone with ⟨n, u, rfl⟩ | ⟨u, rfl⟩
  · exact finish_inResponseTable n u
  · exact raise_ecorrupt_inResponseTable ((congrArg Operands.cmd hop).trans hc)

/-- Settles O36: a command ends at its issue, in a turn of COMPRESS, at the end of the stream, or at a token. -/
theorem responseTable : Obligations.ResponseTable := by
  intro C s t hactive h hdone
  change t.InResponseTable
  rcases stepWith_cases C s with ⟨hb, hs, _⟩ | ⟨_, _, hx⟩ | ⟨_, _, hx⟩ | ⟨hb, _, _, hx⟩ | ⟨_, _, _, _, hx⟩ |
    ⟨hb, _, hc, _, i, _, hi, hx⟩ | ⟨_, _, hc, _, _, hx⟩
  · simp [hb, hs] at hactive
  · exact issue_inResponseTable (hx ▸ h) hdone
  · cases hx.symm.trans h
  · exact encoderTurn_inResponseTable hb (hx ▸ h) hdone
  · cases hx.symm.trans h; exact decoderEnd_inResponseTable s
  · exact execToken_inResponseTable hi hb hc (hx ▸ h) hdone
  · cases hx.symm.trans h; exact raise_ecorrupt_inResponseTable hc

end Sys2Proof.Machine
end

section
/-! SUPPORT. Reset and hazards: every command ends (R302), what a step is refused for (R296, R297, R299, R301), and what a
reset event comes to (R290, R291). -/

namespace Sys2Proof.Machine

open Sys2Proof

variable {C : Config} {c : Cmd} {r : Operands} {s t : State}

/-! ## Termination -/

/-- Settles O38: `IP` moves in every step of a running command that does not end it, and stays within the input. -/
theorem everyCommandReachesDone : Obligations.EveryCommandReachesDone := by
  refine ⟨fun C s hissued => ?_, fun C s hr hb => ?_⟩
  · obtain ⟨t, ht, _⟩ := hissued.ends
    exact ⟨t, ht⟩
  · obtain ⟨t, ht, hdone, _⟩ := runWith_busy_ends C hr hb (Nat.lt_succ_self _)
    exact ⟨t, ht, hdone⟩

/-! ## Refusals -/

/-- With unbounded addresses (R10) overlapping regions are the only obligation that can be broken (R297). -/
theorem brokenObligation_hardware_overlap (hd : ¬r.Disjoint) : brokenObligation hardware r = some .regionsOverlap := by
  have hwraps : wraps hardware r = false := (wraps_eq_false_iff hardware r).2 nofun
  have hoverlap : overlap r = true := Bool.eq_true_of_not_eq_false (mt (overlap_eq_false_iff r).1 hd)
  simp [brokenObligation, hwraps, hoverlap]

/-- Neither command is issued on regions that overlap (R297, R301). -/
theorem exec_command_overlap (hb : s.phase ≠ .busy) (hd : ¬s.regs.Disjoint) :
    exec c.instr s = .refused .regionsOverlap := by
  simp [exec_command_issues hb, issue, brokenObligation_hardware_overlap hd]

/-- Neither command is issued while the other runs (R299). -/
theorem exec_command_otherRuns (hb : s.phase = .busy) (hc : s.op.cmd ≠ c) : exec c.instr s = .refused .startWhileBusy := by
  cases c with
  | compress =>
    cases hop : s.op.cmd with
    | compress => exact absurd hop hc
    | decompress => simp [Cmd.instr, exec, execCompress, execCompressWith, hb, hop]
  | decompress =>
    cases hop : s.op.cmd with
    | compress => simp [Cmd.instr, exec, execDecompress, execDecompressWith, hb, hop]
    | decompress => exact absurd hop hc

/-- Settles O24: the front end refuses overlapping regions, and a running engine every `START`. -/
theorem brokenObligationsAreRefused : Obligations.BrokenObligationsAreRefused :=
  ⟨fun _ hb hd => ⟨exec_command_overlap (c := .compress) hb hd, exec_command_overlap (c := .decompress) hb hd⟩,
    fun _ hb hc => exec_command_otherRuns (c := .compress) hb (by simp [hc]),
    fun _ hb hc => exec_command_otherRuns (c := .decompress) hb (by simp [hc]),
    fun _ hb hs => if_pos ⟨hb, hs⟩⟩

/-- The issue refuses exactly the operands that break R296 or R297, whatever their argument check says (log 7). -/
theorem issue_refused_iff : (∃ f, issue C c s = .refused f) ↔ ¬(s.regs.NoWrap C ∧ s.regs.Disjoint) := by
  rw [← brokenObligation_eq_none_iff]
  rcases issue_cases C c s with ⟨f, hbroken, hx⟩ | ⟨hnone, ⟨_, hx⟩ | ⟨_, _, hx⟩ | ⟨_, _, hx⟩⟩
  · simp [hbroken, hx]
  all_goals simp [hnone, hx]

/-- No step of a running command is refused. -/
theorem stepWith_ne_refused (hr : s.RunInv) (hb : s.phase = .busy) (f : Refusal) : stepWith C s ≠ .refused f := by
  intro hx
  have honward := stepWith_onward C hr hb
  rw [hx] at honward
  cases honward

/-- Settles O33: of a running command, an engine at rest and an issue, only the issue is ever refused. -/
theorem onlyBrokenObligationsAreRefused : Obligations.OnlyBrokenObligationsAreRefused := by
  intro C s hr
  by_cases hb : s.phase = .busy
  · simp [hb, stepWith_ne_refused hr hb]
  · cases hs : s.start with
    | false => simp [stepWith_rest hb hs]
    | true =>
      rw [stepWith_issue hb hs, issue_refused_iff]
      simp [hb]

/-! ## The engine at rest -/

theorem step_rest (hb : s.phase ≠ .busy) (hs : s.start = false) : step s = .next s :=
  (step_eq_stepWith s).trans (stepWith_rest hb hs)

/-- Settles O7: the state after reset is one of those at rest. -/
theorem engineWaitsForStart : Obligations.EngineWaitsForStart := ⟨rfl, rfl, fun _ => step_rest⟩

/-! ## The reset event -/

/-- The command that a reset abandons is the running one (R291). -/
theorem abandoned_running (hb : s.phase = .busy) : abandoned s = some s.op := by simp [abandoned, hb]

/-- Where none runs, it is the started one (log 11). -/
theorem abandoned_started (hb : s.phase ≠ .busy) (hs : s.start = true) : abandoned s = some s.regs := by
  cases hp : s.phase with
  | busy => exact absurd hp hb
  | idle | done => simp [abandoned, hp, hs]

/-- Where the host reads no running command, there is none. -/
theorem abandoned_rest (hrest : s.busyToHost = false) : abandoned s = none := by
  obtain ⟨hb, hs⟩ := Bool.or_eq_false_iff.1 hrest
  cases hp : s.phase with
  | busy => simp [hp] at hb
  | idle | done => simp [abandoned, hp, hs]

/-- A reset event that completes leaves the engine IDLE, with nothing pending (R290). -/
theorem resetEvent_idle (h : resetEvent C s = .next t) : t.phase = .idle ∧ t.start = false := by
  have hturn := resetEvent_spec C s
  rw [h] at hturn
  cases hturn with
  | calm | abandons => exact ⟨rfl, rfl⟩

/-- With no command to abandon a reset keeps memory (R290). -/
theorem resetEvent_rest (hrest : s.busyToHost = false) : ∃ t, resetEvent C s = .next t ∧ t.mem = s.mem := by
  have hnone := abandoned_rest hrest
  have hturn := resetEvent_spec C s
  generalize resetEvent C s = x at hturn
  cases hturn with
  | doubled busy => simp [State.busyToHost, busy] at hrest
  | calm => exact ⟨_, rfl, rfl⟩
  | abandons r is | broken r f is => simp [hnone] at is

/-- The reset of a command that keeps R296 and R297 spares all but its output region, if it has one (R33, R291). -/
theorem resetEvent_abandons (honce : ¬(s.phase = .busy ∧ s.start = true)) (hcmd : abandoned s = some r)
    (hw : r.NoWrap C) (hd : r.Disjoint) : ∃ t, resetEvent C s = .next t ∧
    unchangedOutside r.outBase r.outCap.toNat s.mem t.mem ∧ (r.outPresent = false → t.mem = s.mem) := by
  have hturn := resetEvent_spec C s
  generalize resetEvent C s = x at hturn
  cases hturn with
  | doubled busy start => exact absurd ⟨busy, start⟩ honce
  | calm rest => simp [abandoned_rest rest] at hcmd
  | abandons r' is =>
    obtain rfl : r = r' := Option.some.inj (hcmd.symm.trans is)
    exact ⟨_, rfl, fun _ => forgetOutput_read r _ _, fun h => forgetOutput_absent h _ _⟩
  | broken r' f is bad =>
    obtain rfl : r = r' := Option.some.inj (hcmd.symm.trans is)
    exact absurd ⟨hw, hd⟩ bad

/-- The reset of a command that breaks R296 or R297 is refused (R301, log 7). -/
theorem resetEvent_broken (hcmd : abandoned s = some r) (hbad : ¬(r.NoWrap C ∧ r.Disjoint)) :
    ∃ f, resetEvent C s = .refused f := by
  have hturn := resetEvent_spec C s
  generalize resetEvent C s = x at hturn
  cases hturn with
  | doubled => exact ⟨_, rfl⟩
  | calm rest => simp [abandoned_rest rest] at hcmd
  | abandons r' is noWrap disjoint =>
    obtain rfl : r = r' := Option.some.inj (hcmd.symm.trans is)
    exact absurd ⟨noWrap, disjoint⟩ hbad
  | broken r' f => exact ⟨f, rfl⟩

/-- Settles O55: a reset at rest, of a started command, of a running one, and beside a second `START`. -/
theorem resetEventAbandonsTheCommand : Obligations.ResetEventAbandonsTheCommand := by
  intro C s
  refine ⟨fun t ht => ?_, resetEvent_rest,
    fun hb hs => resetEvent_abandons (by simp [hb]) (abandoned_started hb hs),
    fun hb hs => resetEvent_abandons (by simp [hs]) (abandoned_running hb),
    fun hb hs => resetEvent_broken (abandoned_started hb hs),
    fun hb _ => resetEvent_broken (abandoned_running hb),
    fun hb hs => if_pos ⟨hb, hs⟩⟩
  obtain ⟨hidle, hstart⟩ := resetEvent_idle ht
  exact ⟨hidle, hstart, step_rest (by simp [hidle]) hstart⟩

end Sys2Proof.Machine
end
